-- ==== Sys2Proof/Word.lean ====
section
/-!
DEFINITION. The word types of WSFC (spec/00_scope.md R9): a byte, an unsigned 64-bit length, a sequence of bytes.
-/
namespace Sys2Proof

/-- `Byte` of R9: an unsigned 8-bit value. -/
abbrev Byte := BitVec 8

/-- `u64` of R9: a register that holds an unsigned integer in 0..2^64−1. -/
abbrev U64 := BitVec 64

/-- `Bytes` of R9: a finite sequence of bytes, index 0 first on the wire. -/
abbrev Bytes := List Byte

end Sys2Proof
end

