-- ==== Sys2Proof/Config.lean ====
section
/-!
DEFINITION. The parameters of one WSFC instance (spec/00_scope.md R7). They are the arguments of CONFIGURE and no
constants of the implementation: MAX_PAYLOAD and STRICT_MINLEN are OPEN in the spec, ROLE and RSV1_ALLOWED are the
host's, so every claim quantifies over a value of `Config`. The spec leaves no result of any command open, so this
model has no free value (notes/assumptions/9.md).
-/
namespace Sys2Proof

/-- The endpoint the instance serves (`ROLE` of R7, `cfg_role` of R22). -/
inductive Role where
  | client
  | server
deriving DecidableEq, Repr

/-- The four parameters of R7, as CONFIGURE takes them (R221). -/
structure Config where
  role : Role
  rsv1Allowed : Bool
  maxPayload : U64
  strictMinlen : Bool
deriving DecidableEq, Repr

end Sys2Proof
end

