-- ==== Sys2Proof/Syntax.lean ====
section
/-!
DEFINITION. The instructions of WSFC: one constructor for each of the 38 rows of spec/opcode_table.json. The rows
come in the table's three formats: CMD (a command of spec/30_encoding.md R83), HDR_B0 (byte 0 of a frame, R76) and
HDR_B1 (a header format, byte 1 of a frame and the header bytes that follow it, R71).
-/
namespace Sys2Proof

/-- A mask key: four bytes in wire order, never an integer (R55). -/
structure Key where
  k0 : Byte
  k1 : Byte
  k2 : Byte
  k3 : Byte
deriving DecidableEq, Repr

/-- The "format" column of spec/opcode_table.json. -/
inductive Format where
  | cmd
  | hdrB0
  | hdrB1
deriving DecidableEq, Repr

/-- One instruction. -/
inductive Instr where
  -- format CMD: the commands of R83, their arguments in the order R83 lists them
  | reset
  | configure (role : Role) (rsv1Allowed : Bool) (maxPayload : U64) (strictMinlen : Bool)
  | readStatus
  | encodeHeader (opcode : BitVec 4) (fin rsv1 : Bool) (key : Option Key) (n : Nat)
  | encodeFrame (opcode : BitVec 4) (fin rsv1 : Bool) (key : Option Key) (payload : Bytes)
  | applyMask (data : Bytes) (key : Key) (phase : BitVec 2)
  | decodeHeader (buf : Bytes)
  | feedByte (b : Byte)
  | feed (data : Bytes)
  | reserved9
  | reservedA
  | reservedB
  | reservedC
  | reservedD
  | reservedE
  | reservedF
  -- format HDR_B0: byte 0 of a frame; the opcode is the constructor, FIN and RSV1..RSV3 are operands
  | cont (fin rsv1 rsv2 rsv3 : Bool)
  | text (fin rsv1 rsv2 rsv3 : Bool)
  | bin (fin rsv1 rsv2 rsv3 : Bool)
  | rsvdD3 (fin rsv1 rsv2 rsv3 : Bool)
  | rsvdD4 (fin rsv1 rsv2 rsv3 : Bool)
  | rsvdD5 (fin rsv1 rsv2 rsv3 : Bool)
  | rsvdD6 (fin rsv1 rsv2 rsv3 : Bool)
  | rsvdD7 (fin rsv1 rsv2 rsv3 : Bool)
  | close (fin rsv1 rsv2 rsv3 : Bool)
  | ping (fin rsv1 rsv2 rsv3 : Bool)
  | pong (fin rsv1 rsv2 rsv3 : Bool)
  | rsvdCB (fin rsv1 rsv2 rsv3 : Bool)
  | rsvdCC (fin rsv1 rsv2 rsv3 : Bool)
  | rsvdCD (fin rsv1 rsv2 rsv3 : Bool)
  | rsvdCE (fin rsv1 rsv2 rsv3 : Bool)
  | rsvdCF (fin rsv1 rsv2 rsv3 : Bool)
  -- format HDR_B1: byte 1 of a frame, with the extended length and the mask key of the header format
  | h2 (len7 : BitVec 7)
  | h6 (len7 : BitVec 7) (key : Key)
  | h4 (len : BitVec 16)
  | h8 (len : BitVec 16) (key : Key)
  | h10 (len : U64)
  | h14 (len : U64) (key : Key)
deriving DecidableEq, Repr

/-- One word on the host's command port: the format of the row it carries and its bytes, the first at the lowest
position. The spec gives commands typed arguments and no packing (R83, D2): the port is the model's own
(notes/assumptions/2.md). -/
structure HostWord where
  format : Format
  bytes : Bytes
deriving DecidableEq, Repr

end Sys2Proof
end

