-- ==== Sys2Proof/Machine/Operands.lean ====
section
/-!
DEFINITION. The operand forms of WSFC: the fields of the two base header bytes (spec/30_encoding.md R70, placed by
spec/20_memory.md R54), the big-endian integers of spec/00_scope.md R10, the mask key as bytes (R55, R75), and the
opcode values and frame classes (R76, R77). No definition here reads the state.
-/
namespace Sys2Proof

/-! Byte 0 (R54, R70): FIN = bit 7, RSV1 = bit 6, RSV2 = bit 5, RSV3 = bit 4, OPCODE = bits 3..0. -/

def Byte0.fin (b0 : Byte) : Bool := b0.getLsbD 7
def Byte0.rsv1 (b0 : Byte) : Bool := b0.getLsbD 6
def Byte0.rsv2 (b0 : Byte) : Bool := b0.getLsbD 5
def Byte0.rsv3 (b0 : Byte) : Bool := b0.getLsbD 4
def Byte0.opcode (b0 : Byte) : BitVec 4 := b0.extractLsb' 0 4

/-- Byte 0 with the given fields. -/
def Byte0.make (fin rsv1 rsv2 rsv3 : Bool) (opcode : BitVec 4) : Byte :=
  BitVec.ofBool fin ++ BitVec.ofBool rsv1 ++ BitVec.ofBool rsv2 ++ BitVec.ofBool rsv3 ++ opcode

/-! Byte 1 (R54, R70): MASK = bit 7, LEN7 = bits 6..0. -/

def Byte1.mask (b1 : Byte) : Bool := b1.getLsbD 7
def Byte1.len7 (b1 : Byte) : BitVec 7 := b1.extractLsb' 0 7

/-- Byte 1 with the given fields. -/
def Byte1.make (mask : Bool) (len7 : BitVec 7) : Byte := BitVec.ofBool mask ++ len7

/-- `e(l)` of R72: how many extended-length bytes follow byte 1 when LEN7 is `l`. -/
def extBytes (l : BitVec 7) : Nat :=
  if l.toNat ≤ 125 then 0 else if l.toNat = 126 then 2 else 8

/-- How many mask-key bytes follow the length (R70, R75). -/
def keyBytes (b1 : Byte) : Nat := if Byte1.mask b1 then 4 else 0

/-- `header_length(b1)` of R72. -/
def headerLength (b1 : Byte) : Nat := 2 + extBytes (Byte1.len7 b1) + keyBytes b1

/-! Big-endian integers (R10, R53). -/

/-- The value of a byte sequence read most significant byte first: `be16` and `be64` of R10 on 2 and 8 bytes. -/
def beNat (s : Bytes) : Nat := s.foldl (fun n b => n * 256 + b.toNat) 0

/-- The `k` bytes of `n`, most significant first: `to_be16` and `to_be64` of R10 for `k` = 2 and 8. -/
def toBe : Nat → Nat → Bytes
  | 0, _ => []
  | k + 1, n => BitVec.ofNat 8 (n / 256 ^ k) :: toBe k n

/-- `(rx_len << 8) | b` of R176. -/
def shiftInByte (len : U64) (b : Byte) : U64 := (len <<< 8) ||| b.setWidth 64

/-! The mask key (R55, R75, R150). -/

/-- `key[i mod 4]`. -/
def Key.byteAt (k : Key) (i : Nat) : Byte :=
  match i % 4 with
  | 0 => k.k0
  | 1 => k.k1
  | 2 => k.k2
  | _ => k.k3

/-- The key's four bytes in wire order. -/
def Key.bytes (k : Key) : Bytes := [k.k0, k.k1, k.k2, k.k3]

/-- The key that the first four bytes of a sequence are (R75). -/
def Key.ofBytes : Bytes → Option Key
  | a :: b :: c :: d :: _ => some ⟨a, b, c, d⟩
  | _ => none

/-! Opcode values (R76) and classes (R77). -/

def Opcode.cont : BitVec 4 := 0x0
def Opcode.text : BitVec 4 := 0x1
def Opcode.bin : BitVec 4 := 0x2
def Opcode.close : BitVec 4 := 0x8
def Opcode.ping : BitVec 4 := 0x9
def Opcode.pong : BitVec 4 := 0xA

/-- `op ∈ {0x0,0x1,0x2,0x8,0x9,0xA}` (R76, R78): an opcode that names a frame type. -/
def Opcode.recognized (op : BitVec 4) : Bool :=
  op == Opcode.cont || op == Opcode.text || op == Opcode.bin
    || op == Opcode.close || op == Opcode.ping || op == Opcode.pong

/-- `op ∈ {0x1,0x2}`: Text or Binary, the first frame of a message. -/
def Opcode.initiating (op : BitVec 4) : Bool := op == Opcode.text || op == Opcode.bin

/-- `is_control(op) = (op[3] = 1)` (R77). -/
def Opcode.isControl (op : BitVec 4) : Bool := op.getLsbD 3

end Sys2Proof
end

