-- ==== Sys2Proof/WellFormed.lean ====
section
/-!
DEFINITION. Which instruction terms stand for words of spec/opcode_table.json. The argument types leave only one
thing to check: LEN7 of the formats H2 and H6 is at most 125, because 126 and 127 select the longer formats
(spec/30_encoding.md R71, and the table's note on H2 and H6).
-/
namespace Sys2Proof

/-- R71: in the formats H2 and H6, LEN7 is 0..125. Every other argument type has legal values only (R43, R83). -/
def Instr.wellFormed : Instr → Bool
  | .h2 len7 => decide (len7.toNat ≤ 125)
  | .h6 len7 _ => decide (len7.toNat ≤ 125)
  | .reset => true
  | .configure _ _ _ _ => true
  | .readStatus => true
  | .encodeHeader _ _ _ _ _ => true
  | .encodeFrame _ _ _ _ _ => true
  | .applyMask _ _ _ => true
  | .decodeHeader _ => true
  | .feedByte _ => true
  | .feed _ => true
  | .reserved9 => true
  | .reservedA => true
  | .reservedB => true
  | .reservedC => true
  | .reservedD => true
  | .reservedE => true
  | .reservedF => true
  | .cont _ _ _ _ => true
  | .text _ _ _ _ => true
  | .bin _ _ _ _ => true
  | .rsvdD3 _ _ _ _ => true
  | .rsvdD4 _ _ _ _ => true
  | .rsvdD5 _ _ _ _ => true
  | .rsvdD6 _ _ _ _ => true
  | .rsvdD7 _ _ _ _ => true
  | .close _ _ _ _ => true
  | .ping _ _ _ _ => true
  | .pong _ _ _ _ => true
  | .rsvdCB _ _ _ _ => true
  | .rsvdCC _ _ _ _ => true
  | .rsvdCD _ _ _ _ => true
  | .rsvdCE _ _ _ _ => true
  | .rsvdCF _ _ _ _ => true
  | .h4 _ => true
  | .h8 _ _ => true
  | .h10 _ => true
  | .h14 _ _ => true

end Sys2Proof
end

