-- ==== Sys2Proof/Decode.lean ====
section
/-!
DEFINITION. From words of the host's port to instructions and back. The bits the spec gives are those of
spec/opcode_table.json (command codes: spec/30_encoding.md R83; opcodes: R76; header formats: R71). How a command's
typed arguments are packed behind its code is the model's own, since the spec leaves it out (R83, D2;
notes/assumptions/2.md): the arguments follow the code byte in R83's order, a bit, a role, an opcode or a phase as
one byte, a u64 as eight bytes most significant first, `n` as a self-delimiting natural, a byte sequence as its
length (such a natural) and its bytes, an optional key as a presence byte and the key.
-/
namespace Sys2Proof

/-- Why the decoder rejects a word. Each is a word that no typed command of R83 has. -/
inductive DecodeError where
  /-- The word has no byte. -/
  | emptyWord
  /-- The word ends inside an argument. -/
  | truncated
  /-- Bits 7..4 of a command's code byte are not zero: the table gives a code four bits. -/
  | notACommandCode
  /-- A bit argument is neither 0 nor 1. -/
  | notABit
  /-- A role is neither 0 (CLIENT) nor 1 (SERVER) (R22). -/
  | notARole
  /-- An opcode argument is above 15. -/
  | notAnOpcode
  /-- A phase is above 3. -/
  | notAPhase
  /-- Bytes follow the last argument. -/
  | trailingBytes
deriving DecidableEq, Repr

/-- What a parser answers: a value and the bytes behind it, or the reason it rejects. -/
abbrev Parsed (α : Type) := Except DecodeError (α × Bytes)

/-! One parser and one printer for each argument type. -/

def takeByte : Bytes → Parsed Byte
  | [] => .error .truncated
  | b :: rest => .ok (b, rest)

def takeBit : Bytes → Parsed Bool
  | [] => .error .truncated
  | b :: rest => if b = 0 then .ok (false, rest) else if b = 1 then .ok (true, rest) else .error .notABit

def putBit (v : Bool) : Bytes := [if v then 1 else 0]

/-- A role's code (R22, D2): 0 = CLIENT, 1 = SERVER. -/
def Role.code : Role → Byte
  | .client => 0
  | .server => 1

def takeRole : Bytes → Parsed Role
  | [] => .error .truncated
  | b :: rest => if b = 0 then .ok (.client, rest) else if b = 1 then .ok (.server, rest) else .error .notARole

def takeOpcode : Bytes → Parsed (BitVec 4)
  | [] => .error .truncated
  | b :: rest => if b.toNat < 16 then .ok (b.setWidth 4, rest) else .error .notAnOpcode

def takePhase : Bytes → Parsed (BitVec 2)
  | [] => .error .truncated
  | b :: rest => if b.toNat < 4 then .ok (b.setWidth 2, rest) else .error .notAPhase

def takeKey : Bytes → Parsed Key
  | a :: b :: c :: d :: rest => .ok (⟨a, b, c, d⟩, rest)
  | _ => .error .truncated

/-- An optional key: a presence bit, then the key if it is 1. -/
def takeOptKey (s : Bytes) : Parsed (Option Key) :=
  match takeBit s with
  | .error e => .error e
  | .ok (false, rest) => .ok (none, rest)
  | .ok (true, rest) =>
    match takeKey rest with
    | .error e => .error e
    | .ok (k, rest) => .ok (some k, rest)

def putOptKey : Option Key → Bytes
  | none => putBit false
  | some k => putBit true ++ k.bytes

/-- Exactly `k` bytes. -/
def takeExactly : Nat → Bytes → Parsed Bytes
  | 0, s => .ok ([], s)
  | _ + 1, [] => .error .truncated
  | k + 1, b :: s =>
    match takeExactly k s with
    | .error e => .error e
    | .ok (front, rest) => .ok (b :: front, rest)

/-- A 16-bit integer, most significant byte first (R53). -/
def takeBe16 (s : Bytes) : Parsed (BitVec 16) :=
  match takeExactly 2 s with
  | .error e => .error e
  | .ok (front, rest) => .ok (BitVec.ofNat 16 (beNat front), rest)

/-- A 64-bit integer, most significant byte first (R53). -/
def takeBe64 (s : Bytes) : Parsed U64 :=
  match takeExactly 8 s with
  | .error e => .error e
  | .ok (front, rest) => .ok (BitVec.ofNat 64 (beNat front), rest)

/-- A natural number: seven bits a byte, the least significant first; bit 7 says that another byte follows. -/
def takeNat : Bytes → Parsed Nat
  | [] => .error .truncated
  | b :: rest =>
    if b.toNat < 128 then .ok (b.toNat, rest)
    else
      match takeNat rest with
      | .error e => .error e
      | .ok (m, rest) => .ok (b.toNat - 128 + 128 * m, rest)

/-- The bytes of a natural number for `takeNat`, at most `fuel + 1` of them. -/
def putNatBytes : Nat → Nat → Bytes
  | 0, n => [BitVec.ofNat 8 n]
  | fuel + 1, n =>
    if n < 128 then [BitVec.ofNat 8 n]
    else BitVec.ofNat 8 (128 + n % 128) :: putNatBytes fuel (n / 128)

def putNat (n : Nat) : Bytes := putNatBytes (Nat.log2 n) n

/-- A byte sequence: its length, then its bytes. -/
def takeBytes (s : Bytes) : Parsed Bytes :=
  match takeNat s with
  | .error e => .error e
  | .ok (n, rest) => takeExactly n rest

def putBytes (s : Bytes) : Bytes := putNat s.length ++ s

/-! The three formats. -/

/-- Format CMD: the code is bits 3..0 of the first byte (R83), whose other bits are zero. -/
def decodeCommand (code : Byte) (ops : Bytes) : Except DecodeError (Instr × Bytes) :=
  match code.toNat with
  | 0x0 => .ok (.reset, ops)
  | 0x1 => do
    let (role, ops) ← takeRole ops
    let (rsv1Allowed, ops) ← takeBit ops
    let (maxPayload, ops) ← takeBe64 ops
    let (strictMinlen, ops) ← takeBit ops
    .ok (.configure role rsv1Allowed maxPayload strictMinlen, ops)
  | 0x2 => .ok (.readStatus, ops)
  | 0x3 => do
    let (opcode, ops) ← takeOpcode ops
    let (fin, ops) ← takeBit ops
    let (rsv1, ops) ← takeBit ops
    let (key, ops) ← takeOptKey ops
    let (n, ops) ← takeNat ops
    .ok (.encodeHeader opcode fin rsv1 key n, ops)
  | 0x4 => do
    let (opcode, ops) ← takeOpcode ops
    let (fin, ops) ← takeBit ops
    let (rsv1, ops) ← takeBit ops
    let (key, ops) ← takeOptKey ops
    let (payload, ops) ← takeBytes ops
    .ok (.encodeFrame opcode fin rsv1 key payload, ops)
  | 0x5 => do
    let (data, ops) ← takeBytes ops
    let (key, ops) ← takeKey ops
    let (phase, ops) ← takePhase ops
    .ok (.applyMask data key phase, ops)
  | 0x6 => do
    let (buf, ops) ← takeBytes ops
    .ok (.decodeHeader buf, ops)
  | 0x7 => do
    let (b, ops) ← takeByte ops
    .ok (.feedByte b, ops)
  | 0x8 => do
    let (data, ops) ← takeBytes ops
    .ok (.feed data, ops)
  | 0x9 => .ok (.reserved9, ops)
  | 0xA => .ok (.reservedA, ops)
  | 0xB => .ok (.reservedB, ops)
  | 0xC => .ok (.reservedC, ops)
  | 0xD => .ok (.reservedD, ops)
  | 0xE => .ok (.reservedE, ops)
  | 0xF => .ok (.reservedF, ops)
  | _ => .error .notACommandCode

/-- Format HDR_B0: the opcode map of R76 over bits 3..0. Every byte has a row. -/
def decodeByte0 (b0 : Byte) : Instr :=
  let fin := Byte0.fin b0
  let rsv1 := Byte0.rsv1 b0
  let rsv2 := Byte0.rsv2 b0
  let rsv3 := Byte0.rsv3 b0
  match (Byte0.opcode b0).toNat with
  | 0x0 => .cont fin rsv1 rsv2 rsv3
  | 0x1 => .text fin rsv1 rsv2 rsv3
  | 0x2 => .bin fin rsv1 rsv2 rsv3
  | 0x3 => .rsvdD3 fin rsv1 rsv2 rsv3
  | 0x4 => .rsvdD4 fin rsv1 rsv2 rsv3
  | 0x5 => .rsvdD5 fin rsv1 rsv2 rsv3
  | 0x6 => .rsvdD6 fin rsv1 rsv2 rsv3
  | 0x7 => .rsvdD7 fin rsv1 rsv2 rsv3
  | 0x8 => .close fin rsv1 rsv2 rsv3
  | 0x9 => .ping fin rsv1 rsv2 rsv3
  | 0xA => .pong fin rsv1 rsv2 rsv3
  | 0xB => .rsvdCB fin rsv1 rsv2 rsv3
  | 0xC => .rsvdCC fin rsv1 rsv2 rsv3
  | 0xD => .rsvdCD fin rsv1 rsv2 rsv3
  | 0xE => .rsvdCE fin rsv1 rsv2 rsv3
  | _ => .rsvdCF fin rsv1 rsv2 rsv3

/-- Format HDR_B1 (R71, R82): byte 1 alone tells the header format, whose extended length and key follow it. -/
def decodeByte1 (b1 : Byte) (more : Bytes) : Except DecodeError (Instr × Bytes) :=
  let l := Byte1.len7 b1
  if l.toNat ≤ 125 then
    if Byte1.mask b1 then do
      let (key, more) ← takeKey more
      .ok (.h6 l key, more)
    else .ok (.h2 l, more)
  else if l.toNat = 126 then
    if Byte1.mask b1 then do
      let (len, more) ← takeBe16 more
      let (key, more) ← takeKey more
      .ok (.h8 len key, more)
    else do
      let (len, more) ← takeBe16 more
      .ok (.h4 len, more)
  else
    if Byte1.mask b1 then do
      let (len, more) ← takeBe64 more
      let (key, more) ← takeKey more
      .ok (.h14 len key, more)
    else do
      let (len, more) ← takeBe64 more
      .ok (.h10 len, more)

/-- The instruction at the front of a byte sequence of the given format, and the bytes behind it. -/
def decodeFront (f : Format) : Bytes → Parsed Instr
  | [] => .error .emptyWord
  | b :: more =>
    match f with
    | .cmd => decodeCommand b more
    | .hdrB0 => .ok (decodeByte0 b, more)
    | .hdrB1 => decodeByte1 b more

/-- The instruction a word of the port carries: the whole word, nothing behind it. -/
def decode (w : HostWord) : Except DecodeError Instr :=
  match decodeFront w.format w.bytes with
  | .error e => .error e
  | .ok (i, []) => .ok i
  | .ok (_, _ :: _) => .error .trailingBytes

/-! The encoder. -/

/-- The format of an instruction's row. -/
def Instr.format : Instr → Format
  | .reset | .configure _ _ _ _ | .readStatus | .encodeHeader _ _ _ _ _ | .encodeFrame _ _ _ _ _
  | .applyMask _ _ _ | .decodeHeader _ | .feedByte _ | .feed _ | .reserved9 | .reservedA | .reservedB
  | .reservedC | .reservedD | .reservedE | .reservedF => .cmd
  | .cont _ _ _ _ | .text _ _ _ _ | .bin _ _ _ _ | .rsvdD3 _ _ _ _ | .rsvdD4 _ _ _ _ | .rsvdD5 _ _ _ _
  | .rsvdD6 _ _ _ _ | .rsvdD7 _ _ _ _ | .close _ _ _ _ | .ping _ _ _ _ | .pong _ _ _ _ | .rsvdCB _ _ _ _
  | .rsvdCC _ _ _ _ | .rsvdCD _ _ _ _ | .rsvdCE _ _ _ _ | .rsvdCF _ _ _ _ => .hdrB0
  | .h2 _ | .h6 _ _ | .h4 _ | .h8 _ _ | .h10 _ | .h14 _ _ => .hdrB1

/-- The bytes of an instruction: for the header formats the bytes on the wire (R70, R71), for a command its code
(R83) and its packed arguments. -/
def Instr.bytes : Instr → Bytes
  | .reset => [0x00]
  | .configure role rsv1Allowed maxPayload strictMinlen =>
    0x01 :: role.code :: (putBit rsv1Allowed ++ toBe 8 maxPayload.toNat ++ putBit strictMinlen)
  | .readStatus => [0x02]
  | .encodeHeader opcode fin rsv1 key n =>
    0x03 :: opcode.setWidth 8 :: (putBit fin ++ putBit rsv1 ++ putOptKey key ++ putNat n)
  | .encodeFrame opcode fin rsv1 key payload =>
    0x04 :: opcode.setWidth 8 :: (putBit fin ++ putBit rsv1 ++ putOptKey key ++ putBytes payload)
  | .applyMask data key phase => 0x05 :: (putBytes data ++ key.bytes ++ [phase.setWidth 8])
  | .decodeHeader buf => 0x06 :: putBytes buf
  | .feedByte b => [0x07, b]
  | .feed data => 0x08 :: putBytes data
  | .reserved9 => [0x09]
  | .reservedA => [0x0A]
  | .reservedB => [0x0B]
  | .reservedC => [0x0C]
  | .reservedD => [0x0D]
  | .reservedE => [0x0E]
  | .reservedF => [0x0F]
  | .cont fin rsv1 rsv2 rsv3 => [Byte0.make fin rsv1 rsv2 rsv3 0x0]
  | .text fin rsv1 rsv2 rsv3 => [Byte0.make fin rsv1 rsv2 rsv3 0x1]
  | .bin fin rsv1 rsv2 rsv3 => [Byte0.make fin rsv1 rsv2 rsv3 0x2]
  | .rsvdD3 fin rsv1 rsv2 rsv3 => [Byte0.make fin rsv1 rsv2 rsv3 0x3]
  | .rsvdD4 fin rsv1 rsv2 rsv3 => [Byte0.make fin rsv1 rsv2 rsv3 0x4]
  | .rsvdD5 fin rsv1 rsv2 rsv3 => [Byte0.make fin rsv1 rsv2 rsv3 0x5]
  | .rsvdD6 fin rsv1 rsv2 rsv3 => [Byte0.make fin rsv1 rsv2 rsv3 0x6]
  | .rsvdD7 fin rsv1 rsv2 rsv3 => [Byte0.make fin rsv1 rsv2 rsv3 0x7]
  | .close fin rsv1 rsv2 rsv3 => [Byte0.make fin rsv1 rsv2 rsv3 0x8]
  | .ping fin rsv1 rsv2 rsv3 => [Byte0.make fin rsv1 rsv2 rsv3 0x9]
  | .pong fin rsv1 rsv2 rsv3 => [Byte0.make fin rsv1 rsv2 rsv3 0xA]
  | .rsvdCB fin rsv1 rsv2 rsv3 => [Byte0.make fin rsv1 rsv2 rsv3 0xB]
  | .rsvdCC fin rsv1 rsv2 rsv3 => [Byte0.make fin rsv1 rsv2 rsv3 0xC]
  | .rsvdCD fin rsv1 rsv2 rsv3 => [Byte0.make fin rsv1 rsv2 rsv3 0xD]
  | .rsvdCE fin rsv1 rsv2 rsv3 => [Byte0.make fin rsv1 rsv2 rsv3 0xE]
  | .rsvdCF fin rsv1 rsv2 rsv3 => [Byte0.make fin rsv1 rsv2 rsv3 0xF]
  | .h2 len7 => [Byte1.make false len7]
  | .h6 len7 key => Byte1.make true len7 :: key.bytes
  | .h4 len => Byte1.make false 126 :: toBe 2 len.toNat
  | .h8 len key => Byte1.make true 126 :: (toBe 2 len.toNat ++ key.bytes)
  | .h10 len => Byte1.make false 127 :: toBe 8 len.toNat
  | .h14 len key => Byte1.make true 127 :: (toBe 8 len.toNat ++ key.bytes)

/-- The word of an instruction. -/
def encode (i : Instr) : HostWord := { format := i.format, bytes := i.bytes }

/-! The rows of spec/opcode_table.json: "format", "match" and "mask", for the statements about the table. -/

/-- One row: the bytes whose masked value is the pattern, in words of one format. `len7AtMost125` is the note on H2
and H6: LEN7 ≤ 125 as well, "so match/mask alone is not enough". -/
structure TableRow where
  mnemonic : String
  format : Format
  pattern : Byte
  mask : Byte
  len7AtMost125 : Bool := false
deriving DecidableEq, Repr

/-- Whether a row is the row of a first byte. -/
def TableRow.selects (r : TableRow) (b : Byte) : Bool :=
  (b &&& r.mask == r.pattern) && (!r.len7AtMost125 || decide ((Byte1.len7 b).toNat ≤ 125))

/-- The 16 rows of format CMD (R83). The table's masks are 4 bits wide; bits 7..4 of the byte are zero. -/
def commandRows : List TableRow :=
  [⟨"RESET", .cmd, 0x0, 0xFF, false⟩, ⟨"CONFIGURE", .cmd, 0x1, 0xFF, false⟩, ⟨"READ_STATUS", .cmd, 0x2, 0xFF, false⟩,
   ⟨"ENCODE_HEADER", .cmd, 0x3, 0xFF, false⟩, ⟨"ENCODE_FRAME", .cmd, 0x4, 0xFF, false⟩,
   ⟨"APPLY_MASK", .cmd, 0x5, 0xFF, false⟩, ⟨"DECODE_HEADER", .cmd, 0x6, 0xFF, false⟩,
   ⟨"FEED_BYTE", .cmd, 0x7, 0xFF, false⟩, ⟨"FEED", .cmd, 0x8, 0xFF, false⟩, ⟨"RESERVED_9", .cmd, 0x9, 0xFF, false⟩,
   ⟨"RESERVED_A", .cmd, 0xA, 0xFF, false⟩, ⟨"RESERVED_B", .cmd, 0xB, 0xFF, false⟩,
   ⟨"RESERVED_C", .cmd, 0xC, 0xFF, false⟩, ⟨"RESERVED_D", .cmd, 0xD, 0xFF, false⟩,
   ⟨"RESERVED_E", .cmd, 0xE, 0xFF, false⟩, ⟨"RESERVED_F", .cmd, 0xF, 0xFF, false⟩]

/-- The 16 rows of format HDR_B0 (R76). -/
def byte0Rows : List TableRow :=
  [⟨"CONT", .hdrB0, 0x0, 0x0F, false⟩, ⟨"TEXT", .hdrB0, 0x1, 0x0F, false⟩, ⟨"BIN", .hdrB0, 0x2, 0x0F, false⟩,
   ⟨"RSVD_D3", .hdrB0, 0x3, 0x0F, false⟩, ⟨"RSVD_D4", .hdrB0, 0x4, 0x0F, false⟩,
   ⟨"RSVD_D5", .hdrB0, 0x5, 0x0F, false⟩, ⟨"RSVD_D6", .hdrB0, 0x6, 0x0F, false⟩,
   ⟨"RSVD_D7", .hdrB0, 0x7, 0x0F, false⟩, ⟨"CLOSE", .hdrB0, 0x8, 0x0F, false⟩, ⟨"PING", .hdrB0, 0x9, 0x0F, false⟩,
   ⟨"PONG", .hdrB0, 0xA, 0x0F, false⟩, ⟨"RSVD_CB", .hdrB0, 0xB, 0x0F, false⟩,
   ⟨"RSVD_CC", .hdrB0, 0xC, 0x0F, false⟩, ⟨"RSVD_CD", .hdrB0, 0xD, 0x0F, false⟩,
   ⟨"RSVD_CE", .hdrB0, 0xE, 0x0F, false⟩, ⟨"RSVD_CF", .hdrB0, 0xF, 0x0F, false⟩]

/-- The 6 rows of format HDR_B1 (R71). -/
def byte1Rows : List TableRow :=
  [⟨"H2", .hdrB1, 0x00, 0x80, true⟩, ⟨"H6", .hdrB1, 0x80, 0x80, true⟩, ⟨"H4", .hdrB1, 0x7E, 0xFF, false⟩,
   ⟨"H8", .hdrB1, 0xFE, 0xFF, false⟩, ⟨"H10", .hdrB1, 0x7F, 0xFF, false⟩, ⟨"H14", .hdrB1, 0xFF, 0xFF, false⟩]

/-- The rows of a format. -/
def tableRows : Format → List TableRow
  | .cmd => commandRows
  | .hdrB0 => byte0Rows
  | .hdrB1 => byte1Rows

/-- The mnemonic of an instruction's row, as spec/opcode_table.json spells it. -/
def Instr.mnemonic : Instr → String
  | .reset => "RESET"
  | .configure _ _ _ _ => "CONFIGURE"
  | .readStatus => "READ_STATUS"
  | .encodeHeader _ _ _ _ _ => "ENCODE_HEADER"
  | .encodeFrame _ _ _ _ _ => "ENCODE_FRAME"
  | .applyMask _ _ _ => "APPLY_MASK"
  | .decodeHeader _ => "DECODE_HEADER"
  | .feedByte _ => "FEED_BYTE"
  | .feed _ => "FEED"
  | .reserved9 => "RESERVED_9"
  | .reservedA => "RESERVED_A"
  | .reservedB => "RESERVED_B"
  | .reservedC => "RESERVED_C"
  | .reservedD => "RESERVED_D"
  | .reservedE => "RESERVED_E"
  | .reservedF => "RESERVED_F"
  | .cont _ _ _ _ => "CONT"
  | .text _ _ _ _ => "TEXT"
  | .bin _ _ _ _ => "BIN"
  | .rsvdD3 _ _ _ _ => "RSVD_D3"
  | .rsvdD4 _ _ _ _ => "RSVD_D4"
  | .rsvdD5 _ _ _ _ => "RSVD_D5"
  | .rsvdD6 _ _ _ _ => "RSVD_D6"
  | .rsvdD7 _ _ _ _ => "RSVD_D7"
  | .close _ _ _ _ => "CLOSE"
  | .ping _ _ _ _ => "PING"
  | .pong _ _ _ _ => "PONG"
  | .rsvdCB _ _ _ _ => "RSVD_CB"
  | .rsvdCC _ _ _ _ => "RSVD_CC"
  | .rsvdCD _ _ _ _ => "RSVD_CD"
  | .rsvdCE _ _ _ _ => "RSVD_CE"
  | .rsvdCF _ _ _ _ => "RSVD_CF"
  | .h2 _ => "H2"
  | .h6 _ _ => "H6"
  | .h4 _ => "H4"
  | .h8 _ _ => "H8"
  | .h10 _ => "H10"
  | .h14 _ _ => "H14"

/-! Words given as numbers, bit 0 the least significant bit of the first byte. -/

/-- The bytes of a table word of `nbits` bits, and zeros behind it for the operands the table gives no bits. -/
def tableBytes (nbits w : Nat) : Bytes :=
  (List.range ((nbits + 7) / 8)).map (fun i => BitVec.ofNat 8 (w / 256 ^ i)) ++ List.replicate 16 0

/-- The format a table word is read in. The three formats use the same 8 bits (0x00 is RESET, CONT and H2), and a
number does not say which one it means: a first byte below 16 is read as a command code, any other as byte 1 of a
frame (notes/assumptions/3.md). A word of the port names its format. -/
def tableFormat (s : Bytes) : Format :=
  match s with
  | [] => .cmd
  | b :: _ => if b.toNat < 16 then .cmd else .hdrB1

/-- The instruction the decoder reads from a table word. -/
def decodeTableWord (nbits w : Nat) : Option Instr :=
  match decodeFront (tableFormat (tableBytes nbits w)) (tableBytes nbits w) with
  | .error _ => none
  | .ok (i, _) => some i

/-- The table word as a word of the port: the encoding of the instruction it is, or its bytes where it is none. -/
def tableHostWord (nbits w : Nat) : HostWord :=
  match decodeTableWord nbits w with
  | some i => encode i
  | none => { format := tableFormat (tableBytes nbits w), bytes := tableBytes nbits w }

end Sys2Proof
end

