-- ==== Sys2Proof/Machine/State.lean ====
section
/-!
DEFINITION. What WSFC holds and what its commands answer. `Block` is the state of one instance (spec/10_state.md R20:
the configuration registers R21 to R25 and the receiver registers R26 to R36, "Nothing else is state"). `State` adds
the two fields through which a host drives the block in this model: the words it has issued and the last result.
-/
namespace Sys2Proof.Machine

/-! Registers' types. -/

/-- `rx_state` (R26). `dispatching` is transient; the spec's code 7 is never held. -/
inductive RxState where
  | readingHeader
  | readingExtendedLength16
  | readingExtendedLength64
  | readingMask
  | readingPayload
  | dispatching
  | failed
deriving DecidableEq, Repr

/-- The reason codes 1..15 of spec/60_exceptions.md R241. -/
inductive Reason where
  | rsv23Set
  | badOpcode
  | rsv1NotNegotiated
  | rsv1Misplaced
  | fragmentedControl
  | unexpectedContinuation
  | messageInProgress
  | maskRequired
  | maskForbidden
  | controlTooLong
  | length64Msb
  | nonminimalLength
  | frameTooLarge
  | messageTooLarge
  | lengthTooLarge
deriving DecidableEq, Repr

/-- The command errors 32..35 of R241. -/
inductive CmdErrorCode where
  | notConfigured
  | configLocked
  | rxFailed
  | badCommand
deriving DecidableEq, Repr

/-- `kind` of an error record (R47, R242). -/
inductive ErrorKind where
  | protocolError
  | payloadTooLarge
deriving DecidableEq, Repr

/-- `ErrorRecord` (R47). -/
structure ErrorRecord where
  kind : ErrorKind
  reason : Reason
  closeCode : BitVec 16
  offset : U64
deriving DecidableEq, Repr

/-- `rx_key` (R31): four byte registers, each written by its own `ReadingMask` step; `none` is "no value" (R39). -/
structure KeyRegs where
  k0 : Option Byte
  k1 : Option Byte
  k2 : Option Byte
  k3 : Option Byte
deriving DecidableEq, Repr

/-- The state of one WSFC instance (R20). `none` in an optional register is the spec's own state "holds no value":
R39 and R270 give it as the value after reset. -/
structure Block where
  /-- R21 `cfg_valid` -/
  cfgValid : Bool
  /-- R22 `cfg_role` -/
  cfgRole : Option Role
  /-- R23 `cfg_rsv1_allowed` -/
  cfgRsv1Allowed : Option Bool
  /-- R24 `cfg_max_payload` -/
  cfgMaxPayload : Option U64
  /-- R25 `cfg_strict_minlen` -/
  cfgStrictMinlen : Option Bool
  /-- R26 `rx_state` -/
  rxState : RxState
  /-- R27 `rx_cnt` -/
  rxCnt : U64
  /-- R28 `rx_b0` -/
  rxB0 : Option Byte
  /-- R29 `rx_b1` -/
  rxB1 : Option Byte
  /-- R30 `rx_len` -/
  rxLen : Option U64
  /-- R31 `rx_key` -/
  rxKey : KeyRegs
  /-- R32 `rx_payload` -/
  rxPayload : Bytes
  /-- R33 `rx_frag_open` -/
  rxFragOpen : Bool
  /-- R34 `rx_msg_total` -/
  rxMsgTotal : U64
  /-- R35 `rx_offset` -/
  rxOffset : U64
  /-- R36 `rx_err` -/
  rxErr : Option ErrorRecord
deriving DecidableEq, Repr

/-! What commands answer (R44 to R48). -/

/-- `Header` (R44). -/
structure Header where
  fin : Bool
  rsv1 : Bool
  rsv2 : Bool
  rsv3 : Bool
  opcode : BitVec 4
  masked : Bool
  len7 : BitVec 7
  payloadLength : U64
  maskKey : Option Key
  headerLength : Nat
deriving DecidableEq, Repr

/-- `Event` (R45). -/
inductive Event where
  | frameOut (h : Header) (payload : Bytes)
  | error (e : ErrorRecord)
deriving DecidableEq, Repr

/-- `Status` (R48). -/
structure Status where
  cfgValid : Bool
  cfgRole : Option Role
  cfgRsv1Allowed : Option Bool
  cfgMaxPayload : Option U64
  cfgStrictMinlen : Option Bool
  rxState : RxState
  rxCnt : U64
  rxFragOpen : Bool
  rxMsgTotal : U64
  rxOffset : U64
  rxErr : Option ErrorRecord
deriving DecidableEq, Repr

/-- A command's result (R46). -/
inductive Result where
  | ok
  | bytes (s : Bytes)
  | header (h : Header) (consumed : Nat)
  | needMoreData
  | protocolError (reason : Reason) (index : Nat)
  | encodeInvalid (reason : Reason)
  | fed (consumed : Nat) (events : List Event)
  | status (st : Status)
  | cmdError (code : CmdErrorCode)
deriving DecidableEq, Repr

/-- The machine: one instance, the host's issued words (R6: one command at a time, taken in issue order, R60) and
the result of the last command (R6: "It returns one result"). The last two are the model's own fields
(notes/assumptions/1.md). -/
structure State where
  block : Block
  pending : List HostWord
  result : Option Result
deriving DecidableEq, Repr

/-- The registers that can hold no value (R39). -/
inductive RegName where
  | cfgRole
  | cfgRsv1Allowed
  | cfgMaxPayload
  | cfgStrictMinlen
  | rxB0
  | rxB1
  | rxLen
  | rxKey
deriving DecidableEq, Repr

/-- Why the machine stops. No command reaches one from a state that satisfies `Block.Inv` (Safety.lean), so none is
reached in a run from reset. -/
inductive Fault where
  /-- Raised by the register reads of Ops.lean on a register that holds no value: R39, "A model that finds such a
  read has found a defect in itself and should fault"; spec/93_implementation_defined.md I13. Safe. -/
  | unwritten (r : RegName)
  /-- Raised by `maskByte` when `rx_cnt` names no byte of `rx_key`: R42 holds `rx_cnt` to 0..3 in `ReadingMask`.
  Safe. -/
  | keyIndexOutOfRange
  /-- Raised by `feedByteStep` when `rx_state` is `Dispatching` or `Failed`, for which R171 has no case: R26 and
  R42 say that no command ends in the first, and R171 refuses the second before. Safe. -/
  | notAReadingState
deriving DecidableEq, Repr

/-- Why there is no step. -/
inductive Refusal where
  /-- Raised by `exec` for an instruction that has no meaning yet. Safe. -/
  | notModelled (mnemonic : String)
  /-- Raised by `fetch` when the host has issued no word: R6, "The block never steps without a command". Safe. -/
  | noCommand
  /-- Raised by `fetch` when the word at the front of the port is the word of no instruction: the spec's commands
  are typed (R43, R83) and have no such words. Safe. -/
  | undecodable (e : DecodeError)
deriving DecidableEq, Repr

/-- The registers after power-on and RESET (spec/70_reset_and_hazards.md R270, spec/43_block_control.md R220). -/
def Block.reset : Block where
  cfgValid := false
  cfgRole := none
  cfgRsv1Allowed := none
  cfgMaxPayload := none
  cfgStrictMinlen := none
  rxState := .readingHeader
  rxCnt := 0
  rxB0 := none
  rxB1 := none
  rxLen := none
  rxKey := ⟨none, none, none, none⟩
  rxPayload := []
  rxFragOpen := false
  rxMsgTotal := 0
  rxOffset := 0
  rxErr := none

/-- The machine right after power-on (R270, R271: it "waits for the host's first command"). No word is issued and no
result is given: DESIGN CHOICE for the two fields of the model (notes/assumptions/1.md). -/
def State.reset : State where
  block := Block.reset
  pending := []
  result := none

end Sys2Proof.Machine
end

