-- ==== Sys2Proof/Machine/Codes.lean ====
section
/-!
DEFINITION. The numbers the spec gives to names: receiver states (spec/10_state.md R26), reason codes, kinds and
close codes (spec/60_exceptions.md R241, R242), and the length limits (spec/30_encoding.md R74, R80).
-/
namespace Sys2Proof.Machine

/-- The 3-bit code of a receiver state (R26). -/
def RxState.code : RxState → BitVec 3
  | .readingHeader => 0
  | .readingExtendedLength16 => 1
  | .readingExtendedLength64 => 2
  | .readingMask => 3
  | .readingPayload => 4
  | .dispatching => 5
  | .failed => 6

/-- Reason codes 1..15 (R241). -/
def Reason.code : Reason → Nat
  | .rsv23Set => 1
  | .badOpcode => 2
  | .rsv1NotNegotiated => 3
  | .rsv1Misplaced => 4
  | .fragmentedControl => 5
  | .unexpectedContinuation => 6
  | .messageInProgress => 7
  | .maskRequired => 8
  | .maskForbidden => 9
  | .controlTooLong => 10
  | .length64Msb => 11
  | .nonminimalLength => 12
  | .frameTooLarge => 13
  | .messageTooLarge => 14
  | .lengthTooLarge => 15

/-- Command-error codes 32..35 (R241). -/
def CmdErrorCode.code : CmdErrorCode → Nat
  | .notConfigured => 32
  | .configLocked => 33
  | .rxFailed => 34
  | .badCommand => 35

/-- `PayloadTooLarge if r ∈ {FRAME_TOO_LARGE, MESSAGE_TOO_LARGE} else ProtocolError` (R246). -/
def Reason.kind (r : Reason) : ErrorKind :=
  if r = .frameTooLarge ∨ r = .messageTooLarge then .payloadTooLarge else .protocolError

/-- The close code of a kind (R242): 1002 ProtocolError, 1009 MessageTooBig. -/
def ErrorKind.closeCode : ErrorKind → BitVec 16
  | .protocolError => 1002
  | .payloadTooLarge => 1009

/-- The longest control-frame payload, also the longest length LEN7 itself holds (R74, R80). -/
abbrev maxShortLength : Nat := 125

/-- The longest length of the 16-bit field (R74). -/
abbrev maxLength16 : Nat := 65535

/-- Lengths from 2^63 on are refused (R80). -/
abbrev lengthLimit : Nat := 2 ^ 63

end Sys2Proof.Machine
end

