-- ==== Sys2Proof/Machine/Ops.lean ====
section
/-!
DEFINITION. The operations the meanings share: reads of registers that may hold no value (R39), the receiver's error
entry `fail` (spec/60_exceptions.md R246) and the way out of it, RESET's writes (R220, R247: the block has no other
return), giving a result (R6), and taking the next word the host issued (R6, R60).
-/
namespace Sys2Proof.Machine

/-! Reading registers. -/

/-- A register's value, or the fault of R39 where it holds none. -/
def readReg {α : Type} (name : RegName) : Option α → Except Fault α
  | some v => .ok v
  | none => .error (.unwritten name)

def Block.readRole (b : Block) : Except Fault Role := readReg .cfgRole b.cfgRole
def Block.readRsv1Allowed (b : Block) : Except Fault Bool := readReg .cfgRsv1Allowed b.cfgRsv1Allowed
def Block.readMaxPayload (b : Block) : Except Fault U64 := readReg .cfgMaxPayload b.cfgMaxPayload
def Block.readStrictMinlen (b : Block) : Except Fault Bool := readReg .cfgStrictMinlen b.cfgStrictMinlen
def Block.readB0 (b : Block) : Except Fault Byte := readReg .rxB0 b.rxB0
def Block.readB1 (b : Block) : Except Fault Byte := readReg .rxB1 b.rxB1
def Block.readLen (b : Block) : Except Fault U64 := readReg .rxLen b.rxLen

/-- `rx_key[i mod 4]`. -/
def KeyRegs.byteAt (k : KeyRegs) (i : Nat) : Option Byte :=
  match i % 4 with
  | 0 => k.k0
  | 1 => k.k1
  | 2 => k.k2
  | _ => k.k3

/-- `rx_key` whole, once all four bytes are written. -/
def KeyRegs.whole (k : KeyRegs) : Option Key :=
  match k.k0, k.k1, k.k2, k.k3 with
  | some a, some b, some c, some d => some ⟨a, b, c, d⟩
  | _, _, _, _ => none

def Block.readKeyByte (b : Block) (i : Nat) : Except Fault Byte := readReg .rxKey (b.rxKey.byteAt i)
def Block.readKey (b : Block) : Except Fault Key := readReg .rxKey b.rxKey.whole

/-- `rx_key[i] <- x` (R179). -/
def KeyRegs.write (k : KeyRegs) (i : Nat) (x : Byte) : Except Fault KeyRegs :=
  match i with
  | 0 => .ok { k with k0 := some x }
  | 1 => .ok { k with k1 := some x }
  | 2 => .ok { k with k2 := some x }
  | 3 => .ok { k with k3 := some x }
  | _ => .error .keyIndexOutOfRange

/-! The error entry and its end. -/

/-- The record `fail(r)` makes at stream offset `offset` (R47, R246). -/
def errorRecord (r : Reason) (offset : U64) : ErrorRecord where
  kind := r.kind
  reason := r
  closeCode := r.kind.closeCode
  offset := offset

/-- `fail(r)` (R246): the one way into `Failed`. It writes `rx_err` and `rx_state` and emits `Error`; the offset is
the failing byte's, since `rx_offset` is advanced after it (R186). -/
def fail (r : Reason) (b : Block) : Block × List Event :=
  ({ b with rxErr := some (errorRecord r b.rxOffset), rxState := .failed }, [.error (errorRecord r b.rxOffset)])

/-- RESET's writes (R220): every register of R21 to R36. The one way out of `Failed` (R247). -/
def resetRegisters (_ : Block) : Block := Block.reset

/-! Completing a command. -/

/-- A command that has ended: its registers, its result (R6, R12: observed together). -/
abbrev Done := Except Fault (Block × Result)

/-- The outcome of a command in the machine's state. -/
def State.complete (s : State) : Done → Host.Outcome State Fault Refusal
  | .ok (b, r) => .next { s with block := b, result := some r }
  | .error f => .fault f

/-! Taking the next word. -/

/-- The instruction of the first word the host issued, and the state with that word taken (R6, R60). -/
def fetch (s : State) : Except Refusal (Instr × State) :=
  match s.pending with
  | [] => .error .noCommand
  | w :: rest =>
    match decode w with
    | .error e => .error (.undecodable e)
    | .ok i => .ok (i, { s with pending := rest })

/-- The host issues a word that is taken before those already issued. -/
def State.issue (s : State) (w : HostWord) : State := { s with pending := w :: s.pending }

end Sys2Proof.Machine
end

