-- ==== Sys2Proof/Machine/Control.lean ====
section
/-!
DEFINITION. Block control (spec/43_block_control.md): RESET, CONFIGURE, READ_STATUS and the reserved command codes.
-/
namespace Sys2Proof.Machine

/-- R220 RESET. Accepted in every state. -/
def execReset (s : State) : Host.Outcome State Fault Refusal :=
  s.complete (.ok (resetRegisters s.block, .ok))

/-- CONFIGURE's writes (R221): the configuration registers and `cfg_valid`, no receiver register. -/
def attachConfig (b : Block) (c : Config) : Block :=
  { b with
    cfgValid := true
    cfgRole := some c.role
    cfgRsv1Allowed := some c.rsv1Allowed
    cfgMaxPayload := some c.maxPayload
    cfgStrictMinlen := some c.strictMinlen }

/-- R221 CONFIGURE; R224: locked between an accepted CONFIGURE and the next RESET. -/
def execConfigure (role : Role) (rsv1Allowed : Bool) (maxPayload : U64) (strictMinlen : Bool) (s : State) :
    Host.Outcome State Fault Refusal :=
  if s.block.cfgValid then s.complete (.ok (s.block, .cmdError .configLocked))
  else s.complete (.ok (attachConfig s.block ⟨role, rsv1Allowed, maxPayload, strictMinlen⟩, .ok))

/-- The record READ_STATUS returns (R48): the configuration is `None` while `cfg_valid = 0`. -/
def statusOf (b : Block) : Status where
  cfgValid := b.cfgValid
  cfgRole := if b.cfgValid then b.cfgRole else none
  cfgRsv1Allowed := if b.cfgValid then b.cfgRsv1Allowed else none
  cfgMaxPayload := if b.cfgValid then b.cfgMaxPayload else none
  cfgStrictMinlen := if b.cfgValid then b.cfgStrictMinlen else none
  rxState := b.rxState
  rxCnt := b.rxCnt
  rxFragOpen := b.rxFragOpen
  rxMsgTotal := b.rxMsgTotal
  rxOffset := b.rxOffset
  rxErr := b.rxErr

/-- R222 READ_STATUS. Accepted in every state, no side effect. -/
def execReadStatus (s : State) : Host.Outcome State Fault Refusal :=
  s.complete (.ok (s.block, .status (statusOf s.block)))

/-- R225: a reserved command code returns `CmdError(BAD_COMMAND)` and changes nothing, in every state. -/
def badCommand (s : State) : Host.Outcome State Fault Refusal :=
  s.complete (.ok (s.block, .cmdError .badCommand))

/-- R225, code 0x9. -/
def execReserved9 (s : State) : Host.Outcome State Fault Refusal := badCommand s
/-- R225, code 0xA. -/
def execReservedA (s : State) : Host.Outcome State Fault Refusal := badCommand s
/-- R225, code 0xB. -/
def execReservedB (s : State) : Host.Outcome State Fault Refusal := badCommand s
/-- R225, code 0xC. -/
def execReservedC (s : State) : Host.Outcome State Fault Refusal := badCommand s
/-- R225, code 0xD. -/
def execReservedD (s : State) : Host.Outcome State Fault Refusal := badCommand s
/-- R225, code 0xE. -/
def execReservedE (s : State) : Host.Outcome State Fault Refusal := badCommand s
/-- R225, code 0xF. -/
def execReservedF (s : State) : Host.Outcome State Fault Refusal := badCommand s

end Sys2Proof.Machine
end

