-- ==== Sys2Proof/Machine/Masking.lean ====
section
/-!
DEFINITION. The payload masker (spec/41_masking.md).
-/
namespace Sys2Proof.Machine

/-- `mask_byte(b, key, i) = b ^ key[i mod 4]` (spec/00_scope.md R11). -/
def maskByteAt (x : Byte) (k : Key) (i : Nat) : Byte := x ^^^ k.byteAt i

/-- `mask(data, key, phase)` of R150: byte `i` of the data meets `key[(phase + i) mod 4]`. -/
def mask : Bytes → Key → Nat → Bytes
  | [], _, _ => []
  | x :: data, k, phase => maskByteAt x k phase :: mask data k (phase + 1)

/-- R150 APPLY_MASK. Reads no configuration and writes no register. -/
def execApplyMask (data : Bytes) (key : Key) (phase : BitVec 2) (s : State) : Host.Outcome State Fault Refusal :=
  s.complete (.ok (s.block, .bytes (mask data key phase.toNat)))

end Sys2Proof.Machine
end

