-- ==== Sys2Proof/Machine/Codec.lean ====
section
/-!
DEFINITION. The frame codec (spec/40_frame_codec.md): the header checks R103 to R105, ENCODE_HEADER (R100),
ENCODE_FRAME (R101) and DECODE_HEADER (R102). A check answers `none` for the spec's OK.
-/
namespace Sys2Proof.Machine

/-! The checks shared by DECODE_HEADER and the receiver. -/

/-- HdrCheck0(b0) (R103), in the spec's order. -/
def hdrCheck0 (rsv1Allowed : Bool) (b0 : Byte) : Option Reason :=
  if Byte0.rsv2 b0 || Byte0.rsv3 b0 then some .rsv23Set
  else if !Opcode.recognized (Byte0.opcode b0) then some .badOpcode
  else if Byte0.rsv1 b0 && !rsv1Allowed then some .rsv1NotNegotiated
  else if Byte0.rsv1 b0 && !Opcode.initiating (Byte0.opcode b0) then some .rsv1Misplaced
  else if Opcode.isControl (Byte0.opcode b0) && !Byte0.fin b0 then some .fragmentedControl
  else none

/-- HdrCheck1(b0, b1) (R104), in the spec's order. -/
def hdrCheck1 (role : Role) (b0 b1 : Byte) : Option Reason :=
  if role == .server && !Byte1.mask b1 then some .maskRequired
  else if role == .client && Byte1.mask b1 then some .maskForbidden
  else if Opcode.isControl (Byte0.opcode b0) && decide (maxShortLength < (Byte1.len7 b1).toNat) then
    some .controlTooLong
  else none

/-- LenCheck(e, plen) (R105), in the spec's order. -/
def lenCheck (strictMinlen : Bool) (e plen : Nat) : Option Reason :=
  if e = 8 ∧ lengthLimit ≤ plen then some .length64Msb
  else if strictMinlen = true ∧ ((e = 2 ∧ plen < 126) ∨ (e = 8 ∧ plen < 65536)) then some .nonminimalLength
  else none

/-- The `Header` record of R44, as DECODE_HEADER (R102) and Dispatch (R182) both build it. -/
def makeHeader (b0 b1 : Byte) (payloadLength : U64) (maskKey : Option Key) : Header where
  fin := Byte0.fin b0
  rsv1 := Byte0.rsv1 b0
  rsv2 := false
  rsv3 := false
  opcode := Byte0.opcode b0
  masked := Byte1.mask b1
  len7 := Byte1.len7 b1
  payloadLength := payloadLength
  maskKey := maskKey
  headerLength := headerLength b1

/-! The encoder. -/

/-- ENCODE_HEADER's checks after the gate (R100), in the order of spec/60_exceptions.md R245. -/
def encodeCheck (role : Role) (rsv1Allowed : Bool) (opcode : BitVec 4) (fin rsv1 : Bool) (key : Option Key)
    (n : Nat) : Option Reason :=
  if !Opcode.recognized opcode then some .badOpcode
  else if rsv1 && !rsv1Allowed then some .rsv1NotNegotiated
  else if rsv1 && !Opcode.initiating opcode then some .rsv1Misplaced
  else if Opcode.isControl opcode && !fin then some .fragmentedControl
  else if role == .client && key.isNone then some .maskRequired
  else if role == .server && key.isSome then some .maskForbidden
  else if Opcode.isControl opcode && decide (maxShortLength < n) then some .controlTooLong
  else if lengthLimit ≤ n then some .lengthTooLarge
  else none

/-- Byte 1 and the extended length for a payload of `n` bytes (R74, R100): the shortest field. -/
def lengthField (masked : Bool) (n : Nat) : Bytes :=
  if n ≤ maxShortLength then [Byte1.make masked (BitVec.ofNat 7 n)]
  else if n ≤ maxLength16 then Byte1.make masked 126 :: toBe 2 n
  else Byte1.make masked 127 :: toBe 8 n

/-- The key bytes of a header, none without a key. -/
def keyField (key : Option Key) : Bytes :=
  match key with
  | none => []
  | some k => k.bytes

/-- The header bytes of R100: `[b0] ++ L ++ K`, with RSV2 = RSV3 = 0. -/
def headerBytes (opcode : BitVec 4) (fin rsv1 : Bool) (key : Option Key) (n : Nat) : Bytes :=
  Byte0.make fin rsv1 false false opcode :: (lengthField key.isSome n ++ keyField key)

/-- ENCODE_HEADER (R100) as a function of the registers it reads. -/
def encodeHeaderResult (b : Block) (opcode : BitVec 4) (fin rsv1 : Bool) (key : Option Key) (n : Nat) :
    Except Fault Result :=
  if !b.cfgValid then .ok (.cmdError .notConfigured)
  else do
    let role ← b.readRole
    let rsv1Allowed ← b.readRsv1Allowed
    match encodeCheck role rsv1Allowed opcode fin rsv1 key n with
    | some r => .ok (.encodeInvalid r)
    | none => .ok (.bytes (headerBytes opcode fin rsv1 key n))

/-- The payload as it goes on the wire (R101): masked from phase 0 when there is a key. -/
def frameBody (key : Option Key) (payload : Bytes) : Bytes :=
  match key with
  | none => payload
  | some k => mask payload k 0

/-- ENCODE_FRAME (R101): the header's result, with the body behind it where it is bytes. -/
def encodeFrameResult (b : Block) (opcode : BitVec 4) (fin rsv1 : Bool) (key : Option Key) (payload : Bytes) :
    Except Fault Result := do
  match ← encodeHeaderResult b opcode fin rsv1 key payload.length with
  | .bytes h => .ok (.bytes (h ++ frameBody key payload))
  | r => .ok r

/-- A command that writes no register: its result, the registers as they were. -/
def State.answer (s : State) (r : Except Fault Result) : Host.Outcome State Fault Refusal :=
  s.complete (r.map fun r => (s.block, r))

/-- R100 ENCODE_HEADER. -/
def execEncodeHeader (opcode : BitVec 4) (fin rsv1 : Bool) (key : Option Key) (n : Nat) (s : State) :
    Host.Outcome State Fault Refusal :=
  s.answer (encodeHeaderResult s.block opcode fin rsv1 key n)

/-- R101 ENCODE_FRAME. -/
def execEncodeFrame (opcode : BitVec 4) (fin rsv1 : Bool) (key : Option Key) (payload : Bytes) (s : State) :
    Host.Outcome State Fault Refusal :=
  s.answer (encodeFrameResult s.block opcode fin rsv1 key payload)

/-! The stateless decoder. -/

/-- The payload length of R73, from byte 1 and the bytes behind it (at least as many as the format has). -/
def assembledLength (b1 : Byte) (more : Bytes) : Nat :=
  if extBytes (Byte1.len7 b1) = 0 then (Byte1.len7 b1).toNat
  else beNat (more.take (extBytes (Byte1.len7 b1)))

/-- DECODE_HEADER behind byte 1 (R102): the length, its check, the key. `more` is the buffer from index 2 on. -/
def decodeAfterByte1 (strictMinlen : Bool) (b0 b1 : Byte) (more : Bytes) : Result :=
  if more.length < extBytes (Byte1.len7 b1) then .needMoreData
  else
    match (if 0 < extBytes (Byte1.len7 b1)
        then lenCheck strictMinlen (extBytes (Byte1.len7 b1)) (assembledLength b1 more) else none) with
    | some r => .protocolError r (1 + extBytes (Byte1.len7 b1))
    | none =>
      if more.length < extBytes (Byte1.len7 b1) + keyBytes b1 then .needMoreData
      else
        .header
          (makeHeader b0 b1 (BitVec.ofNat 64 (assembledLength b1 more))
            (if Byte1.mask b1 then Key.ofBytes (more.drop (extBytes (Byte1.len7 b1))) else none))
          (headerLength b1)

/-- DECODE_HEADER behind the gate (R102): byte 0, byte 1, then the rest. -/
def decodeHeaderWith (role : Role) (rsv1Allowed strictMinlen : Bool) (buf : Bytes) : Result :=
  match buf with
  | [] => .needMoreData
  | b0 :: rest =>
    match hdrCheck0 rsv1Allowed b0 with
    | some r => .protocolError r 0
    | none =>
      match rest with
      | [] => .needMoreData
      | b1 :: more =>
        match hdrCheck1 role b0 b1 with
        | some r => .protocolError r 1
        | none => decodeAfterByte1 strictMinlen b0 b1 more

/-- DECODE_HEADER (R102) as a function of the registers it reads; `cfg_max_payload` is not one of them. -/
def decodeHeaderResult (b : Block) (buf : Bytes) : Except Fault Result :=
  if !b.cfgValid then .ok (.cmdError .notConfigured)
  else do
    let role ← b.readRole
    let rsv1Allowed ← b.readRsv1Allowed
    let strictMinlen ← b.readStrictMinlen
    .ok (decodeHeaderWith role rsv1Allowed strictMinlen buf)

/-- R102 DECODE_HEADER. -/
def execDecodeHeader (buf : Bytes) (s : State) : Host.Outcome State Fault Refusal :=
  s.answer (decodeHeaderResult s.block buf)

end Sys2Proof.Machine
end

