-- ==== Sys2Proof/Machine/Receiver.lean ====
section
/-!
DEFINITION. The incremental receiver (spec/42_receiver.md): the helpers of FEED_BYTE, FEED_BYTE (R171) and FEED
(R187). A helper takes the registers before its byte and answers those after it with the events it emits.
-/
namespace Sys2Proof.Machine

/-- What a helper of FEED_BYTE answers. -/
abbrev RxStep := Except Fault (Block × List Event)

/-! Dispatch. -/

/-- FragUpdate() (R183): FIN = 1 closes the message, FIN = 0 opens or extends it; control frames change neither
register. -/
def fragUpdate (b0 : Byte) (len : U64) (b : Block) : Block :=
  if Opcode.isControl (Byte0.opcode b0) then b
  else if Byte0.fin b0 then { b with rxFragOpen := false, rxMsgTotal := 0 }
  else { b with rxFragOpen := true, rxMsgTotal := b.rxMsgTotal + len }

/-- Dispatch() (R182): `Dispatching` is entered, the frame is emitted, and `ReadingHeader` is entered again, in one
step. -/
def dispatch (b : Block) : RxStep := do
  let b := { b with rxState := .dispatching }
  let b0 ← b.readB0
  let b1 ← b.readB1
  let len ← b.readLen
  let key ← if Byte1.mask b1 then (b.readKey).map some else .ok none
  .ok ({ fragUpdate b0 len b with rxState := .readingHeader, rxCnt := 0, rxPayload := [] },
    [.frameOut (makeHeader b0 b1 len key) b.rxPayload])

/-- EnterPayload() (R180). -/
def enterPayload (b : Block) : RxStep := do
  let len ← b.readLen
  let b := { b with rxCnt := 0, rxPayload := [] }
  if len = 0 then dispatch b
  else .ok ({ b with rxState := .readingPayload }, [])

/-- AfterLength() (R178). -/
def afterLength (b : Block) : RxStep := do
  let b1 ← b.readB1
  if Byte1.mask b1 then .ok ({ b with rxState := .readingMask, rxCnt := 0 }, [])
  else enterPayload b

/-! Checks. -/

/-- SeqCheck(b0) (R173). -/
def seqCheck (fragOpen : Bool) (b0 : Byte) : Option Reason :=
  if Byte0.opcode b0 == Opcode.cont && !fragOpen then some .unexpectedContinuation
  else if Opcode.initiating (Byte0.opcode b0) && fragOpen then some .messageInProgress
  else none

/-- SizeCheck() (R175) on the values it reads; the sum is on integers. -/
def sizeCheck (maxPayload : U64) (b0 : Byte) (msgTotal len : U64) : Option Reason :=
  if maxPayload.toNat < len.toNat then some .frameTooLarge
  else if !Opcode.isControl (Byte0.opcode b0) && decide (maxPayload.toNat < msgTotal.toNat + len.toNat) then
    some .messageTooLarge
  else none

/-- SizeCheck() on the registers. -/
def Block.checkSize (b : Block) : Except Fault (Option Reason) := do
  let maxPayload ← b.readMaxPayload
  let b0 ← b.readB0
  let len ← b.readLen
  .ok (sizeCheck maxPayload b0 b.rxMsgTotal len)

/-! One helper for each kind of byte. -/

/-- Byte0(b) (R172). -/
def byte0 (x : Byte) (b : Block) : RxStep := do
  let rsv1Allowed ← b.readRsv1Allowed
  let b := { b with rxB0 := some x }
  match (hdrCheck0 rsv1Allowed x).or (seqCheck b.rxFragOpen x) with
  | some r => .ok (fail r b)
  | none => .ok ({ b with rxCnt := 1 }, [])

/-- Byte1(b) (R174). -/
def byte1 (x : Byte) (b : Block) : RxStep := do
  let b := { b with rxB1 := some x }
  let role ← b.readRole
  let b0 ← b.readB0
  match hdrCheck1 role b0 x with
  | some r => .ok (fail r b)
  | none =>
    if (Byte1.len7 x).toNat ≤ maxShortLength then
      let b := { b with rxLen := some ((Byte1.len7 x).setWidth 64) }
      match ← b.checkSize with
      | some r => .ok (fail r b)
      | none => afterLength b
    else
      .ok ({ b with
        rxState := if (Byte1.len7 x).toNat = 126 then .readingExtendedLength16 else .readingExtendedLength64
        rxCnt := 0
        rxLen := some 0 }, [])

/-- ExtLen(b, e) (R176 for e = 2, R177 for e = 8). -/
def extLen (e : Nat) (x : Byte) (b : Block) : RxStep := do
  let len ← b.readLen
  let b := { b with rxLen := some (shiftInByte len x), rxCnt := b.rxCnt + 1 }
  if b.rxCnt.toNat = e then
    let strictMinlen ← b.readStrictMinlen
    match lenCheck strictMinlen e (shiftInByte len x).toNat with
    | some r => .ok (fail r b)
    | none =>
      match ← b.checkSize with
      | some r => .ok (fail r b)
      | none => afterLength b
  else .ok (b, [])

/-- MaskByte(b) (R179). -/
def maskByte (x : Byte) (b : Block) : RxStep := do
  let key ← b.rxKey.write b.rxCnt.toNat x
  let b := { b with rxKey := key, rxCnt := b.rxCnt + 1 }
  if b.rxCnt = 4 then enterPayload b else .ok (b, [])

/-- The byte PayloadByte stores (R181): demasked with `rx_key[rx_cnt mod 4]` when MASK = 1. -/
def demasked (x b1 : Byte) (b : Block) : Except Fault Byte :=
  if Byte1.mask b1 then (b.readKeyByte b.rxCnt.toNat).map fun k => x ^^^ k else .ok x

/-- PayloadByte(b) (R181). -/
def payloadByte (x : Byte) (b : Block) : RxStep := do
  let b1 ← b.readB1
  let d ← demasked x b1 b
  let len ← b.readLen
  let b := { b with rxPayload := b.rxPayload ++ [d], rxCnt := b.rxCnt + 1 }
  if b.rxCnt = len then dispatch b else .ok (b, [])

/-! The commands. -/

/-- The `case rx_state of` of R171. -/
def receiveByte (x : Byte) (b : Block) : RxStep :=
  match b.rxState with
  | .readingHeader => if b.rxCnt = 0 then byte0 x b else byte1 x b
  | .readingExtendedLength16 => extLen 2 x b
  | .readingExtendedLength64 => extLen 8 x b
  | .readingMask => maskByte x b
  | .readingPayload => payloadByte x b
  | .dispatching => .error .notAReadingState
  | .failed => .error .notAReadingState

/-- FEED_BYTE behind its two refusals (R171): the transition, then `rx_offset` advances modulo 2^64 (R186). -/
def feedByteStep (x : Byte) (b : Block) : RxStep := do
  let (b, events) ← receiveByte x b
  .ok ({ b with rxOffset := b.rxOffset + 1 }, events)

/-- The loop of FEED (R187): bytes in order, stopping behind the byte that makes the receiver fail. It answers the
registers, the number of bytes consumed and the events in stream order. -/
def feedLoop : Bytes → Block → Except Fault (Block × Nat × List Event)
  | [], b => .ok (b, 0, [])
  | x :: data, b => do
    let (b, events) ← feedByteStep x b
    if b.rxState = .failed then .ok (b, 1, events)
    else
      let (b, n, more) ← feedLoop data b
      .ok (b, n + 1, events ++ more)

/-- FEED_BYTE (R171) with its refusals (R185, R192). -/
def feedByteCommand (x : Byte) (b : Block) : Done :=
  if !b.cfgValid then .ok (b, .cmdError .notConfigured)
  else if b.rxState = .failed then .ok (b, .cmdError .rxFailed)
  else (feedByteStep x b).map fun (b, events) => (b, .fed 1 events)

/-- FEED (R187) with its refusals (R185, R192). -/
def feedCommand (data : Bytes) (b : Block) : Done :=
  if !b.cfgValid then .ok (b, .cmdError .notConfigured)
  else if b.rxState = .failed then .ok (b, .cmdError .rxFailed)
  else (feedLoop data b).map fun (b, n, events) => (b, .fed n events)

/-- R171 FEED_BYTE. -/
def execFeedByte (x : Byte) (s : State) : Host.Outcome State Fault Refusal := s.complete (feedByteCommand x s.block)

/-- R187 FEED. -/
def execFeed (data : Bytes) (s : State) : Host.Outcome State Fault Refusal := s.complete (feedCommand data s.block)

end Sys2Proof.Machine
end

