-- ==== Sys2Proof/Machine/Frames.lean ====
section
/-!
DEFINITION. The rows of spec/opcode_table.json that are header bytes on the wire: byte 0 of a frame (format HDR_B0, the
opcode map of spec/30_encoding.md R76) and byte 1 with the header bytes behind it (format HDR_B1, the header formats of
R71). The block acts on them where it receives them: executing such a row is the receiver consuming those bytes of its
stream (notes/assumptions/4.md). Where the receiver awaits them, the bytes get the checks and the transitions their
rules give (spec/40_frame_codec.md R106 to R113; spec/42_receiver.md R172 to R179); elsewhere in a frame they are
whatever bytes the receiver awaits there (R170).
-/
namespace Sys2Proof.Machine

/-- Byte 0 of a frame at the receiver: one byte of the stream, by FEED_BYTE's transition (R171, R172). -/
def receiveFrameByte0 (fin rsv1 rsv2 rsv3 : Bool) (opcode : BitVec 4) (s : State) :
    Host.Outcome State Fault Refusal :=
  s.complete (feedByteCommand (Byte0.make fin rsv1 rsv2 rsv3 opcode) s.block)

/-- Byte 1 of a frame and the header bytes behind it at the receiver: a chunk of the stream, by FEED's loop (R187),
which stops behind the byte a check fails on. -/
def receiveHeaderRest (b1 : Byte) (lengthAndKey : Bytes) (s : State) : Host.Outcome State Fault Refusal :=
  s.complete (feedCommand (b1 :: lengthAndKey) s.block)

/-- R106 CONT (opcode 0x0): byte 0 of a Continuation frame. -/
def execCont (fin rsv1 rsv2 rsv3 : Bool) (s : State) : Host.Outcome State Fault Refusal :=
  receiveFrameByte0 fin rsv1 rsv2 rsv3 Opcode.cont s

/-- R107 TEXT (opcode 0x1): byte 0 of a Text frame. -/
def execText (fin rsv1 rsv2 rsv3 : Bool) (s : State) : Host.Outcome State Fault Refusal :=
  receiveFrameByte0 fin rsv1 rsv2 rsv3 Opcode.text s

/-- R108 BIN (opcode 0x2): byte 0 of a Binary frame. -/
def execBin (fin rsv1 rsv2 rsv3 : Bool) (s : State) : Host.Outcome State Fault Refusal :=
  receiveFrameByte0 fin rsv1 rsv2 rsv3 Opcode.bin s

/-- R109 RSVD_D3 (opcode 0x3): byte 0 of a reserved opcode of the data range. -/
def execRsvdD3 (fin rsv1 rsv2 rsv3 : Bool) (s : State) : Host.Outcome State Fault Refusal :=
  receiveFrameByte0 fin rsv1 rsv2 rsv3 0x3 s

/-- R109 RSVD_D4 (opcode 0x4): byte 0 of a reserved opcode of the data range. -/
def execRsvdD4 (fin rsv1 rsv2 rsv3 : Bool) (s : State) : Host.Outcome State Fault Refusal :=
  receiveFrameByte0 fin rsv1 rsv2 rsv3 0x4 s

/-- R109 RSVD_D5 (opcode 0x5): byte 0 of a reserved opcode of the data range. -/
def execRsvdD5 (fin rsv1 rsv2 rsv3 : Bool) (s : State) : Host.Outcome State Fault Refusal :=
  receiveFrameByte0 fin rsv1 rsv2 rsv3 0x5 s

/-- R109 RSVD_D6 (opcode 0x6): byte 0 of a reserved opcode of the data range. -/
def execRsvdD6 (fin rsv1 rsv2 rsv3 : Bool) (s : State) : Host.Outcome State Fault Refusal :=
  receiveFrameByte0 fin rsv1 rsv2 rsv3 0x6 s

/-- R109 RSVD_D7 (opcode 0x7): byte 0 of a reserved opcode of the data range. -/
def execRsvdD7 (fin rsv1 rsv2 rsv3 : Bool) (s : State) : Host.Outcome State Fault Refusal :=
  receiveFrameByte0 fin rsv1 rsv2 rsv3 0x7 s

/-- R110 CLOSE (opcode 0x8): byte 0 of a Close frame. -/
def execClose (fin rsv1 rsv2 rsv3 : Bool) (s : State) : Host.Outcome State Fault Refusal :=
  receiveFrameByte0 fin rsv1 rsv2 rsv3 Opcode.close s

/-- R111 PING (opcode 0x9): byte 0 of a Ping frame. -/
def execPing (fin rsv1 rsv2 rsv3 : Bool) (s : State) : Host.Outcome State Fault Refusal :=
  receiveFrameByte0 fin rsv1 rsv2 rsv3 Opcode.ping s

/-- R112 PONG (opcode 0xA): byte 0 of a Pong frame. -/
def execPong (fin rsv1 rsv2 rsv3 : Bool) (s : State) : Host.Outcome State Fault Refusal :=
  receiveFrameByte0 fin rsv1 rsv2 rsv3 Opcode.pong s

/-- R113 RSVD_CB (opcode 0xB): byte 0 of a reserved opcode of the control range. -/
def execRsvdCB (fin rsv1 rsv2 rsv3 : Bool) (s : State) : Host.Outcome State Fault Refusal :=
  receiveFrameByte0 fin rsv1 rsv2 rsv3 0xB s

/-- R113 RSVD_CC (opcode 0xC): byte 0 of a reserved opcode of the control range. -/
def execRsvdCC (fin rsv1 rsv2 rsv3 : Bool) (s : State) : Host.Outcome State Fault Refusal :=
  receiveFrameByte0 fin rsv1 rsv2 rsv3 0xC s

/-- R113 RSVD_CD (opcode 0xD): byte 0 of a reserved opcode of the control range. -/
def execRsvdCD (fin rsv1 rsv2 rsv3 : Bool) (s : State) : Host.Outcome State Fault Refusal :=
  receiveFrameByte0 fin rsv1 rsv2 rsv3 0xD s

/-- R113 RSVD_CE (opcode 0xE): byte 0 of a reserved opcode of the control range. -/
def execRsvdCE (fin rsv1 rsv2 rsv3 : Bool) (s : State) : Host.Outcome State Fault Refusal :=
  receiveFrameByte0 fin rsv1 rsv2 rsv3 0xE s

/-- R113 RSVD_CF (opcode 0xF): byte 0 of a reserved opcode of the control range. -/
def execRsvdCF (fin rsv1 rsv2 rsv3 : Bool) (s : State) : Host.Outcome State Fault Refusal :=
  receiveFrameByte0 fin rsv1 rsv2 rsv3 0xF s

/-- R71 H2: LEN7 0..125, no key. -/
def execH2 (len7 : BitVec 7) (s : State) : Host.Outcome State Fault Refusal :=
  receiveHeaderRest (Byte1.make false len7) [] s

/-- R71 H6: LEN7 0..125, the key at bytes 2..5. -/
def execH6 (len7 : BitVec 7) (key : Key) (s : State) : Host.Outcome State Fault Refusal :=
  receiveHeaderRest (Byte1.make true len7) key.bytes s

/-- R71 H4: the 16-bit length at bytes 2..3, no key. -/
def execH4 (len : BitVec 16) (s : State) : Host.Outcome State Fault Refusal :=
  receiveHeaderRest (Byte1.make false 126) (toBe 2 len.toNat) s

/-- R71 H8: the 16-bit length at bytes 2..3, the key at bytes 4..7. -/
def execH8 (len : BitVec 16) (key : Key) (s : State) : Host.Outcome State Fault Refusal :=
  receiveHeaderRest (Byte1.make true 126) (toBe 2 len.toNat ++ key.bytes) s

/-- R71 H10: the 64-bit length at bytes 2..9, no key. -/
def execH10 (len : U64) (s : State) : Host.Outcome State Fault Refusal :=
  receiveHeaderRest (Byte1.make false 127) (toBe 8 len.toNat) s

/-- R71 H14: the 64-bit length at bytes 2..9, the key at bytes 10..13. -/
def execH14 (len : U64) (key : Key) (s : State) : Host.Outcome State Fault Refusal :=
  receiveHeaderRest (Byte1.make true 127) (toBe 8 len.toNat ++ key.bytes) s

end Sys2Proof.Machine
end

