-- ==== Sys2Proof/Machine/Dispatch.lean ====
section
/-!
DEFINITION. The dispatch from instructions to their meanings: one arm for each constructor of `Instr`.
-/
namespace Sys2Proof.Machine

def exec (i : Instr) (s : State) : Host.Outcome State Fault Refusal :=
  match i with
  | .reset => Sys2Proof.Machine.execReset s
  | .configure role rsv1Allowed maxPayload strictMinlen => Sys2Proof.Machine.execConfigure role rsv1Allowed maxPayload strictMinlen s
  | .readStatus => Sys2Proof.Machine.execReadStatus s
  | .encodeHeader opcode fin rsv1 key n => Sys2Proof.Machine.execEncodeHeader opcode fin rsv1 key n s
  | .encodeFrame opcode fin rsv1 key payload => Sys2Proof.Machine.execEncodeFrame opcode fin rsv1 key payload s
  | .applyMask data key phase => Sys2Proof.Machine.execApplyMask data key phase s
  | .decodeHeader buf => Sys2Proof.Machine.execDecodeHeader buf s
  | .feedByte b => Sys2Proof.Machine.execFeedByte b s
  | .feed data => Sys2Proof.Machine.execFeed data s
  | .reserved9 => Sys2Proof.Machine.execReserved9 s
  | .reservedA => Sys2Proof.Machine.execReservedA s
  | .reservedB => Sys2Proof.Machine.execReservedB s
  | .reservedC => Sys2Proof.Machine.execReservedC s
  | .reservedD => Sys2Proof.Machine.execReservedD s
  | .reservedE => Sys2Proof.Machine.execReservedE s
  | .reservedF => Sys2Proof.Machine.execReservedF s
  | .cont fin rsv1 rsv2 rsv3 => Sys2Proof.Machine.execCont fin rsv1 rsv2 rsv3 s
  | .text fin rsv1 rsv2 rsv3 => Sys2Proof.Machine.execText fin rsv1 rsv2 rsv3 s
  | .bin fin rsv1 rsv2 rsv3 => Sys2Proof.Machine.execBin fin rsv1 rsv2 rsv3 s
  | .rsvdD3 fin rsv1 rsv2 rsv3 => Sys2Proof.Machine.execRsvdD3 fin rsv1 rsv2 rsv3 s
  | .rsvdD4 fin rsv1 rsv2 rsv3 => Sys2Proof.Machine.execRsvdD4 fin rsv1 rsv2 rsv3 s
  | .rsvdD5 fin rsv1 rsv2 rsv3 => Sys2Proof.Machine.execRsvdD5 fin rsv1 rsv2 rsv3 s
  | .rsvdD6 fin rsv1 rsv2 rsv3 => Sys2Proof.Machine.execRsvdD6 fin rsv1 rsv2 rsv3 s
  | .rsvdD7 fin rsv1 rsv2 rsv3 => Sys2Proof.Machine.execRsvdD7 fin rsv1 rsv2 rsv3 s
  | .close fin rsv1 rsv2 rsv3 => Sys2Proof.Machine.execClose fin rsv1 rsv2 rsv3 s
  | .ping fin rsv1 rsv2 rsv3 => Sys2Proof.Machine.execPing fin rsv1 rsv2 rsv3 s
  | .pong fin rsv1 rsv2 rsv3 => Sys2Proof.Machine.execPong fin rsv1 rsv2 rsv3 s
  | .rsvdCB fin rsv1 rsv2 rsv3 => Sys2Proof.Machine.execRsvdCB fin rsv1 rsv2 rsv3 s
  | .rsvdCC fin rsv1 rsv2 rsv3 => Sys2Proof.Machine.execRsvdCC fin rsv1 rsv2 rsv3 s
  | .rsvdCD fin rsv1 rsv2 rsv3 => Sys2Proof.Machine.execRsvdCD fin rsv1 rsv2 rsv3 s
  | .rsvdCE fin rsv1 rsv2 rsv3 => Sys2Proof.Machine.execRsvdCE fin rsv1 rsv2 rsv3 s
  | .rsvdCF fin rsv1 rsv2 rsv3 => Sys2Proof.Machine.execRsvdCF fin rsv1 rsv2 rsv3 s
  | .h2 len7 => Sys2Proof.Machine.execH2 len7 s
  | .h6 len7 key => Sys2Proof.Machine.execH6 len7 key s
  | .h4 len => Sys2Proof.Machine.execH4 len s
  | .h8 len key => Sys2Proof.Machine.execH8 len key s
  | .h10 len => Sys2Proof.Machine.execH10 len s
  | .h14 len key => Sys2Proof.Machine.execH14 len key s

end Sys2Proof.Machine
end

