-- ==== Sys2Proof/Machine/Step.lean ====
section
/-!
DEFINITION. One step: the next word the host issued is taken, decoded and executed (spec/00_scope.md R6, R12: each
command is one atomic transition).
-/
namespace Sys2Proof.Machine

/-- One command of the host. There is no step without one (R6). -/
def step (s : State) : Host.Outcome State Fault Refusal :=
  match fetch s with
  | .error r => .refused r
  | .ok (i, s) => exec i s

/-- The state with a table word issued in front of all others, so that the next step runs it. -/
def State.withFetchWord (s : State) (nbits w : Nat) : State := s.issue (tableHostWord nbits w)

end Sys2Proof.Machine
end

