-- ==== Sys2Proof/Machine/Notation.lean ====
section
/-!
DEFINITION. The one pseudo-command of the command notation (spec/30_encoding.md R85): `FEED FRAME`.
-/
namespace Sys2Proof.Machine

/-- CLIENT for SERVER and SERVER for CLIENT. -/
def oppositeRole : Role → Role
  | .client => .server
  | .server => .client

/-- A peer instance (R85): the configuration in force with the opposite role, its receiver fresh. -/
def Block.peer (b : Block) : Block :=
  { Block.reset with
    cfgValid := b.cfgValid
    cfgRole := b.cfgRole.map oppositeRole
    cfgRsv1Allowed := b.cfgRsv1Allowed
    cfgMaxPayload := b.cfgMaxPayload
    cfgStrictMinlen := b.cfgStrictMinlen }

/-- `FEED FRAME op fin=F rsv1=R key=K payload=P` (R85): the FEED of the bytes that ENCODE_FRAME returns on a peer
instance; no command where ENCODE_FRAME returns no bytes. -/
def feedFrame (b : Block) (opcode : BitVec 4) (fin rsv1 : Bool) (key : Option Key) (payload : Bytes) : Option Instr :=
  match encodeFrameResult b.peer opcode fin rsv1 key payload with
  | .ok (.bytes f) => some (.feed f)
  | _ => none

end Sys2Proof.Machine
end

