-- ==== Sys2Proof/Machine/Flags.lean ====
section
/-!
DEFINITION. The header flags of the current frame: views of the latched header bytes (spec/10_state.md R37: "The
block has no condition-code register"). A view has a value only after its byte is written.
-/
namespace Sys2Proof.Machine

def Block.finFlag (b : Block) : Option Bool := b.rxB0.map Byte0.fin
def Block.rsv1Flag (b : Block) : Option Bool := b.rxB0.map Byte0.rsv1
def Block.rsv2Flag (b : Block) : Option Bool := b.rxB0.map Byte0.rsv2
def Block.rsv3Flag (b : Block) : Option Bool := b.rxB0.map Byte0.rsv3
def Block.opcodeFlag (b : Block) : Option (BitVec 4) := b.rxB0.map Byte0.opcode
def Block.maskFlag (b : Block) : Option Bool := b.rxB1.map Byte1.mask
def Block.len7Flag (b : Block) : Option (BitVec 7) := b.rxB1.map Byte1.len7

/-- Frame boundary (spec/00_scope.md glossary): `rx_state = ReadingHeader ∧ rx_cnt = 0`. -/
def Block.atFrameBoundary (b : Block) : Bool := b.rxState == .readingHeader && b.rxCnt == 0

/-- The point where byte 1 of a frame is awaited (R170): `rx_state = ReadingHeader ∧ rx_cnt = 1`. -/
def Block.atByte1 (b : Block) : Bool := b.rxState == .readingHeader && b.rxCnt == 1

end Sys2Proof.Machine
end

