-- ==== Sys2Proof/Safety.lean ====
section
/-!
DEFINITION. The terms claims are stated in: a configured instance, the receiver's invariant (spec/10_state.md R42 and
what it rests on), the clean end of a receive run (spec/42_receiver.md R192).
-/
namespace Sys2Proof.Machine

/-- `cfg_valid = 1`, with the configuration registers holding `c` (R21 to R25, R221). -/
def Block.ConfiguredAs (b : Block) (c : Config) : Prop :=
  b.cfgValid = true ∧ b.cfgRole = some c.role ∧ b.cfgRsv1Allowed = some c.rsv1Allowed
    ∧ b.cfgMaxPayload = some c.maxPayload ∧ b.cfgStrictMinlen = some c.strictMinlen

/-- Byte 0 of the current frame is latched and passed the byte-0 checks (R42, R172). -/
def Block.Byte0Accepted (b : Block) (c : Config) (x : Byte) : Prop :=
  b.rxB0 = some x ∧ hdrCheck0 c.rsv1Allowed x = none ∧ seqCheck b.rxFragOpen x = none

/-- Byte 1 of the current frame is latched and passed HdrCheck1 (R174). -/
def Block.Byte1Accepted (b : Block) (c : Config) (x y : Byte) : Prop :=
  b.rxB1 = some y ∧ hdrCheck1 c.role x y = none

/-- The length of the current frame is complete and passed LenCheck and SizeCheck (R174 to R177). -/
def Block.LengthAccepted (b : Block) (c : Config) (x y : Byte) (l : U64) : Prop :=
  b.rxLen = some l
    ∧ (extBytes (Byte1.len7 y) = 0 → l.toNat = (Byte1.len7 y).toNat)
    ∧ (0 < extBytes (Byte1.len7 y) →
        l.toNat < 256 ^ extBytes (Byte1.len7 y)
          ∧ lenCheck c.strictMinlen (extBytes (Byte1.len7 y)) l.toNat = none)
    ∧ sizeCheck c.maxPayload x b.rxMsgTotal l = none

/-- An extended length of `e` bytes is being read, `rx_cnt` of them so far (R42). -/
def Block.LengthPartial (b : Block) (c : Config) (e : Nat) : Prop :=
  ∃ x y l, b.Byte0Accepted c x ∧ b.Byte1Accepted c x y ∧ extBytes (Byte1.len7 y) = e
    ∧ b.rxLen = some l ∧ b.rxCnt.toNat < e ∧ l.toNat < 256 ^ b.rxCnt.toNat

/-- What holds in each receiver state between commands (R42), under the configuration `c`. -/
def Block.PhaseInv (b : Block) (c : Config) : Prop :=
  match b.rxState with
  | .readingHeader => b.rxPayload = [] ∧ (b.rxCnt = 0 ∨ (b.rxCnt = 1 ∧ ∃ x, b.Byte0Accepted c x))
  | .readingExtendedLength16 => b.rxPayload = [] ∧ b.LengthPartial c 2
  | .readingExtendedLength64 => b.rxPayload = [] ∧ b.LengthPartial c 8
  | .readingMask =>
    b.rxPayload = [] ∧ ∃ x y l, b.Byte0Accepted c x ∧ b.Byte1Accepted c x y ∧ b.LengthAccepted c x y l
      ∧ Byte1.mask y = true ∧ b.rxCnt.toNat < 4 ∧ ∀ i < b.rxCnt.toNat, (b.rxKey.byteAt i).isSome = true
  | .readingPayload =>
    ∃ x y l, b.Byte0Accepted c x ∧ b.Byte1Accepted c x y ∧ b.LengthAccepted c x y l
      ∧ b.rxCnt.toNat < l.toNat ∧ b.rxPayload.length = b.rxCnt.toNat
      ∧ (Byte1.mask y = true → ∃ k, b.rxKey.whole = some k)
  | .dispatching => False
  | .failed => b.rxPayload = []

/-- The error registers (R36, R42, R242): a record is held exactly in `Failed`, and it is one `fail` makes. -/
def Block.ErrorInv (b : Block) : Prop :=
  (b.rxErr = none ↔ b.rxState ≠ .failed)
    ∧ ∀ e, b.rxErr = some e → e.reason ≠ .lengthTooLarge ∧ e = errorRecord e.reason e.offset

/-- The message registers (R34, R42). -/
def Block.MessageInv (b : Block) (c : Config) : Prop :=
  (b.rxFragOpen = false → b.rxMsgTotal = 0) ∧ b.rxMsgTotal.toNat ≤ c.maxPayload.toNat

/-- The receiver's invariant under the configuration `c`. -/
def Block.ReceiverInv (b : Block) (c : Config) : Prop :=
  b.PhaseInv c ∧ b.ErrorInv ∧ b.MessageInv c

/-- The invariant of an instance: it is as RESET leaves it (no byte can be fed before CONFIGURE, R221, R223), or it is
configured and the receiver's invariant holds. -/
def Block.Inv (b : Block) : Prop :=
  b = Block.reset ∨ ∃ c, b.ConfiguredAs c ∧ b.ReceiverInv c

/-- The invariant of the machine. -/
def State.Inv (s : State) : Prop := s.block.Inv

/-- "Clean end of a receive run" (R192): no error, at a frame boundary, no message open. It does not say that the
peer has finished sending. -/
def Block.CleanEnd (b : Block) : Bool :=
  b.cfgValid && b.rxErr.isNone && b.atFrameBoundary && !b.rxFragOpen

/-- The receiver registers (R26 to R36) of two instances are the same. -/
def Block.SameReceiver (a b : Block) : Prop :=
  a.rxState = b.rxState ∧ a.rxCnt = b.rxCnt ∧ a.rxB0 = b.rxB0 ∧ a.rxB1 = b.rxB1 ∧ a.rxLen = b.rxLen
    ∧ a.rxKey = b.rxKey ∧ a.rxPayload = b.rxPayload ∧ a.rxFragOpen = b.rxFragOpen
    ∧ a.rxMsgTotal = b.rxMsgTotal ∧ a.rxOffset = b.rxOffset ∧ a.rxErr = b.rxErr

/-- The configuration registers (R21 to R25) of two instances are the same. -/
def Block.SameConfig (a b : Block) : Prop :=
  a.cfgValid = b.cfgValid ∧ a.cfgRole = b.cfgRole ∧ a.cfgRsv1Allowed = b.cfgRsv1Allowed
    ∧ a.cfgMaxPayload = b.cfgMaxPayload ∧ a.cfgStrictMinlen = b.cfgStrictMinlen

end Sys2Proof.Machine
end

