-- ==== Sys2Proof/Certificates/Slice0/Obligations.lean ====
section
/-!
DEFINITION. The statements about WSFC. The first part writes rules of the spec out a second time in the spec's own
arithmetic (bits as quotients, lists by index), so that a statement compares the model with another reading of its
rule. The second part is the statements, each with the rule it formalises.
-/
namespace Sys2Proof.Spec

open Sys2Proof.Machine

/-! Bits and fields by arithmetic (spec/00_scope.md R8, spec/20_memory.md R54). -/

/-- `v[i]`. -/
def bitOf (v : Byte) (i : Nat) : Bool := v.toNat / 2 ^ i % 2 == 1

/-- `byte0[3:0]`. -/
def opcodeOf (b0 : Byte) : Nat := b0.toNat % 16

/-- `byte1[6:0]`. -/
def len7Of (b1 : Byte) : Nat := b1.toNat % 128

/-- The opcodes of the six frame types (R76). -/
def frameTypes : List Nat := [0x0, 0x1, 0x2, 0x8, 0x9, 0xA]

/-- `is_control(op) = (op[3] = 1)` (R77). -/
def isControl (op : Nat) : Bool := op / 8 % 2 == 1

/-- `e(l)` of R72. -/
def extOf (l : Nat) : Nat := if l ≤ 125 then 0 else if l = 126 then 2 else 8

/-- `key[i mod 4]`. -/
def keyAt (k : Key) (i : Nat) : Byte := [k.k0, k.k1, k.k2, k.k3].getD (i % 4) 0

/-! The checks, R103 to R105, R173, R175. -/

def check0 (allowed : Bool) (b0 : Byte) : Option Reason :=
  if bitOf b0 5 = true ∨ bitOf b0 4 = true then some .rsv23Set
  else if opcodeOf b0 ∉ frameTypes then some .badOpcode
  else if bitOf b0 6 = true ∧ allowed = false then some .rsv1NotNegotiated
  else if bitOf b0 6 = true ∧ opcodeOf b0 ∉ [0x1, 0x2] then some .rsv1Misplaced
  else if isControl (opcodeOf b0) = true ∧ bitOf b0 7 = false then some .fragmentedControl
  else none

def checkSeq (fragOpen : Bool) (b0 : Byte) : Option Reason :=
  if opcodeOf b0 = 0x0 ∧ fragOpen = false then some .unexpectedContinuation
  else if opcodeOf b0 ∈ [0x1, 0x2] ∧ fragOpen = true then some .messageInProgress
  else none

def check1 (role : Role) (b0 b1 : Byte) : Option Reason :=
  if role = .server ∧ bitOf b1 7 = false then some .maskRequired
  else if role = .client ∧ bitOf b1 7 = true then some .maskForbidden
  else if isControl (opcodeOf b0) = true ∧ 125 < len7Of b1 then some .controlTooLong
  else none

def checkLen (strict : Bool) (e plen : Nat) : Option Reason :=
  if e = 8 ∧ 2 ^ 63 ≤ plen then some .length64Msb
  else if strict = true ∧ ((e = 2 ∧ plen < 126) ∨ (e = 8 ∧ plen < 65536)) then some .nonminimalLength
  else none

def checkSize (maxPayload : U64) (b0 : Byte) (msgTotal len : Nat) : Option Reason :=
  if maxPayload.toNat < len then some .frameTooLarge
  else if isControl (opcodeOf b0) = false ∧ maxPayload.toNat < msgTotal + len then some .messageTooLarge
  else none

/-! ENCODE_HEADER, R100. -/

/-- The checks behind the gate, in the order of R245. -/
def encodeCheck (c : Config) (op : Nat) (fin rsv1 : Bool) (key : Option Key) (n : Nat) : Option Reason :=
  if op ∉ frameTypes then some .badOpcode
  else if rsv1 = true ∧ c.rsv1Allowed = false then some .rsv1NotNegotiated
  else if rsv1 = true ∧ op ∉ [0x1, 0x2] then some .rsv1Misplaced
  else if isControl op = true ∧ fin = false then some .fragmentedControl
  else if c.role = .client ∧ key = none then some .maskRequired
  else if c.role = .server ∧ key ≠ none then some .maskForbidden
  else if isControl op = true ∧ 125 < n then some .controlTooLong
  else if 2 ^ 63 ≤ n then some .lengthTooLarge
  else none

/-- `[b0] ++ L ++ K`. -/
def headerOf (op : Nat) (fin rsv1 : Bool) (key : Option Key) (n : Nat) : Bytes :=
  let m := if key = none then 0 else 1
  let b0 : Byte := BitVec.ofNat 8 (fin.toNat * 2 ^ 7 + rsv1.toNat * 2 ^ 6 + op)
  let length : Bytes :=
    if n ≤ 125 then [BitVec.ofNat 8 (m * 2 ^ 7 + n)]
    else if n ≤ 65535 then
      BitVec.ofNat 8 (m * 2 ^ 7 + 126) :: [BitVec.ofNat 8 (n / 256), BitVec.ofNat 8 n]
    else
      BitVec.ofNat 8 (m * 2 ^ 7 + 127)
        :: (List.range 8).map fun i => BitVec.ofNat 8 (n / 2 ^ (8 * (7 - i)))
  let keyPart : Bytes := match key with
    | none => []
    | some k => [k.k0, k.k1, k.k2, k.k3]
  [b0] ++ length ++ keyPart

/-- The result of R100 behind the gate. -/
def encodeHeader (c : Config) (op : Nat) (fin rsv1 : Bool) (key : Option Key) (n : Nat) : Result :=
  match encodeCheck c op fin rsv1 key n with
  | some r => .encodeInvalid r
  | none => .bytes (headerOf op fin rsv1 key n)

/-- The header length of a payload of `n` bytes (R71, R74). -/
def headerLengthFor (key : Option Key) (n : Nat) : Nat :=
  (if n ≤ 125 then 2 else if n ≤ 65535 then 4 else 10) + (if key = none then 0 else 4)

/-- `mask(data, key, phase)` of R150, by index. -/
def maskOf (data : Bytes) (k : Key) (phase : Nat) : Bytes :=
  data.mapIdx fun i x => x ^^^ keyAt k (phase + i)

/-! DECODE_HEADER, R102. -/

/-- The payload length of R73 from the bytes of a buffer. -/
def lengthAt (buf : Bytes) (e : Nat) : Nat :=
  if e = 0 then len7Of (buf.getD 1 0)
  else if e = 2 then (buf.getD 2 0).toNat * 2 ^ 8 + (buf.getD 3 0).toNat
  else (buf.getD 2 0).toNat * 2 ^ 56 + (buf.getD 3 0).toNat * 2 ^ 48 + (buf.getD 4 0).toNat * 2 ^ 40
    + (buf.getD 5 0).toNat * 2 ^ 32 + (buf.getD 6 0).toNat * 2 ^ 24 + (buf.getD 7 0).toNat * 2 ^ 16
    + (buf.getD 8 0).toNat * 2 ^ 8 + (buf.getD 9 0).toNat

/-- The header of R44 with its fields by arithmetic. -/
def headerRecord (b0 b1 : Byte) (plen : Nat) (key : Option Key) : Header where
  fin := bitOf b0 7
  rsv1 := bitOf b0 6
  rsv2 := false
  rsv3 := false
  opcode := BitVec.ofNat 4 (opcodeOf b0)
  masked := bitOf b1 7
  len7 := BitVec.ofNat 7 (len7Of b1)
  payloadLength := BitVec.ofNat 64 plen
  maskKey := key
  headerLength := 2 + extOf (len7Of b1) + 4 * (bitOf b1 7).toNat

def decodeHeader (c : Config) (buf : Bytes) : Result :=
  if buf.length < 1 then .needMoreData
  else match check0 c.rsv1Allowed (buf.getD 0 0) with
  | some r => .protocolError r 0
  | none =>
    if buf.length < 2 then .needMoreData
    else match check1 c.role (buf.getD 0 0) (buf.getD 1 0) with
    | some r => .protocolError r 1
    | none =>
      let e := extOf (len7Of (buf.getD 1 0))
      let k := 4 * (bitOf (buf.getD 1 0) 7).toNat
      if buf.length < 2 + e then .needMoreData
      else match (if 0 < e then checkLen c.strictMinlen e (lengthAt buf e) else none) with
      | some r => .protocolError r (1 + e)
      | none =>
        if buf.length < 2 + e + k then .needMoreData
        else
          .header
            (headerRecord (buf.getD 0 0) (buf.getD 1 0) (lengthAt buf e)
              (if k = 4 then
                some ⟨buf.getD (2 + e) 0, buf.getD (3 + e) 0, buf.getD (4 + e) 0, buf.getD (5 + e) 0⟩ else none))
            (2 + e + k)

/-! The receiver's helpers: registers before to registers and events after, R178, R180, R182, R183, R246. -/

/-- `fail(r)` (R246), the numbers of R241 and R242 written out. -/
def failed (r : Reason) (b : Block) : Block × List Event :=
  let record : ErrorRecord :=
    { kind := if r.code = 13 ∨ r.code = 14 then .payloadTooLarge else .protocolError
      reason := r
      closeCode := if r.code = 13 ∨ r.code = 14 then 1009 else 1002
      offset := b.rxOffset }
  ({ b with rxErr := some record, rxState := .failed }, [.error record])

/-- Dispatch() and FragUpdate() (R182, R183) for a frame with the given header bytes, length, key and payload. -/
def dispatched (x y : Byte) (len : U64) (key : Option Key) (payload : Bytes) (b : Block) : Block × List Event :=
  ({ b with
      rxState := .readingHeader
      rxCnt := 0
      rxPayload := []
      rxFragOpen := if isControl (opcodeOf x) = true then b.rxFragOpen else !bitOf x 7
      rxMsgTotal :=
        if isControl (opcodeOf x) = true then b.rxMsgTotal else if bitOf x 7 = true then 0 else b.rxMsgTotal + len },
    [.frameOut (headerRecord x y len.toNat key) payload])

/-- EnterPayload() (R180). -/
def enterPayload (x y : Byte) (len : U64) (key : Option Key) (b : Block) : Block × List Event :=
  if len = 0 then dispatched x y len key [] b
  else ({ b with rxState := .readingPayload, rxCnt := 0, rxPayload := [] }, [])

/-- `rx_key` behind a header whose key is `key` (R179): a header without one leaves it. -/
def latchedKey : Option Key → KeyRegs → KeyRegs
  | none, before => before
  | some k, _ => ⟨some k.k0, some k.k1, some k.k2, some k.k3⟩

/-- AfterLength() (R178). -/
def afterLength (x y : Byte) (len : U64) (b : Block) : Block × List Event :=
  if bitOf y 7 = true then ({ b with rxState := .readingMask, rxCnt := 0 }, [])
  else enterPayload x y len none b

/-- A FEED_BYTE that took its byte (R171, R186): the helper's registers with `rx_offset` advanced by 1 modulo 2^64,
and its events. -/
def byteTaken (s : State) (p : Block × List Event) : State :=
  { s with
    block := { p.1 with rxOffset := BitVec.ofNat 64 (s.block.rxOffset.toNat + 1) }
    result := some (.fed 1 p.2) }

/-! Header formats, R71: byte 1, the payload length and the key of a row. -/

def headerRow : Instr → Option (Byte × Nat × Option Key)
  | .h2 len7 => some (BitVec.ofNat 8 len7.toNat, len7.toNat, none)
  | .h6 len7 key => some (BitVec.ofNat 8 (128 + len7.toNat), len7.toNat, some key)
  | .h4 len => some (126, len.toNat, none)
  | .h8 len key => some (254, len.toNat, some key)
  | .h10 len => some (127, len.toNat, none)
  | .h14 len key => some (255, len.toNat, some key)
  | _ => none

/-- The rows of format HDR_B0 with their opcode (R76) and flags. -/
def frameRow : Instr → Option (Nat × Bool × Bool × Bool × Bool)
  | .cont f a b c => some (0x0, f, a, b, c)
  | .text f a b c => some (0x1, f, a, b, c)
  | .bin f a b c => some (0x2, f, a, b, c)
  | .rsvdD3 f a b c => some (0x3, f, a, b, c)
  | .rsvdD4 f a b c => some (0x4, f, a, b, c)
  | .rsvdD5 f a b c => some (0x5, f, a, b, c)
  | .rsvdD6 f a b c => some (0x6, f, a, b, c)
  | .rsvdD7 f a b c => some (0x7, f, a, b, c)
  | .close f a b c => some (0x8, f, a, b, c)
  | .ping f a b c => some (0x9, f, a, b, c)
  | .pong f a b c => some (0xA, f, a, b, c)
  | .rsvdCB f a b c => some (0xB, f, a, b, c)
  | .rsvdCC f a b c => some (0xC, f, a, b, c)
  | .rsvdCD f a b c => some (0xD, f, a, b, c)
  | .rsvdCE f a b c => some (0xE, f, a, b, c)
  | .rsvdCF f a b c => some (0xF, f, a, b, c)
  | _ => none

/-- Byte 0 with an opcode and flags, by arithmetic (R54). -/
def byte0Of (op : Nat) (fin rsv1 rsv2 rsv3 : Bool) : Byte :=
  BitVec.ofNat 8 (fin.toNat * 128 + rsv1.toNat * 64 + rsv2.toNat * 32 + rsv3.toNat * 16 + op)

/-- The receiver awaits byte 1 of a frame whose byte 0 is `x` (R170). -/
def AwaitsByte1 (b : Block) (x : Byte) : Prop := b.rxState = .readingHeader ∧ b.rxCnt = 1 ∧ b.rxB0 = some x

/-- The frame boundary of the spec's glossary. -/
def AtBoundary (b : Block) : Prop := b.rxState = .readingHeader ∧ b.rxCnt = 0

/-- The rows of the table of R170 behind a complete length. -/
def AfterLengthRow (y : Byte) (len : U64) (b' : Block) : Prop :=
  (bitOf y 7 = true ∧ b'.rxState = .readingMask ∧ b'.rxCnt = 0)
    ∨ (bitOf y 7 = false ∧ len ≠ 0 ∧ b'.rxState = .readingPayload ∧ b'.rxCnt = 0)
    ∨ (bitOf y 7 = false ∧ len = 0 ∧ b'.rxState = .readingHeader ∧ b'.rxCnt = 0)

/-- "A check fails" of R170: the checks the byte `x` decides in the registers `b` (R172 to R177). A byte of a mask key
or of a payload decides none (R244). -/
def CheckFails (c : Config) (x : Byte) (b : Block) : Prop :=
  match b.rxState with
  | .readingHeader =>
    (b.rxCnt = 0 ∧ (check0 c.rsv1Allowed x ≠ none ∨ checkSeq b.rxFragOpen x ≠ none))
    ∨ (b.rxCnt = 1 ∧ ∃ y, b.rxB0 = some y
        ∧ (check1 c.role y x ≠ none
          ∨ (len7Of x ≤ 125 ∧ checkSize c.maxPayload y b.rxMsgTotal.toNat (len7Of x) ≠ none)))
  | .readingExtendedLength16 =>
    b.rxCnt.toNat + 1 = 2 ∧ ∃ y l, b.rxB0 = some y ∧ b.rxLen = some l
      ∧ (checkLen c.strictMinlen 2 (l.toNat * 256 + x.toNat) ≠ none
        ∨ checkSize c.maxPayload y b.rxMsgTotal.toNat (l.toNat * 256 + x.toNat) ≠ none)
  | .readingExtendedLength64 =>
    b.rxCnt.toNat + 1 = 8 ∧ ∃ y l, b.rxB0 = some y ∧ b.rxLen = some l
      ∧ (checkLen c.strictMinlen 8 (l.toNat * 256 + x.toNat) ≠ none
        ∨ checkSize c.maxPayload y b.rxMsgTotal.toNat (l.toNat * 256 + x.toNat) ≠ none)
  | .readingMask => False
  | .readingPayload => False
  | .dispatching => False
  | .failed => False

/-- The rows of R170 whose checks pass: from `b` by the byte `x` to `b'`. -/
def PassingRow (x : Byte) (b b' : Block) : Prop :=
  match b.rxState with
  | .readingHeader =>
    (b.rxCnt = 0 ∧ b'.rxState = .readingHeader ∧ b'.rxCnt = 1)
    ∨ (b.rxCnt = 1 ∧ len7Of x ≤ 125 ∧ ∃ l, b'.rxLen = some l ∧ l.toNat = len7Of x ∧ AfterLengthRow x l b')
    ∨ (b.rxCnt = 1 ∧ len7Of x = 126 ∧ b'.rxState = .readingExtendedLength16 ∧ b'.rxCnt = 0)
    ∨ (b.rxCnt = 1 ∧ len7Of x = 127 ∧ b'.rxState = .readingExtendedLength64 ∧ b'.rxCnt = 0)
  | .readingExtendedLength16 =>
    (b.rxCnt.toNat + 1 < 2 ∧ b'.rxState = .readingExtendedLength16 ∧ b'.rxCnt = b.rxCnt + 1)
    ∨ (b.rxCnt.toNat + 1 = 2 ∧ ∃ y l, b.rxB1 = some y ∧ b'.rxLen = some l ∧ AfterLengthRow y l b')
  | .readingExtendedLength64 =>
    (b.rxCnt.toNat + 1 < 8 ∧ b'.rxState = .readingExtendedLength64 ∧ b'.rxCnt = b.rxCnt + 1)
    ∨ (b.rxCnt.toNat + 1 = 8 ∧ ∃ y l, b.rxB1 = some y ∧ b'.rxLen = some l ∧ AfterLengthRow y l b')
  | .readingMask =>
    (b.rxCnt.toNat + 1 < 4 ∧ b'.rxState = .readingMask ∧ b'.rxCnt = b.rxCnt + 1)
    ∨ (b.rxCnt.toNat + 1 = 4 ∧ ∃ l, b.rxLen = some l
        ∧ ((l ≠ 0 ∧ b'.rxState = .readingPayload ∧ b'.rxCnt = 0)
          ∨ (l = 0 ∧ b'.rxState = .readingHeader ∧ b'.rxCnt = 0)))
  | .readingPayload =>
    ∃ l, b.rxLen = some l
      ∧ ((b.rxCnt.toNat + 1 < l.toNat ∧ b'.rxState = .readingPayload ∧ b'.rxCnt = b.rxCnt + 1)
        ∨ (b.rxCnt.toNat + 1 = l.toNat ∧ b'.rxState = .readingHeader ∧ b'.rxCnt = 0))
  | .dispatching => False
  | .failed => False

/-- The transition table of R170 for a byte that is consumed: `Failed` exactly where a check fails. -/
def TransitionRow (c : Config) (x : Byte) (b b' : Block) : Prop :=
  (CheckFails c x b ∧ b'.rxState = .failed) ∨ (¬ CheckFails c x b ∧ PassingRow x b b')

/-- The table of R42, row by row, with the three sentences below it. `passed` is "it passed the byte-0 checks". -/
def ReceiverTable (passed : Byte → Prop) (b : Block) : Prop :=
  ((b.rxState = .readingHeader ∧ b.rxCnt.toNat ≤ 1
      ∧ (b.rxCnt.toNat = 1 → ∃ x, b.rxB0 = some x ∧ passed x))
    ∨ (b.rxState = .readingExtendedLength16 ∧ b.rxCnt.toNat ≤ 1
      ∧ ∃ y l, b.rxB1 = some y ∧ len7Of y = 126 ∧ b.rxLen = some l ∧ l.toNat < 2 ^ (8 * b.rxCnt.toNat))
    ∨ (b.rxState = .readingExtendedLength64 ∧ b.rxCnt.toNat ≤ 7
      ∧ ∃ y l, b.rxB1 = some y ∧ len7Of y = 127 ∧ b.rxLen = some l ∧ l.toNat < 2 ^ (8 * b.rxCnt.toNat))
    ∨ (b.rxState = .readingMask ∧ b.rxCnt.toNat ≤ 3 ∧ ∃ y, b.rxB1 = some y ∧ bitOf y 7 = true)
    ∨ (b.rxState = .readingPayload
      ∧ ∃ l, b.rxLen = some l ∧ 1 ≤ l.toNat ∧ b.rxCnt.toNat ≤ l.toNat - 1 ∧ b.rxPayload.length = b.rxCnt.toNat)
    ∨ (b.rxState = .failed ∧ b.rxErr ≠ none))
  ∧ b.rxState ≠ .dispatching
  ∧ (b.rxErr = none ↔ b.rxState ≠ .failed)
  ∧ (b.rxFragOpen = false → b.rxMsgTotal = 0)

/-- The encoder's commands of R41 and R62: they read configuration registers only. -/
def readsConfigurationOnly : Instr → Bool
  | .encodeHeader _ _ _ _ _ | .encodeFrame _ _ _ _ _ | .applyMask _ _ _ | .decodeHeader _ => true
  | _ => false

/-- The instructions that hand the receiver bytes: FEED_BYTE, FEED and the header rows. -/
def feedsReceiver : Instr → Bool
  | .feedByte _ | .feed _ => true
  | i => (frameRow i).isSome || (headerRow i).isSome

/-- Masking four bytes at a time with the key as a 32-bit word (R156); a rest shorter than four bytes meets the
word's leading bytes. -/
def maskByWords (k : Key) : Bytes → Bytes
  | a :: b :: c :: d :: rest =>
    let word : BitVec 32 := (a ++ b ++ c ++ d) ^^^ (k.k0 ++ k.k1 ++ k.k2 ++ k.k3)
    word.extractLsb' 24 8 :: word.extractLsb' 16 8 :: word.extractLsb' 8 8 :: word.extractLsb' 0 8
      :: maskByWords k rest
  | rest => List.zipWith (· ^^^ ·) rest [k.k0, k.k1, k.k2, k.k3]

end Sys2Proof.Spec

open Sys2Proof Sys2Proof.Machine

/-! Encodings and the step. -/

/-- Decoding the word of a well-formed instruction gives the instruction back, with every operand at every value. It
rests on the model's packing of command arguments (notes/assumptions/2.md); the header formats and the codes are those
of R71, R76 and R83. -/
def Obligations.DecodeOfEncodeGivesTheInstruction : Prop :=
  ∀ i : Instr, i.wellFormed = true → decode (encode i) = .ok i

/-- The other direction for the header formats, whose bytes are the wire's: whatever a byte 0, or a byte 1 with the
bytes behind it, decodes to is well formed and has those bytes (R70, R71, R76). -/
def Obligations.HeaderRowsReadBackTheirBytes : Prop :=
  (∀ b0 : Byte, (decodeByte0 b0).bytes = [b0] ∧ (decodeByte0 b0).format = .hdrB0)
    ∧ ∀ (b1 : Byte) (more rest : Bytes) (i : Instr), decodeByte1 b1 more = .ok (i, rest) →
        i.wellFormed = true ∧ i.format = .hdrB1 ∧ i.bytes ++ rest = b1 :: more
          ∧ 1 + i.bytes.length = 2 + Spec.extOf (Spec.len7Of b1) + 4 * (Spec.bitOf b1 7).toNat

/-- The opcode table is unambiguous and total: within a format, every first byte (below 16 for a command code) is
selected by exactly one row, and the decoder gives an instruction of that row (R71, R76, R83). -/
def Obligations.EveryFirstByteSelectsOneRow : Prop :=
  (∀ b0 : Byte, (byte0Rows.filter (·.selects b0)).map (·.mnemonic) = [(decodeByte0 b0).mnemonic])
    ∧ (∀ (b1 : Byte) (more rest : Bytes) (i : Instr), decodeByte1 b1 more = .ok (i, rest) →
        (byte1Rows.filter (·.selects b1)).map (·.mnemonic) = [i.mnemonic])
    ∧ (∀ (code : Byte) (ops rest : Bytes) (i : Instr), decodeCommand code ops = .ok (i, rest) →
        (commandRows.filter (·.selects code)).map (·.mnemonic) = [i.mnemonic])
    ∧ ∀ b : Byte, (byte1Rows.filter (·.selects b)).length = 1
        ∧ ((commandRows.filter (·.selects b)).length = 1 ↔ b.toNat < 16)

/-- Words written out from the spec decode to what they stand for: 0x81 is TEXT with FIN (R54, R76), FE 00 7E and a
key is H8 with length 126 (R71), code 0 is RESET and code 7 is FEED_BYTE (R83). That the byte FEED_BYTE takes stands
behind its code is the model's packing (notes/assumptions/2.md), not R83's. -/
def Obligations.WordsOfTheSpecDecode : Prop :=
  decode ⟨.hdrB0, [0b10000001]⟩ = .ok (.text true false false false)
    ∧ decode ⟨.hdrB0, [0b01001010]⟩ = .ok (.pong false true false false)
    ∧ decode ⟨.hdrB1, [0b11111110, 0x00, 0x7E, 0x01, 0x02, 0x03, 0x04]⟩ = .ok (.h8 126 ⟨1, 2, 3, 4⟩)
    ∧ decode ⟨.hdrB1, [0b01111111, 0, 0, 0, 0, 0, 1, 0x11, 0x70]⟩ = .ok (.h10 70000)
    ∧ decode ⟨.cmd, [0b00000111, 0x81]⟩ = .ok (.feedByte 0x81)
    ∧ decode ⟨.cmd, [0b00000000]⟩ = .ok .reset

/-- A step takes the first word the host issued and executes the instruction it decodes to (R6, R12); without a word
there is no step (R6: "The block never steps without a command"). The port is the model's (notes/assumptions/1.md). -/
def Obligations.StepExecutesTheIssuedWord : Prop :=
  (∀ (s : State) (w : HostWord) (rest : List HostWord) (i : Instr),
      s.pending = w :: rest → decode w = .ok i → step s = exec i { s with pending := rest })
    ∧ ∀ s : State, s.pending = [] → step s = .refused .noCommand

/-- A table word issued in front is what the next step runs, in the very state it was issued in. All of it is the
model's: the port and what issuing stands for (notes/assumptions/1.md), and which format a bare number is read in
(notes/assumptions/3.md: below 16 a command code, any other byte 1 of a frame, with zeros behind; so 0x81 is H6 here and
not TEXT). -/
def Obligations.TableWordIsRunNext : Prop :=
  ∀ (s : State) (nbits w : Nat) (i : Instr),
    decodeTableWord nbits w = some i → step (s.withFetchWord nbits w) = exec i s

/-! Block control. -/

/-- R220 RESET: accepted in every state, every register of R21 to R36 at the value of the rule, `Ok`. -/
def Obligations.ResetWritesEveryRegister : Prop :=
  ∀ s : State, ∃ t, exec .reset s = .next t ∧ t.result = some .ok ∧ t.pending = s.pending
    ∧ t.block.cfgValid = false ∧ t.block.cfgRole = none ∧ t.block.cfgRsv1Allowed = none
    ∧ t.block.cfgMaxPayload = none ∧ t.block.cfgStrictMinlen = none
    ∧ t.block.rxState = .readingHeader ∧ t.block.rxCnt = 0
    ∧ t.block.rxB0 = none ∧ t.block.rxB1 = none ∧ t.block.rxLen = none
    ∧ t.block.rxKey = ⟨none, none, none, none⟩ ∧ t.block.rxPayload = []
    ∧ t.block.rxFragOpen = false ∧ t.block.rxMsgTotal = 0 ∧ t.block.rxOffset = 0 ∧ t.block.rxErr = none

/-- R270: the power-on state is the state RESET leaves, whatever the state RESET is issued in, with the values of the
rule's table. -/
def Obligations.PowerOnStateIsWhatResetLeaves : Prop :=
  (∀ s t : State, exec .reset s = .next t → t.block = State.reset.block)
    ∧ State.reset.block =
      { cfgValid := false, cfgRole := none, cfgRsv1Allowed := none, cfgMaxPayload := none, cfgStrictMinlen := none
        rxState := .readingHeader, rxCnt := 0, rxB0 := none, rxB1 := none, rxLen := none
        rxKey := ⟨none, none, none, none⟩, rxPayload := [], rxFragOpen := false, rxMsgTotal := 0, rxOffset := 0
        rxErr := none }

/-- R221 CONFIGURE on an instance that is not configured: the configuration registers take the arguments, no receiver
register is written, `Ok`. -/
def Obligations.ConfigureAttachesTheParameters : Prop :=
  ∀ (s : State) (role : Role) (rsv1Allowed : Bool) (maxPayload : U64) (strictMinlen : Bool),
    (s.block.cfgValid = false → ∃ t, exec (.configure role rsv1Allowed maxPayload strictMinlen) s = .next t
      ∧ t.result = some .ok ∧ t.pending = s.pending
      ∧ t.block.cfgValid = true ∧ t.block.cfgRole = some role ∧ t.block.cfgRsv1Allowed = some rsv1Allowed
      ∧ t.block.cfgMaxPayload = some maxPayload ∧ t.block.cfgStrictMinlen = some strictMinlen
      ∧ t.block.SameReceiver s.block)
    ∧ (s.block.cfgValid = true → exec (.configure role rsv1Allowed maxPayload strictMinlen) s
        = .next { s with result := some (.cmdError .configLocked) })

/-- R224: while `cfg_valid = 1`, no instruction other than RESET changes a configuration register, and CONFIGURE
returns `CmdError(CONFIG_LOCKED)` and changes nothing. -/
def Obligations.ConfigurationIsLockedUntilReset : Prop :=
  ∀ s : State, s.block.cfgValid = true →
    (∀ (i : Instr) (t : State), i ≠ .reset → exec i s = .next t → t.block.SameConfig s.block)
    ∧ ∀ (role : Role) (rsv1Allowed : Bool) (maxPayload : U64) (strictMinlen : Bool),
        exec (.configure role rsv1Allowed maxPayload strictMinlen) s
          = .next { s with result := some (.cmdError .configLocked) }

/-- R222 READ_STATUS: the record of R48 in every state, no side effect. -/
def Obligations.ReadStatusReturnsTheRecord : Prop :=
  ∀ s : State, ∃ st : Status, exec .readStatus s = .next { s with result := some (.status st) }
    ∧ st.cfgValid = s.block.cfgValid
    ∧ (s.block.cfgValid = false → st.cfgRole = none ∧ st.cfgRsv1Allowed = none ∧ st.cfgMaxPayload = none
        ∧ st.cfgStrictMinlen = none)
    ∧ (s.block.cfgValid = true → st.cfgRole = s.block.cfgRole ∧ st.cfgRsv1Allowed = s.block.cfgRsv1Allowed
        ∧ st.cfgMaxPayload = s.block.cfgMaxPayload ∧ st.cfgStrictMinlen = s.block.cfgStrictMinlen)
    ∧ st.rxState = s.block.rxState ∧ st.rxCnt = s.block.rxCnt ∧ st.rxFragOpen = s.block.rxFragOpen
    ∧ st.rxMsgTotal = s.block.rxMsgTotal ∧ st.rxOffset = s.block.rxOffset ∧ st.rxErr = s.block.rxErr

/-- R225: the reserved command codes 0x9..0xF return `CmdError(BAD_COMMAND)` and change nothing, in every state. -/
def Obligations.ReservedCodesChangeNothing : Prop :=
  ∀ (s : State) (i : Instr),
    i ∈ [.reserved9, .reservedA, .reservedB, .reservedC, .reservedD, .reservedE, .reservedF] →
      exec i s = .next { s with result := some (.cmdError .badCommand) }

/-- R223: while `cfg_valid = 0`, the gated commands return `CmdError(NOT_CONFIGURED)` and change nothing; RESET,
CONFIGURE, READ_STATUS and APPLY_MASK are accepted. -/
def Obligations.CommandsAreGatedUntilConfigured : Prop :=
  ∀ s : State, s.block.cfgValid = false →
    (∀ (op : BitVec 4) (fin rsv1 : Bool) (key : Option Key) (n : Nat) (data : Bytes) (x : Byte) (i : Instr),
      i ∈ [.encodeHeader op fin rsv1 key n, .encodeFrame op fin rsv1 key data, .decodeHeader data, .feedByte x,
          .feed data] →
        exec i s = .next { s with result := some (.cmdError .notConfigured) })
    ∧ ∀ (c : Config) (data : Bytes) (key : Key) (phase : BitVec 2) (i : Instr),
      i ∈ [.reset, .configure c.role c.rsv1Allowed c.maxPayload c.strictMinlen, .readStatus,
          .applyMask data key phase] →
        ∃ t, exec i s = .next t ∧ ∀ e, t.result ≠ some (.cmdError e)

/-! The encoder. -/

/-- R100 ENCODE_HEADER: `CmdError(NOT_CONFIGURED)` while `cfg_valid = 0`; on a configured instance the first failing
check's reason in the order of R245, else the header bytes; no register is written. -/
def Obligations.EncodeHeaderFollowsItsRule : Prop :=
  ∀ (s : State) (op : BitVec 4) (fin rsv1 : Bool) (key : Option Key) (n : Nat),
    (s.block.cfgValid = false →
      exec (.encodeHeader op fin rsv1 key n) s = .next { s with result := some (.cmdError .notConfigured) })
    ∧ ∀ c : Config, s.block.ConfiguredAs c → exec (.encodeHeader op fin rsv1 key n) s
        = .next { s with result := some (Spec.encodeHeader c op.toNat fin rsv1 key n) }

/-- R101 ENCODE_FRAME: ENCODE_HEADER's result for the payload's length, unchanged where it is no bytes; else the
header and the payload, masked by `key[i mod 4]` when there is a key. -/
def Obligations.EncodeFrameIsHeaderAndMaskedPayload : Prop :=
  ∀ (s t : State) (op : BitVec 4) (fin rsv1 : Bool) (key : Option Key) (payload : Bytes),
    exec (.encodeHeader op fin rsv1 key payload.length) s = .next t →
      (∀ h, t.result = some (.bytes h) →
        exec (.encodeFrame op fin rsv1 key payload) s = .next { s with result := some (.bytes (h ++
          match key with
          | none => payload
          | some k => Spec.maskOf payload k 0)) })
      ∧ ((∀ h, t.result ≠ some (.bytes h)) → exec (.encodeFrame op fin rsv1 key payload) s = .next t)

/-- ENCODE_FRAME completes on every configured instance for every argument, with no register written: bytes where
ENCODE_HEADER's checks pass (header length of R74 plus the payload's length), else their reason (R101, R245). -/
def Obligations.EncodeFrameCompletes : Prop :=
  ∀ (s : State) (c : Config) (op : BitVec 4) (fin rsv1 : Bool) (key : Option Key) (payload : Bytes),
    s.block.ConfiguredAs c → ∃ r, exec (.encodeFrame op fin rsv1 key payload) s = .next { s with result := some r }
      ∧ (∀ reason, Spec.encodeCheck c op.toNat fin rsv1 key payload.length = some reason → r = .encodeInvalid reason)
      ∧ (Spec.encodeCheck c op.toNat fin rsv1 key payload.length = none → ∃ f, r = .bytes f
          ∧ f.length = Spec.headerLengthFor key payload.length + payload.length
          ∧ f.take (Spec.headerLengthFor key payload.length)
              = Spec.headerOf op.toNat fin rsv1 key payload.length)

/-- R115: at the boundary lengths 125, 126, 65535 and 65536, LEN7 is 125, 126, 126 and 127 and the header has 2, 4, 4
and 10 bytes unmasked, 6, 8, 8 and 14 masked, for every opcode, flags and key the encoder admits (R100): a frame type,
RSV1 only on TEXT and BIN and only when negotiated, a control frame only with FIN and up to 125 bytes, a key exactly in
the client's role. -/
def Obligations.LengthBoundariesTakeTheNextField : Prop :=
  ∀ (s : State) (c : Config) (op : BitVec 4) (fin rsv1 : Bool) (key : Option Key) (n len7 size : Nat),
    s.block.ConfiguredAs c → op.toNat ∈ Spec.frameTypes →
    (rsv1 = true → c.rsv1Allowed = true ∧ op.toNat ∈ [0x1, 0x2]) →
    (Spec.isControl op.toNat = true → fin = true ∧ n ≤ 125) → (key = none ↔ c.role = .server) →
    (n, len7, size) ∈ [(125, 125, 2), (126, 126, 4), (65535, 126, 4), (65536, 127, 10)] →
      ∃ h, exec (.encodeHeader op fin rsv1 key n) s = .next { s with result := some (.bytes h) }
        ∧ Spec.len7Of (h.getD 1 0) = len7
        ∧ h.length = size + (if key = none then 0 else 4)

/-- R41: ENCODE_HEADER, ENCODE_FRAME, APPLY_MASK and DECODE_HEADER write no register, and issued on two instances with
the same configuration they return the same result. -/
def Obligations.CodecReadsConfigurationOnly : Prop :=
  ∀ i : Instr, Spec.readsConfigurationOnly i = true →
    (∀ s t : State, exec i s = .next t → t.block = s.block ∧ t.pending = s.pending)
    ∧ ∀ s s' t : State, s.block.SameConfig s'.block → exec i s = .next t →
        ∃ t', exec i s' = .next t' ∧ t'.result = t.result

/-! The masker. -/

/-- R150 APPLY_MASK: byte `i` is `data[i] ^ key[(phase + i) mod 4]`, in every state, configured or not, with no
register written. -/
def Obligations.ApplyMaskXorsEachByte : Prop :=
  ∀ (s : State) (data : Bytes) (key : Key) (phase : BitVec 2),
    ∃ d : Bytes, exec (.applyMask data key phase) s = .next { s with result := some (.bytes d) }
      ∧ d.length = data.length
      ∧ ∀ i < data.length, d.getD i 0 = data.getD i 0 ^^^ Spec.keyAt key (phase.toNat + i)

/-- R151: masking twice with one key and phase restores the data. -/
def Obligations.MaskingTwiceRestores : Prop :=
  ∀ (data : Bytes) (key : Key) (phase : Nat), mask (mask data key phase) key phase = data

/-- R152, the split law: a payload may be masked in pieces with its running phase. -/
def Obligations.MaskingInPiecesIsMaskingWhole : Prop :=
  ∀ (a b : Bytes) (key : Key) (phase : Nat),
    mask (a ++ b) key phase = mask a key phase ++ mask b key ((phase + a.length) % 4)

/-- R153: the zero key changes nothing, a key of four equal bytes XORs every byte with that byte whatever the phase,
and a frame masked with the zero key still has MASK = 1 and carries its four key bytes. -/
def Obligations.DegenerateKeysAreOrdinary : Prop :=
  (∀ (data : Bytes) (phase : Nat), mask data ⟨0, 0, 0, 0⟩ phase = data)
    ∧ (∀ (data : Bytes) (x : Byte) (phase : Nat), mask data ⟨x, x, x, x⟩ phase = data.map (· ^^^ x))
    ∧ ∀ (s t : State) (op : BitVec 4) (fin rsv1 : Bool) (payload f : Bytes),
        exec (.encodeFrame op fin rsv1 (some ⟨0, 0, 0, 0⟩) payload) s = .next t → t.result = some (.bytes f) →
          Spec.bitOf (f.getD 1 0) 7 = true
            ∧ ∃ front : Bytes, f = front ++ [0, 0, 0, 0] ++ payload
                ∧ front.length = 2 + Spec.extOf (Spec.len7Of (f.getD 1 0))

/-- R156: masking from a payload index that is a multiple of 4, four bytes at a time with the key as a word, gives the
bytes of R150. -/
def Obligations.WordWideMaskerGivesTheSameBytes : Prop :=
  ∀ (data : Bytes) (key : Key) (q : Nat), Spec.maskByWords key data = mask data key (4 * q)

/-! The stateless decoder. -/

/-- R102 DECODE_HEADER, with the checks R103, R104 and R105 in their order: `CmdError(NOT_CONFIGURED)` while
`cfg_valid = 0`; on a configured instance the header, the first error with its index, or `NeedMoreData`; no register
is written. -/
def Obligations.DecodeHeaderFollowsItsRule : Prop :=
  ∀ (s : State) (buf : Bytes),
    (s.block.cfgValid = false → exec (.decodeHeader buf) s = .next { s with result := some (.cmdError .notConfigured) })
    ∧ ∀ c : Config, s.block.ConfiguredAs c →
        exec (.decodeHeader buf) s = .next { s with result := some (Spec.decodeHeader c buf) }

/-- R116, prefix stability: a header or an error stays what it is with more bytes; `NeedMoreData` is answered only
below 14 bytes and below the length of every header an extension decodes to. -/
def Obligations.DecodeHeaderIsPrefixStable : Prop :=
  ∀ (s t : State) (buf : Bytes), exec (.decodeHeader buf) s = .next t →
    (∀ (more : Bytes) (h : Header) (n : Nat), t.result = some (.header h n) →
      exec (.decodeHeader (buf ++ more)) s = .next t)
    ∧ (∀ (more : Bytes) (r : Reason) (i : Nat), t.result = some (.protocolError r i) →
      exec (.decodeHeader (buf ++ more)) s = .next t)
    ∧ (t.result = some .needMoreData → buf.length < 14
      ∧ ∀ (more : Bytes) (t' : State) (h : Header) (n : Nat),
          exec (.decodeHeader (buf ++ more)) s = .next t' → t'.result = some (.header h n) →
            buf.length < h.headerLength)

/-- R114, the round trip: what one instance's ENCODE_FRAME returns, an instance of the opposite role with the same
`cfg_rsv1_allowed` decodes to the same opcode, flags, key and length, and the bytes behind the header demask to the
payload. -/
def Obligations.EncodedFrameDecodesToItsArguments : Prop :=
  ∀ (sA tA sB : State) (cA cB : Config) (op : BitVec 4) (fin rsv1 : Bool) (key : Option Key) (payload f : Bytes),
    sA.block.ConfiguredAs cA → sB.block.ConfiguredAs cB → cA.role ≠ cB.role → cA.rsv1Allowed = cB.rsv1Allowed →
    exec (.encodeFrame op fin rsv1 key payload) sA = .next tA → tA.result = some (.bytes f) →
      ∃ h n, exec (.decodeHeader f) sB = .next { sB with result := some (.header h n) }
        ∧ n = h.headerLength ∧ n ≤ f.length
        ∧ h.opcode = op ∧ h.fin = fin ∧ h.rsv1 = rsv1 ∧ h.masked = key.isSome ∧ h.maskKey = key
        ∧ h.payloadLength.toNat = payload.length
        ∧ (match key with
            | none => f.drop n
            | some k => mask (f.drop n) k 0) = payload

/-! The receiver, byte by byte. -/

/-- R172 and R173: FEED_BYTE at a frame boundary latches byte 0 and runs every check on it, HdrCheck0 before
SeqCheck; a failure leaves `rx_b0` written and `rx_cnt` as it was. -/
def Obligations.Byte0IsCheckedAtTheBoundary : Prop :=
  ∀ (s : State) (c : Config) (x : Byte), s.block.ConfiguredAs c → Spec.AtBoundary s.block →
    exec (.feedByte x) s = .next (Spec.byteTaken s
      (match (Spec.check0 c.rsv1Allowed x).or (Spec.checkSeq s.block.rxFragOpen x) with
        | some r => Spec.failed r { s.block with rxB0 := some x }
        | none => ({ s.block with rxB0 := some x, rxCnt := 1 }, [])))

/-- R174, R175, R178 and R180: FEED_BYTE of byte 1. HdrCheck1 first; LEN7 ≤ 125 is the length, size-checked before the
mask key or the payload (or, unmasked and empty, dispatched at once); 126 and 127 start an extended length. -/
def Obligations.Byte1SelectsTheHeaderFormat : Prop :=
  ∀ (s : State) (c : Config) (x y : Byte), s.block.ConfiguredAs c → Spec.AwaitsByte1 s.block x →
    exec (.feedByte y) s = .next (Spec.byteTaken s
      (match Spec.check1 c.role x y with
        | some r => Spec.failed r { s.block with rxB1 := some y }
        | none =>
          let len := BitVec.ofNat 64 (Spec.len7Of y)
          if Spec.len7Of y ≤ 125 then
            match Spec.checkSize c.maxPayload x s.block.rxMsgTotal.toNat (Spec.len7Of y) with
            | some r => Spec.failed r { s.block with rxB1 := some y, rxLen := some len }
            | none => Spec.afterLength x y len { s.block with rxB1 := some y, rxLen := some len }
          else
            ({ s.block with
                rxB1 := some y
                rxState := if Spec.len7Of y = 126 then .readingExtendedLength16 else .readingExtendedLength64
                rxCnt := 0
                rxLen := some 0 }, [])))

/-- R176 and R177: a byte of an extended length is accumulated big-endian; the last one (the second, or the eighth)
runs LenCheck, then SizeCheck, then AfterLength. -/
def Obligations.ExtendedLengthAccumulatesBigEndian : Prop :=
  ∀ (s : State) (c : Config) (e : Nat) (x y z : Byte) (l : U64), s.block.ConfiguredAs c →
    (s.block.rxState = .readingExtendedLength16 ∧ e = 2 ∨ s.block.rxState = .readingExtendedLength64 ∧ e = 8) →
    s.block.rxCnt.toNat < e → s.block.rxB0 = some x → s.block.rxB1 = some y → s.block.rxLen = some l →
    l.toNat < 2 ^ (8 * s.block.rxCnt.toNat) →
      let plen := l.toNat * 256 + z.toNat
      let b := { s.block with rxLen := some (BitVec.ofNat 64 plen), rxCnt := s.block.rxCnt + 1 }
      plen < 2 ^ (8 * (s.block.rxCnt.toNat + 1))
      ∧ exec (.feedByte z) s = .next (Spec.byteTaken s
        (if s.block.rxCnt.toNat + 1 = e then
          match (Spec.checkLen c.strictMinlen e plen).or
              (Spec.checkSize c.maxPayload x s.block.rxMsgTotal.toNat plen) with
          | some r => Spec.failed r b
          | none => Spec.afterLength x y (BitVec.ofNat 64 plen) b
        else (b, [])))

/-- R179: a byte of the mask key is written to `rx_key[rx_cnt]` and to no other; the fourth ends the key. -/
def Obligations.MaskKeyIsCollectedInWireOrder : Prop :=
  ∀ (s : State) (x y z : Byte) (l : U64), s.block.cfgValid = true → s.block.rxState = .readingMask →
    s.block.rxB0 = some x → s.block.rxB1 = some y → Spec.bitOf y 7 = true → s.block.rxLen = some l →
    (s.block.rxCnt = 0 → exec (.feedByte z) s = .next (Spec.byteTaken s
        ({ s.block with rxKey := { s.block.rxKey with k0 := some z }, rxCnt := 1 }, [])))
    ∧ (s.block.rxCnt = 1 → exec (.feedByte z) s = .next (Spec.byteTaken s
        ({ s.block with rxKey := { s.block.rxKey with k1 := some z }, rxCnt := 2 }, [])))
    ∧ (s.block.rxCnt = 2 → exec (.feedByte z) s = .next (Spec.byteTaken s
        ({ s.block with rxKey := { s.block.rxKey with k2 := some z }, rxCnt := 3 }, [])))
    ∧ ∀ a b d : Byte, s.block.rxCnt = 3 → s.block.rxKey.k0 = some a → s.block.rxKey.k1 = some b →
        s.block.rxKey.k2 = some d → exec (.feedByte z) s = .next (Spec.byteTaken s
          (Spec.enterPayload x y l (some ⟨a, b, d, z⟩)
            { s.block with rxKey := ⟨some a, some b, some d, some z⟩, rxCnt := 4 }))

/-- R181, R182 and R183: a payload byte is demasked with `rx_key[rx_cnt mod 4]` when MASK = 1 and appended; the last
one dispatches the frame: `FrameOut` with the header and the whole payload, the message registers updated, the frame
boundary again. -/
def Obligations.PayloadIsDemaskedAndDispatched : Prop :=
  ∀ (s : State) (x y z : Byte) (l : U64) (key : Option Key), s.block.cfgValid = true →
    s.block.rxState = .readingPayload → s.block.rxB0 = some x → s.block.rxB1 = some y → s.block.rxLen = some l →
    s.block.rxCnt.toNat < l.toNat →
    (Spec.bitOf y 7 = false ∧ key = none
      ∨ Spec.bitOf y 7 = true ∧ ∃ k, key = some k ∧ s.block.rxKey = ⟨some k.k0, some k.k1, some k.k2, some k.k3⟩) →
      let d := match key with
        | none => z
        | some k => z ^^^ Spec.keyAt k s.block.rxCnt.toNat
      exec (.feedByte z) s = .next (Spec.byteTaken s
        (if s.block.rxCnt.toNat + 1 = l.toNat then
          Spec.dispatched x y l key (s.block.rxPayload ++ [d]) s.block
        else
          ({ s.block with rxPayload := s.block.rxPayload ++ [d], rxCnt := s.block.rxCnt + 1 }, [])))

/-- R170: FEED_BYTE on a configured instance makes a transition of the table. In a reading state it fails exactly where
a check of that state's byte fails, so no byte of a mask key or of a payload makes it fail (R244), and else goes where
the row says; in `Failed` nothing is consumed and nothing changes. The premise is the machine's invariant, stated as an
obligation of its own. -/
def Obligations.EveryByteMakesATableTransition : Prop :=
  ∀ (s : State) (c : Config) (x : Byte), s.Inv → s.block.ConfiguredAs c →
    ∃ t, exec (.feedByte x) s = .next t
      ∧ (s.block.rxState ≠ .failed → Spec.TransitionRow c x s.block t.block)
      ∧ (s.block.rxState = .failed → t.block = s.block)

/-! The rows that are header bytes. -/

/-- The rows of format HDR_B0 with a frame type, at a frame boundary: CONT needs an open message, TEXT and BIN none,
CLOSE, PING and PONG need FIN = 1 and no RSV1 and go through whether or not a message is open (the receiver and byte-0
clauses of R106, R107, R108, R110, R111 and R112); RSV2 or RSV3 set is RSV23_SET (R79). That a row is the receiver taking its byte is
the model's choice (notes/assumptions/4.md). -/
def Obligations.FrameTypeRowsStartAFrame : Prop :=
  ∀ (s : State) (c : Config) (i : Instr) (op : Nat) (fin rsv1 rsv2 rsv3 : Bool),
    s.block.ConfiguredAs c → Spec.AtBoundary s.block → Spec.frameRow i = some (op, fin, rsv1, rsv2, rsv3) →
    op ∈ Spec.frameTypes →
      let byte := Spec.byte0Of op fin rsv1 rsv2 rsv3
      let failsWith (r : Reason) : Prop :=
        exec i s = .next (Spec.byteTaken s (Spec.failed r { s.block with rxB0 := some byte }))
      (rsv2 = true ∨ rsv3 = true → failsWith .rsv23Set)
      ∧ (rsv2 = false → rsv3 = false →
        (rsv1 = true → c.rsv1Allowed = false → failsWith .rsv1NotNegotiated)
        ∧ (rsv1 = true → c.rsv1Allowed = true → op ∉ [0x1, 0x2] → failsWith .rsv1Misplaced)
        ∧ (rsv1 = false → op ∈ [0x8, 0x9, 0xA] → fin = false → failsWith .fragmentedControl)
        ∧ (rsv1 = false → op = 0x0 → s.block.rxFragOpen = false → failsWith .unexpectedContinuation)
        ∧ ((rsv1 = true → c.rsv1Allowed = true) → op ∈ [0x1, 0x2] → s.block.rxFragOpen = true →
            failsWith .messageInProgress)
        ∧ ((rsv1 = true → c.rsv1Allowed = true ∧ op ∈ [0x1, 0x2]) → (op ∈ [0x8, 0x9, 0xA] → fin = true) →
            (op = 0x0 → s.block.rxFragOpen = true) → (op ∈ [0x1, 0x2] → s.block.rxFragOpen = false) →
            exec i s = .next (Spec.byteTaken s ({ s.block with rxB0 := some byte, rxCnt := 1 }, []))))

/-- R109 and R113: a reserved opcode, in the data range or the control range, is `EncodeInvalid(BAD_OPCODE)` for the
encoder, `ProtocolError(BAD_OPCODE, 0)` for the decoder unless RSV2 or RSV3 is set (then RSV23_SET), and makes the
receiver fail with close code 1002, whatever FIN and RSV1 are. That the row, executed, is the receiver taking its byte
(the last clause) is the model's choice (notes/assumptions/4.md). -/
def Obligations.ReservedOpcodesAreBadOpcodes : Prop :=
  ∀ (s : State) (c : Config) (i : Instr) (op : BitVec 4) (fin rsv1 rsv2 rsv3 : Bool) (key : Option Key) (n : Nat)
      (payload more : Bytes),
    s.block.ConfiguredAs c → Spec.frameRow i = some (op.toNat, fin, rsv1, rsv2, rsv3) → op.toNat ∉ Spec.frameTypes →
      let byte := Spec.byte0Of op.toNat fin rsv1 rsv2 rsv3
      let reason : Reason := if rsv2 = true ∨ rsv3 = true then .rsv23Set else .badOpcode
      exec (.encodeHeader op fin rsv1 key n) s = .next { s with result := some (.encodeInvalid .badOpcode) }
      ∧ exec (.encodeFrame op fin rsv1 key payload) s = .next { s with result := some (.encodeInvalid .badOpcode) }
      ∧ exec (.decodeHeader (byte :: more)) s = .next { s with result := some (.protocolError reason 0) }
      ∧ (Spec.AtBoundary s.block → ∃ t e, exec i s = .next t ∧ t.result = some (.fed 1 [.error e])
          ∧ e = ⟨.protocolError, reason, 1002, s.block.rxOffset⟩
          ∧ t.block = { s.block with
              rxB0 := some byte, rxErr := some e, rxState := .failed, rxOffset := s.block.rxOffset + 1 })

/-- The rows of format HDR_B1 where the receiver awaits byte 1 and every check passes (R71, R174 to R180): the rest of
the header is taken, byte 1, length and key are latched, and the payload is entered, or the empty frame dispatched.
That a row is the receiver taking its bytes is the model's choice (notes/assumptions/4.md). -/
def Obligations.HeaderFormatRowsReachThePayload : Prop :=
  ∀ (s : State) (c : Config) (i : Instr) (x y : Byte) (n : Nat) (key : Option Key),
    s.block.ConfiguredAs c → Spec.AwaitsByte1 s.block x → i.wellFormed = true → Spec.headerRow i = some (y, n, key) →
    Spec.check1 c.role x y = none →
    (0 < Spec.extOf (Spec.len7Of y) → Spec.checkLen c.strictMinlen (Spec.extOf (Spec.len7Of y)) n = none) →
    Spec.checkSize c.maxPayload x s.block.rxMsgTotal.toNat n = none →
      let taken := 1 + Spec.extOf (Spec.len7Of y) + 4 * key.isSome.toNat
      let keyRegs := Spec.latchedKey key s.block.rxKey
      let after := Spec.enterPayload x y (BitVec.ofNat 64 n) key
        { s.block with rxB1 := some y, rxLen := some (BitVec.ofNat 64 n), rxKey := keyRegs }
      exec i s = .next { s with
        block := { after.1 with rxOffset := s.block.rxOffset + BitVec.ofNat 64 taken }
        result := some (.fed taken after.2) }

/-- The same rows where a check fails (R104, R105, R175, R244): the receiver fails at byte 1, or at the last length
byte, with the first reason of the order, and the bytes behind it are not consumed. -/
def Obligations.HeaderFormatRowsFailAtTheDecidingByte : Prop :=
  ∀ (s : State) (c : Config) (i : Instr) (x y : Byte) (n : Nat) (key : Option Key),
    s.block.ConfiguredAs c → Spec.AwaitsByte1 s.block x → i.wellFormed = true → Spec.headerRow i = some (y, n, key) →
      let e := Spec.extOf (Spec.len7Of y)
      let failsAt (r : Reason) (taken : Nat) : Prop := ∃ t record, exec i s = .next t
        ∧ t.result = some (.fed taken [.error record]) ∧ t.block.rxState = .failed ∧ t.block.rxErr = some record
        ∧ record.reason = r ∧ record.offset = s.block.rxOffset + BitVec.ofNat 64 (taken - 1)
        ∧ t.block.rxOffset = s.block.rxOffset + BitVec.ofNat 64 taken
      (∀ r, Spec.check1 c.role x y = some r → failsAt r 1)
      ∧ (Spec.check1 c.role x y = none → ∀ r,
          ((if 0 < e then Spec.checkLen c.strictMinlen e n else none).or
            (Spec.checkSize c.maxPayload x s.block.rxMsgTotal.toNat n)) = some r → failsAt r (1 + e))

/-- In every state, a row of format HDR_B0 is FEED_BYTE of its byte, and a row of format HDR_B1 is FEED of its bytes
(the model's choice, notes/assumptions/4.md; R70, R71, R76). -/
def Obligations.WireRowsAreFedBytes : Prop :=
  (∀ (s : State) (i : Instr) (op : Nat) (fin rsv1 rsv2 rsv3 : Bool),
      Spec.frameRow i = some (op, fin, rsv1, rsv2, rsv3) →
        exec i s = exec (.feedByte (Spec.byte0Of op fin rsv1 rsv2 rsv3)) s)
    ∧ ∀ (s : State) (i : Instr) (y : Byte) (n : Nat) (key : Option Key), Spec.headerRow i = some (y, n, key) →
        i.wellFormed = true →
        ∃ lengthBytes : Bytes, lengthBytes.length = Spec.extOf (Spec.len7Of y)
          ∧ (0 < Spec.extOf (Spec.len7Of y) → beNat lengthBytes = n)
          ∧ exec i s = exec (.feed (y :: (lengthBytes ++ match key with
              | none => []
              | some k => [k.k0, k.k1, k.k2, k.k3]))) s

/-! FEED, failure, whole-receiver rules. -/

/-- R187: FEED is refused while `cfg_valid = 0`, and while the receiver is failed; else FEED of nothing is `Fed(0, [])`
and changes nothing, and FEED of a byte and more is FEED_BYTE of the byte, then, unless the receiver has failed, FEED of
the rest, with the counts added and the events in order. -/
def Obligations.FeedIsByteByByte : Prop :=
  ∀ s : State,
    (s.block.cfgValid = false → ∀ data, exec (.feed data) s = .next { s with result := some (.cmdError .notConfigured) })
    ∧ (s.block.cfgValid = true → s.block.rxState = .failed →
      ∀ data, exec (.feed data) s = .next { s with result := some (.cmdError .rxFailed) })
    ∧ (s.block.cfgValid = true → s.block.rxState ≠ .failed →
      exec (.feed []) s = .next { s with result := some (.fed 0 []) }
      ∧ ∀ (x : Byte) (data : Bytes) (s₁ : State) (events : List Event),
          exec (.feedByte x) s = .next s₁ → s₁.result = some (.fed 1 events) →
            (s₁.block.rxState = .failed → exec (.feed (x :: data)) s = .next s₁)
            ∧ (s₁.block.rxState ≠ .failed → ∀ (s₂ : State) (n : Nat) (more : List Event),
                exec (.feed data) s₁ = .next s₂ → s₂.result = some (.fed n more) →
                  exec (.feed (x :: data)) s = .next { s₂ with result := some (.fed (n + 1) (events ++ more)) }))

/-- R185, with R247's way out: while the receiver is failed, FEED_BYTE and FEED return `CmdError(RX_FAILED)` and change
nothing, and no instruction but RESET changes `rx_state` or `rx_err`. -/
def Obligations.FailedReceiverRefusesUntilReset : Prop :=
  ∀ s : State, s.block.cfgValid = true → s.block.rxState = .failed →
    (∀ (x : Byte) (data : Bytes),
      exec (.feedByte x) s = .next { s with result := some (.cmdError .rxFailed) }
      ∧ exec (.feed data) s = .next { s with result := some (.cmdError .rxFailed) })
    ∧ (∀ (i : Instr) (t : State), i ≠ .reset → exec i s = .next t → t.block = s.block)
    ∧ ∃ t, exec .reset s = .next t ∧ t.block.rxState = .readingHeader ∧ t.block.rxErr = none

/-- R186: `rx_offset` advances by exactly 1 modulo 2^64 in every FEED_BYTE that passes the two refusals, the failing
byte included, and an error record carries the value before. The premise is the machine's invariant. -/
def Obligations.OffsetCountsEveryTakenByte : Prop :=
  ∀ (s : State) (x : Byte), s.Inv → s.block.cfgValid = true → s.block.rxState ≠ .failed →
    ∃ t events, exec (.feedByte x) s = .next t ∧ t.result = some (.fed 1 events)
      ∧ t.block.rxOffset.toNat = (s.block.rxOffset.toNat + 1) % 2 ^ 64
      ∧ ∀ e, .error e ∈ events → e.offset = s.block.rxOffset

/-- R246, with R242 and R243: a byte that makes the receiver fail is reported by one `Error` with the kind and close
code of its reason and its own stream index; `rx_err` holds the record; the configuration and the message registers
keep their values (R184). The premise is the machine's invariant. -/
def Obligations.FailureIsRecorded : Prop :=
  ∀ (s : State) (x : Byte), s.Inv → s.block.cfgValid = true → s.block.rxState ≠ .failed →
    ∃ t events, exec (.feedByte x) s = .next t ∧ t.result = some (.fed 1 events)
      ∧ (t.block.rxState = .failed → ∃ e, events = [.error e] ∧ t.block.rxErr = some e
          ∧ e.reason.code ≤ 14 ∧ e.offset = s.block.rxOffset
          ∧ (e.reason.code = 13 ∨ e.reason.code = 14 → e.kind = .payloadTooLarge ∧ e.closeCode = 1009)
          ∧ (e.reason.code ≤ 12 → e.kind = .protocolError ∧ e.closeCode = 1002)
          ∧ t.block.SameConfig s.block
          ∧ t.block.rxFragOpen = s.block.rxFragOpen ∧ t.block.rxMsgTotal = s.block.rxMsgTotal)
      ∧ (t.block.rxState ≠ .failed → t.block.rxErr = none ∧ ∀ e, .error e ∉ events)

/-- R246, "The error is **precise**": a FEED that makes the receiver fail ends behind the failing byte. Its count is
that byte's index plus 1, its last event is the `Error` and no other event is one, the record's offset is the byte's,
and FEED of the consumed prefix alone does the same. The premise is the machine's invariant. -/
def Obligations.FailureIsPreciseInAChunk : Prop :=
  ∀ (s : State) (data : Bytes), s.Inv → s.block.cfgValid = true → s.block.rxState ≠ .failed →
    ∃ t n events, exec (.feed data) s = .next t ∧ t.result = some (.fed n events)
      ∧ t.block.rxOffset = s.block.rxOffset + BitVec.ofNat 64 n
      ∧ (t.block.rxState ≠ .failed → n = data.length ∧ ∀ e, .error e ∉ events)
      ∧ (t.block.rxState = .failed → 0 < n ∧ n ≤ data.length
          ∧ exec (.feed (data.take n)) s = .next t
          ∧ ∃ (front : List Event) (e : ErrorRecord), events = front ++ [.error e] ∧ (∀ e', .error e' ∉ front)
            ∧ t.block.rxErr = some e ∧ e.offset = s.block.rxOffset + BitVec.ofNat 64 (n - 1))

/-- R60 (its last sentence) and R45: one byte causes at most one event, and a `FrameOut` has the whole payload, as long
as its header says. The premise is the machine's invariant. -/
def Obligations.AByteCausesAtMostOneEvent : Prop :=
  ∀ (s : State) (x : Byte), s.Inv → s.block.cfgValid = true → s.block.rxState ≠ .failed →
    ∃ t events, exec (.feedByte x) s = .next t ∧ t.result = some (.fed 1 events) ∧ events.length ≤ 1
      ∧ ∀ h payload, .frameOut h payload ∈ events →
          payload.length = h.payloadLength.toNat ∧ h.maskKey.isSome = h.masked ∧ h.rsv2 = false ∧ h.rsv3 = false
            ∧ h.opcode.toNat ∈ Spec.frameTypes ∧ Spec.AtBoundary t.block

/-- R188, chunking independence: FEED of two chunks in turn and FEED of their concatenation give the same events, the
same count and the same registers; a chunk that made the receiver fail is not reached past. -/
def Obligations.FeedDoesNotDependOnChunking : Prop :=
  ∀ (s t₁ : State) (a b : Bytes) (n : Nat) (e₁ : List Event), s.block.cfgValid = true → s.block.rxState ≠ .failed →
    exec (.feed a) s = .next t₁ → t₁.result = some (.fed n e₁) →
      (n = a.length → ∀ (t₂ : State) (n₂ : Nat) (e₂ : List Event),
        exec (.feed b) t₁ = .next t₂ → t₂.result = some (.fed n₂ e₂) →
          exec (.feed (a ++ b)) s = .next { t₂ with result := some (.fed (a.length + n₂) (e₁ ++ e₂)) })
      ∧ (n < a.length → t₁.block.rxState = .failed ∧ exec (.feed (a ++ b)) s = .next t₁)

/-- R189, agreement with DECODE_HEADER, from a frame boundary. Item 3 is stated with the exception items 1 and 2 make,
a SeqCheck or SizeCheck failure, which the rule's own last sentence adds (notes/assumptions/8.md). -/
def Obligations.ReceiverAgreesWithDecodeHeader : Prop :=
  ∀ (s : State) (c : Config) (buf : Bytes), s.block.ConfiguredAs c → Spec.AtBoundary s.block →
    let failsAt (data : Bytes) (r : Reason) (i : Nat) : Prop := ∃ t e, exec (.feed data) s = .next t
      ∧ t.result = some (.fed (i + 1) [.error e]) ∧ t.block.rxState = .failed
      ∧ e.reason = r ∧ e.offset = s.block.rxOffset + BitVec.ofNat 64 i
    let seq := Spec.checkSeq s.block.rxFragOpen (buf.getD 0 0)
    let e := Spec.extOf (Spec.len7Of (buf.getD 1 0))
    (∀ r i, Spec.decodeHeader c buf = .protocolError r i →
      (0 < i → ∀ q, seq = some q → failsAt buf q 0)
      ∧ (i = 0 ∨ seq = none → failsAt buf r i))
    ∧ (∀ h n, Spec.decodeHeader c buf = .header h n →
      (∀ q, seq = some q → failsAt (buf.take n) q 0)
      ∧ (seq = none → ∀ q,
          Spec.checkSize c.maxPayload (buf.getD 0 0) s.block.rxMsgTotal.toNat h.payloadLength.toNat = some q →
            failsAt (buf.take n) q (1 + e))
      ∧ (seq = none →
          Spec.checkSize c.maxPayload (buf.getD 0 0) s.block.rxMsgTotal.toNat h.payloadLength.toNat = none →
            ∃ t events, exec (.feed (buf.take n)) s = .next t ∧ t.result = some (.fed n events)
              ∧ t.block.rxB0 = some (buf.getD 0 0) ∧ t.block.rxB1 = some (buf.getD 1 0)
              ∧ t.block.rxLen = some h.payloadLength
              ∧ (∀ k, h.maskKey = some k → t.block.rxKey = ⟨some k.k0, some k.k1, some k.k2, some k.k3⟩)
              ∧ (h.payloadLength ≠ 0 → events = [] ∧ t.block.rxState = .readingPayload)
              ∧ (h.payloadLength = 0 → events = [.frameOut h []] ∧ Spec.AtBoundary t.block)))
    ∧ (Spec.decodeHeader c buf = .needMoreData → (buf ≠ [] → seq = none) →
        (2 + e ≤ buf.length →
          Spec.checkSize c.maxPayload (buf.getD 0 0) s.block.rxMsgTotal.toNat (Spec.lengthAt buf e) = none) →
        ∃ t, exec (.feed buf) s = .next t ∧ t.result = some (.fed buf.length [])
          ∧ t.block.rxState ∈ [RxState.readingHeader, .readingExtendedLength16, .readingExtendedLength64,
              .readingMask])

/-- R190, the round trip through the receiver: what one instance's ENCODE_FRAME returns, fed to an instance of the
opposite role at a frame boundary whose SeqCheck and SizeCheck pass, comes out as one `FrameOut` with the payload. -/
def Obligations.EncodedFrameComesOutOfTheReceiver : Prop :=
  ∀ (sA tA sB : State) (cA cB : Config) (op : BitVec 4) (fin rsv1 : Bool) (key : Option Key) (payload f : Bytes),
    sA.block.ConfiguredAs cA → sB.block.ConfiguredAs cB → cA.role ≠ cB.role → cA.rsv1Allowed = cB.rsv1Allowed →
    exec (.encodeFrame op fin rsv1 key payload) sA = .next tA → tA.result = some (.bytes f) →
    Spec.AtBoundary sB.block →
    (op.toNat = 0x0 → sB.block.rxFragOpen = true) → (op.toNat ∈ [0x1, 0x2] → sB.block.rxFragOpen = false) →
    payload.length ≤ cB.maxPayload.toNat →
    (Spec.isControl op.toNat = false → sB.block.rxMsgTotal.toNat + payload.length ≤ cB.maxPayload.toNat) →
      ∃ tB h, exec (.feed f) sB = .next tB ∧ tB.result = some (.fed f.length [.frameOut h payload])
        ∧ h.opcode = op ∧ h.fin = fin ∧ h.rsv1 = rsv1 ∧ h.masked = key.isSome ∧ h.maskKey = key
        ∧ h.payloadLength.toNat = payload.length

/-- R85, the pseudo-command. The peer of a configured instance is configured alike, but for the opposite role. `FEED
FRAME` expands to FEED of `f` exactly when ENCODE_FRAME, executed on the peer, returns the bytes `f`, and to nothing else.
That FEED, issued at a frame boundary whose SeqCheck and SizeCheck pass, delivers the frame with its arguments. -/
def Obligations.FeedFrameDeliversThePayload : Prop :=
  ∀ (s : State) (op : BitVec 4) (fin rsv1 : Bool) (key : Option Key) (payload : Bytes),
    (∀ c : Config, s.block.ConfiguredAs c → ∃ role, role ≠ c.role
      ∧ s.block.peer.ConfiguredAs ⟨role, c.rsv1Allowed, c.maxPayload, c.strictMinlen⟩)
    ∧ (∀ (u : State) (f : Bytes), u.block = s.block.peer →
      ((∃ t, exec (.encodeFrame op fin rsv1 key payload) u = .next t ∧ t.result = some (.bytes f))
        ↔ feedFrame s.block op fin rsv1 key payload = some (.feed f)))
    ∧ (∀ i, feedFrame s.block op fin rsv1 key payload = some i → ∃ f, i = .feed f)
    ∧ ∀ (c : Config) (f : Bytes), s.block.ConfiguredAs c →
      feedFrame s.block op fin rsv1 key payload = some (.feed f) → Spec.AtBoundary s.block →
      (op.toNat = 0x0 → s.block.rxFragOpen = true) → (op.toNat ∈ [0x1, 0x2] → s.block.rxFragOpen = false) →
      payload.length ≤ c.maxPayload.toNat →
      (Spec.isControl op.toNat = false → s.block.rxMsgTotal.toNat + payload.length ≤ c.maxPayload.toNat) →
        ∃ t h, exec (.feed f) s = .next t ∧ t.result = some (.fed f.length [.frameOut h payload])
          ∧ h.opcode = op ∧ h.fin = fin ∧ h.rsv1 = rsv1 ∧ h.masked = key.isSome ∧ h.maskKey = key
          ∧ h.payloadLength.toNat = payload.length

/-! Invariants and whole-machine rules. -/

/-- The machine's invariant (R42 and what it rests on) is kept by every instruction and by every step. -/
def Obligations.EveryStepKeepsTheInvariant : Prop :=
  (∀ (i : Instr) (s t : State), s.Inv → exec i s = .next t → t.Inv)
    ∧ ∀ s t : State, s.Inv → step s = .next t → t.Inv

/-- The machine's invariant holds at power-on. -/
def Obligations.InvariantHoldsAtPowerOn : Prop := State.reset.Inv

/-- R42: at the end of every command issued in a state that satisfies the invariant, a row of the rule's table holds
and the sentences below it hold. -/
def Obligations.ReceiverTableHoldsAfterEveryCommand : Prop :=
  ∀ (i : Instr) (s t : State), s.Inv → exec i s = .next t →
    Spec.ReceiverTable (fun x => ∃ allowed, t.block.cfgRsv1Allowed = some allowed
      ∧ Spec.check0 allowed x = none ∧ Spec.checkSeq t.block.rxFragOpen x = none) t.block

/-- R39, "No rule of this spec reads them before writing them": in a state that satisfies the invariant every
instruction ends in a next state, so no read of a register that holds no value is reached. -/
def Obligations.EveryInstructionCompletes : Prop :=
  ∀ (i : Instr) (s : State), s.Inv → ∃ t, exec i s = .next t

/-- R32 and R175: `rx_payload` never grows past `cfg_max_payload`, nor past `rx_len`; R34: `rx_msg_total` neither. -/
def Obligations.BufferedPayloadIsBounded : Prop :=
  ∀ (i : Instr) (s t : State) (m : U64), s.Inv → exec i s = .next t → t.block.cfgMaxPayload = some m →
    t.block.rxPayload.length ≤ m.toNat ∧ t.block.rxMsgTotal.toNat ≤ m.toNat
      ∧ ∀ l, t.block.rxState = .readingPayload → t.block.rxLen = some l → t.block.rxPayload.length < l.toNat

/-- R62: an encoder command and a receiver command in either order give the same two results and the same registers,
so any interleaving that keeps the order within each group does. -/
def Obligations.EncoderAndReceiverCommandsCommute : Prop :=
  ∀ (e r : Instr) (s s₁ s₂ : State), Spec.readsConfigurationOnly e = true → Spec.feedsReceiver r = true →
    exec e s = .next s₁ → exec r s₁ = .next s₂ →
      ∃ t₁ t₂, exec r s = .next t₁ ∧ exec e t₁ = .next t₂
        ∧ t₂.block = s₂.block ∧ t₁.result = s₂.result ∧ t₂.result = s₁.result

/-- No instruction changes what the host has issued behind it, each gives a result (R6: "It returns one result"), and
the instructions that hand the receiver bytes write no configuration register. -/
def Obligations.EveryInstructionGivesOneResult : Prop :=
  ∀ (i : Instr) (s t : State), exec i s = .next t →
    t.pending = s.pending ∧ t.result ≠ none ∧ (Spec.feedsReceiver i = true → t.block.SameConfig s.block)

/-- The numbers of R241 (reason codes 1 to 15, command errors 32 to 35), R26 (receiver states) and R22 (roles), in the
order of their tables, and the kind and close code R242 gives every reason a record can have. -/
def Obligations.NumbersAreThoseOfTheTables : Prop :=
  [Reason.rsv23Set, .badOpcode, .rsv1NotNegotiated, .rsv1Misplaced, .fragmentedControl, .unexpectedContinuation,
      .messageInProgress, .maskRequired, .maskForbidden, .controlTooLong, .length64Msb, .nonminimalLength,
      .frameTooLarge, .messageTooLarge, .lengthTooLarge].map Reason.code = List.range' 1 15
    ∧ [CmdErrorCode.notConfigured, .configLocked, .rxFailed, .badCommand].map CmdErrorCode.code = List.range' 32 4
    ∧ [RxState.readingHeader, .readingExtendedLength16, .readingExtendedLength64, .readingMask, .readingPayload,
      .dispatching, .failed].map (fun st => st.code.toNat) = List.range 7
    ∧ [Role.client, .server].map (fun r => r.code.toNat) = [0, 1]
    ∧ ∀ (r : Reason) (offset : U64), r.code ≤ 14 →
        errorRecord r offset
          = ⟨if r.code ≤ 12 then .protocolError else .payloadTooLarge, r, if r.code ≤ 12 then 1002 else 1009, offset⟩

/-- R37: the header flags are views of the latched header bytes, with no value before their byte is written, and no
instruction but RESET and the receiver's writes one. -/
def Obligations.HeaderFlagsAreViews : Prop :=
  (∀ (b : Block) (x : Byte), b.rxB0 = some x →
      b.finFlag = some (Spec.bitOf x 7) ∧ b.rsv1Flag = some (Spec.bitOf x 6) ∧ b.rsv2Flag = some (Spec.bitOf x 5)
        ∧ b.rsv3Flag = some (Spec.bitOf x 4) ∧ b.opcodeFlag = some (BitVec.ofNat 4 (Spec.opcodeOf x)))
    ∧ (∀ (b : Block) (y : Byte), b.rxB1 = some y →
      b.maskFlag = some (Spec.bitOf y 7) ∧ b.len7Flag = some (BitVec.ofNat 7 (Spec.len7Of y)))
    ∧ (∀ b : Block, b.rxB0 = none →
      b.finFlag = none ∧ b.rsv1Flag = none ∧ b.rsv2Flag = none ∧ b.rsv3Flag = none ∧ b.opcodeFlag = none)
    ∧ (∀ b : Block, b.rxB1 = none → b.maskFlag = none ∧ b.len7Flag = none)
    ∧ ∀ (i : Instr) (s t : State), i ≠ .reset → Spec.feedsReceiver i = false → exec i s = .next t →
        t.block.finFlag = s.block.finFlag ∧ t.block.rsv1Flag = s.block.rsv1Flag ∧ t.block.rsv2Flag = s.block.rsv2Flag
          ∧ t.block.rsv3Flag = s.block.rsv3Flag ∧ t.block.opcodeFlag = s.block.opcodeFlag
          ∧ t.block.maskFlag = s.block.maskFlag ∧ t.block.len7Flag = s.block.len7Flag
end

