-- ==== Sys2Proof/Laws/Bytes.lean ====
section
/-!
SUPPORT. The operand forms of Operands.lean: what each field of a packed header byte is, big-endian integers, key
bytes.
-/
namespace Sys2Proof

/-! Byte 0. -/

@[simp] theorem Byte0.fin_make (f a b c : Bool) (op : BitVec 4) : Byte0.fin (Byte0.make f a b c op) = f := by
  revert f a b c op; decide
@[simp] theorem Byte0.rsv1_make (f a b c : Bool) (op : BitVec 4) : Byte0.rsv1 (Byte0.make f a b c op) = a := by
  revert f a b c op; decide
@[simp] theorem Byte0.rsv2_make (f a b c : Bool) (op : BitVec 4) : Byte0.rsv2 (Byte0.make f a b c op) = b := by
  revert f a b c op; decide
@[simp] theorem Byte0.rsv3_make (f a b c : Bool) (op : BitVec 4) : Byte0.rsv3 (Byte0.make f a b c op) = c := by
  revert f a b c op; decide
@[simp] theorem Byte0.opcode_make (f a b c : Bool) (op : BitVec 4) : Byte0.opcode (Byte0.make f a b c op) = op := by
  revert f a b c op; decide

/-- A byte is the byte 0 of its own fields. -/
theorem Byte0.make_fields (b : Byte) :
    Byte0.make (Byte0.fin b) (Byte0.rsv1 b) (Byte0.rsv2 b) (Byte0.rsv3 b) (Byte0.opcode b) = b := by
  revert b; decide

/-! Byte 1. -/

@[simp] theorem Byte1.mask_make (m : Bool) (l : BitVec 7) : Byte1.mask (Byte1.make m l) = m := by
  revert m l; decide
@[simp] theorem Byte1.len7_make (m : Bool) (l : BitVec 7) : Byte1.len7 (Byte1.make m l) = l := by
  revert m l; decide

/-- A byte is the byte 1 of its own fields. -/
theorem Byte1.make_fields (b : Byte) : Byte1.make (Byte1.mask b) (Byte1.len7 b) = b := by
  revert b; decide

/-! Extended-length size. -/

theorem extBytes_eq_zero {l : BitVec 7} : extBytes l = 0 ↔ l.toNat ≤ 125 := by
  unfold extBytes; split
  · simp [*]
  · split <;> simp [*]

theorem extBytes_eq_two {l : BitVec 7} : extBytes l = 2 ↔ l.toNat = 126 := by
  unfold extBytes; split
  · simp; omega
  · split <;> simp [*]

theorem extBytes_eq_eight {l : BitVec 7} : extBytes l = 8 ↔ l.toNat = 127 := by
  have := l.isLt
  unfold extBytes; split
  · simp; omega
  · split
    · simp; omega
    · simp; omega

/-- The three sizes (R72). -/
theorem extBytes_cases (l : BitVec 7) : extBytes l = 0 ∨ extBytes l = 2 ∨ extBytes l = 8 := by
  unfold extBytes; split
  · simp
  · split <;> simp

/-! Big-endian integers. -/

theorem beNat_foldl (s : Bytes) (n : Nat) :
    s.foldl (fun n b => n * 256 + b.toNat) n = n * 256 ^ s.length + beNat s := by
  induction s generalizing n with
  | nil => simp [beNat]
  | cons b s ih =>
    simp only [List.foldl_cons, List.length_cons, beNat]
    rw [ih, ih (0 * 256 + b.toNat)]
    ring

@[simp] theorem beNat_nil : beNat [] = 0 := rfl

theorem beNat_cons (b : Byte) (s : Bytes) : beNat (b :: s) = b.toNat * 256 ^ s.length + beNat s := by
  rw [beNat, List.foldl_cons, beNat_foldl]
  simp

theorem beNat_append_singleton (s : Bytes) (b : Byte) : beNat (s ++ [b]) = beNat s * 256 + b.toNat := by
  simp [beNat]

/-- A sequence of `k` bytes is below 256^k. -/
theorem beNat_lt (s : Bytes) : beNat s < 256 ^ s.length := by
  induction s with
  | nil => simp
  | cons b s ih =>
    have hb := b.isLt
    rw [beNat_cons, List.length_cons, pow_succ]
    calc b.toNat * 256 ^ s.length + beNat s
        < b.toNat * 256 ^ s.length + 256 ^ s.length := by omega
      _ = (b.toNat + 1) * 256 ^ s.length := by ring
      _ ≤ 256 * 256 ^ s.length := Nat.mul_le_mul_right _ (by omega)
      _ = 256 ^ s.length * 256 := by ring

@[simp] theorem toBe_length (k n : Nat) : (toBe k n).length = k := by
  induction k with
  | zero => rfl
  | succ k ih => simp [toBe, ih]

/-- `to_be` and `be` are inverse (R10). -/
theorem beNat_toBe (k n : Nat) : beNat (toBe k n) = n % 256 ^ k := by
  induction k with
  | zero => simp [toBe, Nat.mod_one]
  | succ k ih =>
    rw [toBe, beNat_cons, ih, toBe_length, BitVec.toNat_ofNat]
    have h := Nat.mod_mul (x := n) (a := 256 ^ k) (b := 256)
    rw [show 256 ^ (k + 1) = 256 ^ k * 256 from pow_succ 256 k, h]
    ring

theorem beNat_toBe_of_lt {k n : Nat} (h : n < 256 ^ k) : beNat (toBe k n) = n := by
  rw [beNat_toBe, Nat.mod_eq_of_lt h]

/-- `toBe` gives back the bytes of a sequence of that length. -/
theorem toBe_beNat (s : Bytes) : toBe s.length (beNat s) = s := by
  induction s with
  | nil => rfl
  | cons b s ih =>
    have hs := beNat_lt s
    have hp : 0 < 256 ^ s.length := Nat.pow_pos (by omega)
    simp only [List.length_cons, toBe, beNat_cons]
    congr 1
    · rw [Nat.mul_comm, Nat.mul_add_div hp, Nat.div_eq_of_lt hs]
      apply BitVec.eq_of_toNat_eq
      simp
    · have : ∀ (k n m : Nat), toBe k (m * 256 ^ k + n) = toBe k n := by
        intro k
        induction k with
        | zero => intros; rfl
        | succ k ihk =>
          intro n m
          have hk : 0 < 256 ^ k := Nat.pow_pos (by omega)
          simp only [toBe]
          congr 1
          · apply BitVec.eq_of_toNat_eq
            have : m * 256 ^ (k + 1) + n = 256 ^ k * (m * 256) + n := by ring
            rw [this, BitVec.toNat_ofNat, BitVec.toNat_ofNat, Nat.mul_add_div hk]
            omega
          · have : m * 256 ^ (k + 1) + n = (m * 256) * 256 ^ k + n := by ring
            rw [this, ihk]
      rw [this, ih]

/-- Shifting a byte in is one step of big-endian accumulation, as long as no bit is lost (R177). -/
theorem shiftInByte_toNat {len : U64} {b : Byte} (h : len.toNat < 256 ^ 7) :
    (shiftInByte len b).toNat = len.toNat * 256 + b.toNat := by
  have hb := b.isLt
  unfold shiftInByte
  rw [BitVec.toNat_or, BitVec.toNat_shiftLeft, BitVec.toNat_setWidth]
  have h1 : len.toNat <<< 8 % 2 ^ 64 = len.toNat <<< 8 := by
    rw [Nat.shiftLeft_eq]; omega
  have h2 : b.toNat % 2 ^ 64 = b.toNat := Nat.mod_eq_of_lt (by omega)
  rw [h1, h2, ← Nat.shiftLeft_add_eq_or_of_lt (by omega), Nat.shiftLeft_eq]

/-! Key bytes. -/

@[simp] theorem Key.bytes_length (k : Key) : k.bytes.length = 4 := rfl

theorem Key.ofBytes_bytes_append (k : Key) (s : Bytes) : Key.ofBytes (k.bytes ++ s) = some k := rfl

@[simp] theorem Key.ofBytes_bytes (k : Key) : Key.ofBytes k.bytes = some k := rfl

/-- Only the index modulo 4 matters (R150). -/
theorem Key.byteAt_mod (k : Key) (i : Nat) : k.byteAt (i % 4) = k.byteAt i := by
  simp [Key.byteAt]

end Sys2Proof
end

