-- ==== Sys2Proof/Laws/State.lean ====
section
/-!
SUPPORT. What each update of the state does to each field, true by definition.
-/
namespace Sys2Proof.Machine

/-! `Block.reset` and `State.reset`. -/

@[simp] theorem Block.reset_cfgValid : Block.reset.cfgValid = false := rfl
@[simp] theorem Block.reset_cfgRole : Block.reset.cfgRole = none := rfl
@[simp] theorem Block.reset_cfgRsv1Allowed : Block.reset.cfgRsv1Allowed = none := rfl
@[simp] theorem Block.reset_cfgMaxPayload : Block.reset.cfgMaxPayload = none := rfl
@[simp] theorem Block.reset_cfgStrictMinlen : Block.reset.cfgStrictMinlen = none := rfl
@[simp] theorem Block.reset_rxState : Block.reset.rxState = .readingHeader := rfl
@[simp] theorem Block.reset_rxCnt : Block.reset.rxCnt = 0 := rfl
@[simp] theorem Block.reset_rxB0 : Block.reset.rxB0 = none := rfl
@[simp] theorem Block.reset_rxB1 : Block.reset.rxB1 = none := rfl
@[simp] theorem Block.reset_rxLen : Block.reset.rxLen = none := rfl
@[simp] theorem Block.reset_rxKey : Block.reset.rxKey = ⟨none, none, none, none⟩ := rfl
@[simp] theorem Block.reset_rxPayload : Block.reset.rxPayload = [] := rfl
@[simp] theorem Block.reset_rxFragOpen : Block.reset.rxFragOpen = false := rfl
@[simp] theorem Block.reset_rxMsgTotal : Block.reset.rxMsgTotal = 0 := rfl
@[simp] theorem Block.reset_rxOffset : Block.reset.rxOffset = 0 := rfl
@[simp] theorem Block.reset_rxErr : Block.reset.rxErr = none := rfl
@[simp] theorem State.reset_block : State.reset.block = Block.reset := rfl
@[simp] theorem State.reset_pending : State.reset.pending = [] := rfl
@[simp] theorem State.reset_result : State.reset.result = none := rfl
@[simp] theorem resetRegisters_eq (b : Block) : resetRegisters b = Block.reset := rfl

/-! `fail` writes `rx_err` and `rx_state` only (R246). -/

@[simp] theorem fail_cfgValid (r : Reason) (b : Block) : (fail r b).1.cfgValid = b.cfgValid := rfl
@[simp] theorem fail_cfgRole (r : Reason) (b : Block) : (fail r b).1.cfgRole = b.cfgRole := rfl
@[simp] theorem fail_cfgRsv1Allowed (r : Reason) (b : Block) : (fail r b).1.cfgRsv1Allowed = b.cfgRsv1Allowed := rfl
@[simp] theorem fail_cfgMaxPayload (r : Reason) (b : Block) : (fail r b).1.cfgMaxPayload = b.cfgMaxPayload := rfl
@[simp] theorem fail_cfgStrictMinlen (r : Reason) (b : Block) : (fail r b).1.cfgStrictMinlen = b.cfgStrictMinlen := rfl
@[simp] theorem fail_rxState (r : Reason) (b : Block) : (fail r b).1.rxState = .failed := rfl
@[simp] theorem fail_rxCnt (r : Reason) (b : Block) : (fail r b).1.rxCnt = b.rxCnt := rfl
@[simp] theorem fail_rxB0 (r : Reason) (b : Block) : (fail r b).1.rxB0 = b.rxB0 := rfl
@[simp] theorem fail_rxB1 (r : Reason) (b : Block) : (fail r b).1.rxB1 = b.rxB1 := rfl
@[simp] theorem fail_rxLen (r : Reason) (b : Block) : (fail r b).1.rxLen = b.rxLen := rfl
@[simp] theorem fail_rxKey (r : Reason) (b : Block) : (fail r b).1.rxKey = b.rxKey := rfl
@[simp] theorem fail_rxPayload (r : Reason) (b : Block) : (fail r b).1.rxPayload = b.rxPayload := rfl
@[simp] theorem fail_rxFragOpen (r : Reason) (b : Block) : (fail r b).1.rxFragOpen = b.rxFragOpen := rfl
@[simp] theorem fail_rxMsgTotal (r : Reason) (b : Block) : (fail r b).1.rxMsgTotal = b.rxMsgTotal := rfl
@[simp] theorem fail_rxOffset (r : Reason) (b : Block) : (fail r b).1.rxOffset = b.rxOffset := rfl
@[simp] theorem fail_rxErr (r : Reason) (b : Block) : (fail r b).1.rxErr = some (errorRecord r b.rxOffset) := rfl
@[simp] theorem fail_events (r : Reason) (b : Block) : (fail r b).2 = [.error (errorRecord r b.rxOffset)] := rfl

/-! The error record (R47, R242). -/

@[simp] theorem errorRecord_kind (r : Reason) (o : U64) : (errorRecord r o).kind = r.kind := rfl
@[simp] theorem errorRecord_reason (r : Reason) (o : U64) : (errorRecord r o).reason = r := rfl
@[simp] theorem errorRecord_closeCode (r : Reason) (o : U64) : (errorRecord r o).closeCode = r.kind.closeCode := rfl
@[simp] theorem errorRecord_offset (r : Reason) (o : U64) : (errorRecord r o).offset = o := rfl

/-! `attachConfig` writes the configuration registers only (R221). -/

@[simp] theorem attachConfig_cfgValid (b : Block) (c : Config) : (attachConfig b c).cfgValid = true := rfl
@[simp] theorem attachConfig_cfgRole (b : Block) (c : Config) : (attachConfig b c).cfgRole = some c.role := rfl
@[simp] theorem attachConfig_cfgRsv1Allowed (b : Block) (c : Config) : (attachConfig b c).cfgRsv1Allowed = some c.rsv1Allowed := rfl
@[simp] theorem attachConfig_cfgMaxPayload (b : Block) (c : Config) : (attachConfig b c).cfgMaxPayload = some c.maxPayload := rfl
@[simp] theorem attachConfig_cfgStrictMinlen (b : Block) (c : Config) : (attachConfig b c).cfgStrictMinlen = some c.strictMinlen := rfl
@[simp] theorem attachConfig_rxState (b : Block) (c : Config) : (attachConfig b c).rxState = b.rxState := rfl
@[simp] theorem attachConfig_rxCnt (b : Block) (c : Config) : (attachConfig b c).rxCnt = b.rxCnt := rfl
@[simp] theorem attachConfig_rxB0 (b : Block) (c : Config) : (attachConfig b c).rxB0 = b.rxB0 := rfl
@[simp] theorem attachConfig_rxB1 (b : Block) (c : Config) : (attachConfig b c).rxB1 = b.rxB1 := rfl
@[simp] theorem attachConfig_rxLen (b : Block) (c : Config) : (attachConfig b c).rxLen = b.rxLen := rfl
@[simp] theorem attachConfig_rxKey (b : Block) (c : Config) : (attachConfig b c).rxKey = b.rxKey := rfl
@[simp] theorem attachConfig_rxPayload (b : Block) (c : Config) : (attachConfig b c).rxPayload = b.rxPayload := rfl
@[simp] theorem attachConfig_rxFragOpen (b : Block) (c : Config) : (attachConfig b c).rxFragOpen = b.rxFragOpen := rfl
@[simp] theorem attachConfig_rxMsgTotal (b : Block) (c : Config) : (attachConfig b c).rxMsgTotal = b.rxMsgTotal := rfl
@[simp] theorem attachConfig_rxOffset (b : Block) (c : Config) : (attachConfig b c).rxOffset = b.rxOffset := rfl
@[simp] theorem attachConfig_rxErr (b : Block) (c : Config) : (attachConfig b c).rxErr = b.rxErr := rfl

/-! Completing a command, answering without a write, issuing a word. -/

@[simp] theorem State.complete_ok (s : State) (b : Block) (r : Result) :
    s.complete (.ok (b, r)) = .next { s with block := b, result := some r } := rfl
@[simp] theorem State.complete_error (s : State) (f : Fault) : s.complete (.error f) = .fault f := rfl
@[simp] theorem State.answer_ok (s : State) (r : Result) :
    s.answer (.ok r) = .next { s with result := some r } := rfl
@[simp] theorem State.answer_error (s : State) (f : Fault) : s.answer (.error f) = .fault f := rfl
@[simp] theorem State.issue_block (s : State) (w : HostWord) : (s.issue w).block = s.block := rfl
@[simp] theorem State.issue_pending (s : State) (w : HostWord) : (s.issue w).pending = w :: s.pending := rfl
@[simp] theorem State.issue_result (s : State) (w : HostWord) : (s.issue w).result = s.result := rfl

end Sys2Proof.Machine
end

