-- ==== Sys2Proof/Laws/Ops.lean ====
section
/-!
SUPPORT. One lemma for each shared operation of Ops.lean: what it answers.
-/
namespace Sys2Proof.Machine

/-! `Except`, as the meanings use it. -/

@[simp] theorem except_ok_bind {ε α β : Type} (a : α) (f : α → Except ε β) : ((Except.ok a : Except ε α) >>= f) = f a := rfl
@[simp] theorem except_error_bind {ε α β : Type} (e : ε) (f : α → Except ε β) :
    ((Except.error e : Except ε α) >>= f) = .error e := rfl
@[simp] theorem except_map_ok {ε α β : Type} (a : α) (f : α → β) : (Except.ok a : Except ε α).map f = .ok (f a) := rfl
@[simp] theorem except_map_error {ε α β : Type} (e : ε) (f : α → β) : (Except.error e : Except ε α).map f = .error e := rfl

/-- A sequence answers a value exactly when its first part does and its second does on that value. -/
theorem except_bind_eq_ok {ε α β : Type} {x : Except ε α} {f : α → Except ε β} {b : β} :
    (x >>= f) = .ok b ↔ ∃ a, x = .ok a ∧ f a = .ok b := by
  cases x <;> simp

theorem except_map_eq_ok {ε α β : Type} {x : Except ε α} {f : α → β} {b : β} :
    x.map f = .ok b ↔ ∃ a, x = .ok a ∧ f a = b := by
  cases x <;> simp

/-! Reads. -/

@[simp] theorem readReg_some {α : Type} (n : RegName) (v : α) : readReg n (some v) = .ok v := rfl
@[simp] theorem readReg_none {α : Type} (n : RegName) : readReg n (none : Option α) = .error (.unwritten n) := rfl

/-- A read answers a value exactly when the register holds it (R39). -/
theorem readReg_eq_ok {α : Type} {n : RegName} {r : Option α} {v : α} : readReg n r = .ok v ↔ r = some v := by
  cases r <;> simp

/-! `rx_key`. -/

/-- Writing byte `i` of `rx_key` sets that byte and leaves the others (R179). -/
theorem KeyRegs.write_byteAt {k k' : KeyRegs} {i : Nat} {x : Byte} (h : k.write i x = .ok k') :
    i < 4 ∧ ∀ j < 4, k'.byteAt j = if j = i then some x else k.byteAt j := by
  match i, h with
  | 0, h | 1, h | 2, h | 3, h =>
    cases h
    refine ⟨by omega, fun j hj => ?_⟩
    match j, hj with
    | 0, _ | 1, _ | 2, _ | 3, _ => rfl

theorem KeyRegs.write_ok {i : Nat} (h : i < 4) (k : KeyRegs) (x : Byte) : ∃ k', k.write i x = .ok k' := by
  match i, h with
  | 0, _ | 1, _ | 2, _ | 3, _ => exact ⟨_, rfl⟩

/-- `rx_key` is whole when its four bytes are written. -/
theorem KeyRegs.whole_of_written {k : KeyRegs} (h : ∀ i < 4, (k.byteAt i).isSome = true) : ∃ key, k.whole = some key := by
  obtain ⟨a, ha⟩ := Option.isSome_iff_exists.mp (h 0 (by omega))
  obtain ⟨b, hb⟩ := Option.isSome_iff_exists.mp (h 1 (by omega))
  obtain ⟨c, hc⟩ := Option.isSome_iff_exists.mp (h 2 (by omega))
  obtain ⟨d, hd⟩ := Option.isSome_iff_exists.mp (h 3 (by omega))
  simp only [KeyRegs.byteAt] at ha hb hc hd
  exact ⟨⟨a, b, c, d⟩, by simp_all [KeyRegs.whole]⟩

/-- The registers of a whole key hold its bytes. -/
theorem KeyRegs.whole_eq_some {k : KeyRegs} {key : Key} :
    k.whole = some key ↔ k = ⟨some key.k0, some key.k1, some key.k2, some key.k3⟩ := by
  constructor
  · intro h
    unfold KeyRegs.whole at h
    split at h
    · cases h
      cases k
      simp_all
    · cases h
  · rintro rfl
    rfl

theorem KeyRegs.byteAt_of_whole {k : KeyRegs} {key : Key} (h : k.whole = some key) (i : Nat) :
    k.byteAt i = some (key.byteAt i) := by
  rw [KeyRegs.whole_eq_some] at h
  subst h
  unfold KeyRegs.byteAt Key.byteAt
  generalize i % 4 = j
  match j with
  | 0 | 1 | 2 | _ + 3 => rfl

/-! Completing. -/

/-- A command that ends in a next state ended in registers and a result; the pending words are left. -/
theorem State.complete_eq_next {s t : State} {d : Done} :
    s.complete d = .next t ↔ ∃ b r, d = .ok (b, r) ∧ t = { s with block := b, result := some r } := by
  cases d with
  | error f => simp [State.complete]
  | ok p =>
    obtain ⟨b, r⟩ := p
    simp [State.complete, eq_comm]

theorem State.answer_eq_next {s t : State} {d : Except Fault Result} :
    s.answer d = .next t ↔ ∃ r, d = .ok r ∧ t = { s with result := some r } := by
  cases d with
  | error f => simp [State.answer, State.complete]
  | ok r => simp [State.answer, State.complete, eq_comm]

/-! Fetching. -/

/-- What `fetch` answers: the first issued word's instruction, and the state without that word. -/
theorem fetch_eq_ok {s s' : State} {i : Instr} :
    fetch s = .ok (i, s') ↔
      ∃ w rest, s.pending = w :: rest ∧ decode w = .ok i ∧ s' = { s with pending := rest } := by
  cases hp : s.pending with
  | nil => simp [fetch, hp]
  | cons w rest =>
    cases hd : decode w with
    | error e =>
      simp only [fetch, hp, hd, List.cons.injEq]
      constructor
      · rintro ⟨⟩
      · rintro ⟨w', rest', ⟨rfl, rfl⟩, h, -⟩
        rw [hd] at h
        cases h
    | ok i' =>
      simp only [fetch, hp, hd, Except.ok.injEq, Prod.mk.injEq, List.cons.injEq]
      constructor
      · rintro ⟨rfl, rfl⟩
        exact ⟨w, rest, ⟨rfl, rfl⟩, hd, rfl⟩
      · rintro ⟨w', rest', ⟨rfl, rfl⟩, h, rfl⟩
        rw [hd] at h
        cases h
        exact ⟨rfl, rfl⟩

/-- A step that answers a next state ran the instruction it fetched. -/
theorem step_eq_next {s t : State} :
    step s = .next t ↔ ∃ i s', fetch s = .ok (i, s') ∧ exec i s' = .next t := by
  unfold step
  cases h : fetch s with
  | error r => simp
  | ok p =>
    obtain ⟨i, s'⟩ := p
    simp

end Sys2Proof.Machine
end

