-- ==== Sys2Proof/Laws/Receiver.lean ====
section
/-!
SUPPORT. The receiver: each helper's answer once the registers it reads hold values, and `receiveByte_outcome`, which
says once everything a byte can do in a state that satisfies the invariant. Later proofs cite these and unfold no
helper.
-/
namespace Sys2Proof.Machine

/-! The reasons the receiver's checks answer are 1..14 (R241): LENGTH_TOO_LARGE is the encoder's alone. -/

theorem hdrCheck0_ne_lengthTooLarge {a : Bool} {x : Byte} {r : Reason} (h : hdrCheck0 a x = some r) :
    r ≠ .lengthTooLarge := by
  unfold hdrCheck0 at h
  repeat' split at h
  all_goals first | (cases h; simp) | cases h

theorem seqCheck_ne_lengthTooLarge {a : Bool} {x : Byte} {r : Reason} (h : seqCheck a x = some r) :
    r ≠ .lengthTooLarge := by
  unfold seqCheck at h
  repeat' split at h
  all_goals first | (cases h; simp) | cases h

theorem hdrCheck1_ne_lengthTooLarge {a : Role} {x y : Byte} {r : Reason} (h : hdrCheck1 a x y = some r) :
    r ≠ .lengthTooLarge := by
  unfold hdrCheck1 at h
  repeat' split at h
  all_goals first | (cases h; simp) | cases h

theorem lenCheck_ne_lengthTooLarge {a : Bool} {e n : Nat} {r : Reason} (h : lenCheck a e n = some r) :
    r ≠ .lengthTooLarge := by
  unfold lenCheck at h
  repeat' split at h
  all_goals first | (cases h; simp) | cases h

theorem sizeCheck_ne_lengthTooLarge {m : U64} {x : Byte} {t l : U64} {r : Reason} (h : sizeCheck m x t l = some r) :
    r ≠ .lengthTooLarge := by
  unfold sizeCheck at h
  repeat' split at h
  all_goals first | (cases h; simp) | cases h

/-- An opcode that passes HdrCheck0 names a frame type (R76, R103). -/
theorem recognized_of_hdrCheck0 {a : Bool} {x : Byte} (h : hdrCheck0 a x = none) :
    Opcode.recognized (Byte0.opcode x) = true := by
  revert a x
  decide

/-- SizeCheck passes exactly when the frame, and for a data frame the message with it, is within the limit (R175). -/
theorem sizeCheck_eq_none {m : U64} {x : Byte} {t l : U64} :
    sizeCheck m x t l = none ↔
      l.toNat ≤ m.toNat ∧ (Opcode.isControl (Byte0.opcode x) = false → t.toNat + l.toNat ≤ m.toNat) := by
  unfold sizeCheck
  by_cases h1 : m.toNat < l.toNat
  · simp only [if_pos h1]
    simp [Nat.not_le.mpr h1]
  · rw [if_neg h1]
    cases hc : Opcode.isControl (Byte0.opcode x)
    · by_cases h2 : m.toNat < t.toNat + l.toNat
      · simp [h2]
      · simp [h2]
        omega
    · simp
      omega

/-! The registers no helper writes before dispatch. -/

/-- `b'` has the configuration, the message registers, the offset and the error register of `b`. -/
structure Kept (b b' : Block) : Prop where
  cfgValid : b'.cfgValid = b.cfgValid
  cfgRole : b'.cfgRole = b.cfgRole
  cfgRsv1Allowed : b'.cfgRsv1Allowed = b.cfgRsv1Allowed
  cfgMaxPayload : b'.cfgMaxPayload = b.cfgMaxPayload
  cfgStrictMinlen : b'.cfgStrictMinlen = b.cfgStrictMinlen
  rxFragOpen : b'.rxFragOpen = b.rxFragOpen
  rxMsgTotal : b'.rxMsgTotal = b.rxMsgTotal
  rxOffset : b'.rxOffset = b.rxOffset
  rxErr : b'.rxErr = b.rxErr

theorem Kept.configuredAs {b b' : Block} {c : Config} (k : Kept b b') (h : b.ConfiguredAs c) : b'.ConfiguredAs c := by
  obtain ⟨h1, h2, h3, h4, h5⟩ := h
  exact ⟨k.cfgValid.trans h1, k.cfgRole.trans h2, k.cfgRsv1Allowed.trans h3, k.cfgMaxPayload.trans h4,
    k.cfgStrictMinlen.trans h5⟩

theorem Kept.messageInv {b b' : Block} {c : Config} (k : Kept b b') (h : b.MessageInv c) : b'.MessageInv c := by
  unfold Block.MessageInv at *
  rwa [k.rxFragOpen, k.rxMsgTotal]

theorem Kept.byte0Accepted {b b' : Block} {c : Config} {x : Byte} (k : Kept b b') (h0 : b'.rxB0 = b.rxB0)
    (h : b.Byte0Accepted c x) : b'.Byte0Accepted c x := by
  unfold Block.Byte0Accepted at *
  rwa [h0, k.rxFragOpen]

theorem Kept.lengthAccepted {b b' : Block} {c : Config} {x y : Byte} {l : U64} (k : Kept b b')
    (h0 : b'.rxLen = b.rxLen) (h : b.LengthAccepted c x y l) : b'.LengthAccepted c x y l := by
  unfold Block.LengthAccepted at *
  rwa [h0, k.rxMsgTotal]

/-! What one byte can do. -/

/-- The byte is taken and the frame goes on: no event, and the receiver is in a reading state. -/
def Goes (b b' : Block) (events : List Event) : Prop :=
  events = [] ∧ b'.rxState ≠ .failed ∧ Kept b b'

/-- The byte fails a check (R246): one `Error`, the record made from the byte's offset. -/
def Fails (b b' : Block) (events : List Event) : Prop :=
  ∃ r, r ≠ .lengthTooLarge ∧ events = [.error (errorRecord r b.rxOffset)] ∧ b'.rxState = .failed
    ∧ b'.rxErr = some (errorRecord r b.rxOffset)
    ∧ b'.rxFragOpen = b.rxFragOpen ∧ b'.rxMsgTotal = b.rxMsgTotal

/-- The byte ends a frame (R182, R183): one `FrameOut`, the frame boundary, the message registers updated. -/
def Dispatches (b b' : Block) (events : List Event) : Prop :=
  ∃ x y l key payload, events = [.frameOut (makeHeader x y l key) payload]
    ∧ payload.length = l.toNat ∧ key.isSome = Byte1.mask y ∧ Opcode.recognized (Byte0.opcode x) = true
    ∧ b'.rxState = .readingHeader ∧ b'.rxCnt = 0 ∧ b'.rxPayload = [] ∧ b'.rxErr = b.rxErr
    ∧ b'.rxB0 = some x ∧ b'.rxB1 = some y ∧ b'.rxLen = some l
    ∧ (Opcode.isControl (Byte0.opcode x) = true → b'.rxFragOpen = b.rxFragOpen ∧ b'.rxMsgTotal = b.rxMsgTotal)
    ∧ (Opcode.isControl (Byte0.opcode x) = false → Byte0.fin x = true → b'.rxFragOpen = false ∧ b'.rxMsgTotal = 0)
    ∧ (Opcode.isControl (Byte0.opcode x) = false → Byte0.fin x = false →
        b'.rxFragOpen = true ∧ b'.rxMsgTotal.toNat = b.rxMsgTotal.toNat + l.toNat)

/-- Everything a byte can do in a configured state that satisfies the invariant and is not `Failed`. -/
def ByteOutcome (c : Config) (b b' : Block) (events : List Event) : Prop :=
  b'.ConfiguredAs c ∧ b'.ReceiverInv c ∧ b'.rxOffset = b.rxOffset
    ∧ (Goes b b' events ∨ Fails b b' events ∨ Dispatches b b' events)

section
variable {c : Config} {b b₁ : Block} {x y : Byte} {l : U64}

/-- A failing check after writes that keep `Kept` and the empty payload. -/
theorem fail_outcome {r : Reason} (hc : b.ConfiguredAs c) (hm : b.MessageInv c) (k : Kept b b₁)
    (hp : b₁.rxPayload = []) (hr : r ≠ .lengthTooLarge) : ByteOutcome c b (fail r b₁).1 (fail r b₁).2 := by
  have ho : b₁.rxOffset = b.rxOffset := k.rxOffset
  refine ⟨?_, ⟨?_, ?_, ?_⟩, ?_, Or.inr (Or.inl ⟨r, hr, ?_, rfl, ?_, k.rxFragOpen, k.rxMsgTotal⟩)⟩
  · exact k.configuredAs hc
  · simpa [Block.PhaseInv] using hp
  · refine ⟨by simp, ?_⟩
    intro e he
    simp only [fail_rxErr, Option.some.injEq] at he
    subst he
    exact ⟨hr, rfl⟩
  · exact k.messageInv hm
  · exact ho
  · simp [ho]
  · simp [ho]

/-- Going on in a reading state other than `ReadingHeader`'s start. -/
theorem goes_outcome (hc : b.ConfiguredAs c) (he : b.ErrorInv) (hm : b.MessageInv c) (k : Kept b b₁)
    (hs : b.rxState ≠ .failed) (hs₁ : b₁.rxState ≠ .failed) (hp : b₁.PhaseInv c) : ByteOutcome c b b₁ [] := by
  refine ⟨k.configuredAs hc, ⟨hp, ⟨?_, ?_⟩, k.messageInv hm⟩, k.rxOffset, Or.inl ⟨rfl, hs₁, k⟩⟩
  · rw [k.rxErr, he.1]
    exact ⟨fun _ => hs₁, fun _ => hs⟩
  · rw [k.rxErr]
    exact he.2

/-- The answer of Dispatch() (R182) once the frame's registers hold values. -/
theorem dispatch_eq {key : Option Key} (h0 : b.rxB0 = some x) (h1 : b.rxB1 = some y) (hl : b.rxLen = some l)
    (hk : if Byte1.mask y = true then key.isSome = true ∧ b.rxKey.whole = key else key = none) :
    dispatch b = .ok ({ fragUpdate x l { b with rxState := .dispatching } with
        rxState := .readingHeader, rxCnt := 0, rxPayload := [] },
      [.frameOut (makeHeader x y l key) b.rxPayload]) := by
  cases hy : Byte1.mask y
  · simp [hy] at hk
    simp [dispatch, Block.readB0, Block.readB1, Block.readLen, h0, h1, hl, hy, hk]
  · simp [hy] at hk
    obtain ⟨hk1, hk2⟩ := hk
    obtain ⟨k, rfl⟩ := Option.isSome_iff_exists.mp hk1
    simp [dispatch, Block.readB0, Block.readB1, Block.readLen, Block.readKey, h0, h1, hl, hy, hk2]

/-- Dispatch in a state whose frame is complete. -/
theorem dispatch_outcome (hc : b.ConfiguredAs c) (he : b.ErrorInv) (hm : b.MessageInv c) (hs : b.rxState ≠ .failed)
    (k : Kept b b₁) (h0 : b₁.Byte0Accepted c x) (h1 : b₁.Byte1Accepted c x y) (hl : b₁.LengthAccepted c x y l)
    (hlen : b₁.rxPayload.length = l.toNat) (hk : Byte1.mask y = true → ∃ key, b₁.rxKey.whole = some key) :
    ∃ b' events, dispatch b₁ = .ok (b', events) ∧ ByteOutcome c b b' events := by
  obtain ⟨key, hkey, hsome⟩ : ∃ key : Option Key,
      (if Byte1.mask y = true then key.isSome = true ∧ b₁.rxKey.whole = key else key = none)
        ∧ key.isSome = Byte1.mask y := by
    cases hy : Byte1.mask y
    · exact ⟨none, by simp, by simp⟩
    · obtain ⟨key, hk⟩ := hk hy
      exact ⟨some key, by simp [hk], by simp⟩
  refine ⟨_, _, dispatch_eq h0.1 h1.1 hl.1 hkey, ?_⟩
  have hrec := recognized_of_hdrCheck0 h0.2.1
  have hsize := sizeCheck_eq_none.mp hl.2.2.2
  have hcfg := k.configuredAs hc
  have hmsg := k.messageInv hm
  have hadd : Opcode.isControl (Byte0.opcode x) = false →
      (b₁.rxMsgTotal + l).toNat = b.rxMsgTotal.toNat + l.toNat := by
    intro hx
    have := hsize.2 hx
    have hmax := c.maxPayload.isLt
    rw [BitVec.toNat_add, k.rxMsgTotal] at *
    exact Nat.mod_eq_of_lt (by omega)
  have herr : b₁.rxErr = none := by
    rw [k.rxErr]
    exact he.1.mpr hs
  cases hx : Opcode.isControl (Byte0.opcode x)
  · cases hf : Byte0.fin x
    · refine ⟨?_, ⟨?_, ?_, ?_⟩, ?_, Or.inr (Or.inr ⟨x, y, l, key, b₁.rxPayload, rfl, hlen, hsome, hrec, ?_⟩)⟩
      · simp only [fragUpdate, hx, hf]
        exact hcfg
      · simp [Block.PhaseInv]
      · simp [Block.ErrorInv, fragUpdate, hx, hf, herr]
      · refine ⟨by simp [fragUpdate, hx, hf], ?_⟩
        have := hsize.2 hx
        have h2 := hadd hx
        simp only [fragUpdate, hx, hf, if_neg (by simp : ¬ (false = true))]
        rw [h2, ← k.rxMsgTotal]
        exact this
      · simpa [fragUpdate, hx, hf] using k.rxOffset
      · have h2 := hadd hx
        simp [fragUpdate, hx, hf, h0.1, h1.1, hl.1, k.rxErr] at h2 ⊢
        exact h2
    · refine ⟨?_, ⟨?_, ?_, ?_⟩, ?_, Or.inr (Or.inr ⟨x, y, l, key, b₁.rxPayload, rfl, hlen, hsome, hrec, ?_⟩)⟩
      · simp only [fragUpdate, hx, hf]
        exact hcfg
      · simp [Block.PhaseInv]
      · simp [Block.ErrorInv, fragUpdate, hx, hf, herr]
      · simp [Block.MessageInv, fragUpdate, hx, hf]
      · simpa [fragUpdate, hx, hf] using k.rxOffset
      · simp [fragUpdate, hx, hf, h0.1, h1.1, hl.1, k.rxErr]
  · refine ⟨?_, ⟨?_, ?_, ?_⟩, ?_, Or.inr (Or.inr ⟨x, y, l, key, b₁.rxPayload, rfl, hlen, hsome, hrec, ?_⟩)⟩
    · simp only [fragUpdate, hx]
      exact hcfg
    · simp [Block.PhaseInv]
    · simp [Block.ErrorInv, fragUpdate, hx, herr]
    · simp only [fragUpdate, hx]
      exact hmsg
    · simpa [fragUpdate, hx] using k.rxOffset
    · simp [fragUpdate, hx, h0.1, h1.1, hl.1, k.rxErr, k.rxFragOpen, k.rxMsgTotal]

/-- EnterPayload() (R180) behind an accepted length and a complete key. -/
theorem enterPayload_outcome (hc : b.ConfiguredAs c) (he : b.ErrorInv) (hm : b.MessageInv c)
    (hs : b.rxState ≠ .failed) (k : Kept b b₁) (h0 : b₁.Byte0Accepted c x) (h1 : b₁.Byte1Accepted c x y)
    (hl : b₁.LengthAccepted c x y l) (hk : Byte1.mask y = true → ∃ key, b₁.rxKey.whole = some key) :
    ∃ b' events, enterPayload b₁ = .ok (b', events) ∧ ByteOutcome c b b' events := by
  have hlen : b₁.readLen = .ok l := by simp [Block.readLen, hl.1]
  by_cases hz : l = 0
  · have k' : Kept b { b₁ with rxCnt := 0, rxPayload := [] } := ⟨k.1, k.2, k.3, k.4, k.5, k.6, k.7, k.8, k.9⟩
    obtain ⟨b', events, hd, ho⟩ := dispatch_outcome (b₁ := { b₁ with rxCnt := 0, rxPayload := [] }) hc he hm hs k'
      h0 h1 hl (by simp [hz]) hk
    exact ⟨b', events, by simpa [enterPayload, hlen, hz] using hd, ho⟩
  · refine ⟨{ b₁ with rxCnt := 0, rxPayload := [], rxState := .readingPayload }, [], ?_, ?_⟩
    · simp only [enterPayload, hlen, except_ok_bind, if_neg hz]
    · refine goes_outcome hc he hm ⟨k.1, k.2, k.3, k.4, k.5, k.6, k.7, k.8, k.9⟩ hs (by simp) ?_
      refine ⟨x, y, l, h0, h1, hl, ?_, rfl, hk⟩
      have : l.toNat ≠ 0 := fun h => hz (BitVec.eq_of_toNat_eq h)
      simp
      omega

/-- AfterLength() (R178) behind an accepted length. -/
theorem afterLength_outcome (hc : b.ConfiguredAs c) (he : b.ErrorInv) (hm : b.MessageInv c)
    (hs : b.rxState ≠ .failed) (k : Kept b b₁) (hp : b₁.rxPayload = []) (h0 : b₁.Byte0Accepted c x)
    (h1 : b₁.Byte1Accepted c x y) (hl : b₁.LengthAccepted c x y l) :
    ∃ b' events, afterLength b₁ = .ok (b', events) ∧ ByteOutcome c b b' events := by
  cases hy : Byte1.mask y
  · obtain ⟨b', events, hd, ho⟩ := enterPayload_outcome hc he hm hs k h0 h1 hl (by simp [hy])
    exact ⟨b', events, by simpa [afterLength, Block.readB1, h1.1, hy] using hd, ho⟩
  · refine ⟨{ b₁ with rxState := .readingMask, rxCnt := 0 }, [], ?_, ?_⟩
    · simp [afterLength, Block.readB1, h1.1, hy]
    · refine goes_outcome hc he hm ⟨k.1, k.2, k.3, k.4, k.5, k.6, k.7, k.8, k.9⟩ hs (by simp) ?_
      exact ⟨hp, x, y, l, h0, h1, hl, hy, by simp, by simp⟩

/-- SizeCheck() on the registers. -/
theorem checkSize_eq (hc : b.ConfiguredAs c) (h0 : b.rxB0 = some x) (hl : b.rxLen = some l) :
    b.checkSize = .ok (sizeCheck c.maxPayload x b.rxMsgTotal l) := by
  simp [Block.checkSize, Block.readMaxPayload, Block.readB0, Block.readLen, hc.2.2.2.1, h0, hl]

/-- Byte0(b) (R172). -/
theorem byte0_eq (hc : b.ConfiguredAs c) :
    byte0 x b = .ok (match (hdrCheck0 c.rsv1Allowed x).or (seqCheck b.rxFragOpen x) with
      | some r => fail r { b with rxB0 := some x }
      | none => ({ b with rxB0 := some x, rxCnt := 1 }, [])) := by
  have hr : b.readRsv1Allowed = .ok c.rsv1Allowed := by simp [Block.readRsv1Allowed, hc.2.2.1]
  simp only [byte0, hr, except_ok_bind]
  cases (hdrCheck0 c.rsv1Allowed x).or (seqCheck b.rxFragOpen x) <;> rfl

theorem byte0_outcome (hc : b.ConfiguredAs c) (hi : b.ReceiverInv c) (hs : b.rxState = .readingHeader) :
    ∃ b' events, byte0 x b = .ok (b', events) ∧ ByteOutcome c b b' events := by
  obtain ⟨hp, he, hm⟩ := hi
  have hs' : b.rxState ≠ .failed := by simp [hs]
  simp only [Block.PhaseInv, hs] at hp
  rw [byte0_eq hc]
  refine ⟨_, _, rfl, ?_⟩
  split
  · rename_i r hr
    refine fail_outcome hc hm ⟨rfl, rfl, rfl, rfl, rfl, rfl, rfl, rfl, rfl⟩ hp.1 ?_
    cases h : hdrCheck0 c.rsv1Allowed x with
    | some r' =>
      simp [h] at hr
      subst hr
      exact hdrCheck0_ne_lengthTooLarge h
    | none =>
      simp [h] at hr
      exact seqCheck_ne_lengthTooLarge hr
  · rename_i hr
    simp at hr
    refine goes_outcome hc he hm ⟨rfl, rfl, rfl, rfl, rfl, rfl, rfl, rfl, rfl⟩ hs' (by simp [hs]) ?_
    simp only [Block.PhaseInv, hs]
    exact ⟨hp.1, Or.inr ⟨trivial, x, rfl, hr.1, hr.2⟩⟩

/-- Byte1(b) (R174). -/
theorem byte1_eq (hc : b.ConfiguredAs c) (h0 : b.rxB0 = some x) :
    byte1 y b =
      match hdrCheck1 c.role x y with
      | some r => .ok (fail r { b with rxB1 := some y })
      | none =>
        if (Byte1.len7 y).toNat ≤ maxShortLength then
          match sizeCheck c.maxPayload x b.rxMsgTotal ((Byte1.len7 y).setWidth 64) with
          | some r => .ok (fail r { b with rxB1 := some y, rxLen := some ((Byte1.len7 y).setWidth 64) })
          | none => afterLength { b with rxB1 := some y, rxLen := some ((Byte1.len7 y).setWidth 64) }
        else
          .ok ({ b with
            rxB1 := some y
            rxState := if (Byte1.len7 y).toNat = 126 then .readingExtendedLength16 else .readingExtendedLength64
            rxCnt := 0
            rxLen := some 0 }, []) := by
  have hc' : ({ b with rxB1 := some y, rxLen := some ((Byte1.len7 y).setWidth 64) } : Block).ConfiguredAs c := hc
  have hk := checkSize_eq (l := (Byte1.len7 y).setWidth 64) hc' h0 rfl
  have hr : ({ b with rxB1 := some y } : Block).readRole = .ok c.role := by simp [Block.readRole, hc.2.1]
  have hb : ({ b with rxB1 := some y } : Block).readB0 = .ok x := by simp [Block.readB0, h0]
  simp only [byte1, hr, hb, except_ok_bind]
  cases hdrCheck1 c.role x y with
  | some r => rfl
  | none =>
    dsimp only
    split
    · rw [hk]
      rfl
    · rfl

theorem byte1_outcome (hc : b.ConfiguredAs c) (hi : b.ReceiverInv c) (hs : b.rxState = .readingHeader)
    (hn : b.rxCnt ≠ 0) : ∃ b' events, byte1 y b = .ok (b', events) ∧ ByteOutcome c b b' events := by
  obtain ⟨hp, he, hm⟩ := hi
  have hs' : b.rxState ≠ .failed := by simp [hs]
  simp only [Block.PhaseInv, hs] at hp
  obtain ⟨hpay, hp⟩ := hp
  obtain ⟨-, x, h0⟩ := hp.resolve_left hn
  rw [byte1_eq hc h0.1]
  split
  · rename_i r hr
    exact ⟨_, _, rfl, fail_outcome hc hm ⟨rfl, rfl, rfl, rfl, rfl, rfl, rfl, rfl, rfl⟩ hpay
      (hdrCheck1_ne_lengthTooLarge hr)⟩
  · rename_i hr
    split
    · rename_i hle
      split
      · rename_i r hsz
        exact ⟨_, _, rfl, fail_outcome hc hm ⟨rfl, rfl, rfl, rfl, rfl, rfl, rfl, rfl, rfl⟩ hpay
          (sizeCheck_ne_lengthTooLarge hsz)⟩
      · rename_i hsz
        have hz : extBytes (Byte1.len7 y) = 0 := extBytes_eq_zero.mpr hle
        refine afterLength_outcome (x := x) (y := y) (l := (Byte1.len7 y).setWidth 64) hc he hm hs'
          ⟨rfl, rfl, rfl, rfl, rfl, rfl, rfl, rfl, rfl⟩ hpay h0 ⟨rfl, hr⟩ ⟨rfl, ?_, by simp [hz], hsz⟩
        intro _
        have := (Byte1.len7 y).isLt
        simp
        omega
    · rename_i hle
      refine ⟨_, _, rfl, goes_outcome hc he hm ⟨rfl, rfl, rfl, rfl, rfl, rfl, rfl, rfl, rfl⟩ hs' ?_ ?_⟩
      · dsimp only
        split <;> simp
      · have h7 := (Byte1.len7 y).isLt
        by_cases h126 : (Byte1.len7 y).toNat = 126
        · simp only [Block.PhaseInv, if_pos h126]
          exact ⟨hpay, x, y, 0, h0, ⟨rfl, hr⟩, extBytes_eq_two.mpr h126, rfl, by simp, by simp⟩
        · simp only [Block.PhaseInv, if_neg h126]
          have : (Byte1.len7 y).toNat = 127 := by
            simp only [maxShortLength] at hle
            omega
          exact ⟨hpay, x, y, 0, h0, ⟨rfl, hr⟩, extBytes_eq_eight.mpr this, rfl, by simp, by simp⟩

/-- ExtLen(b, e) (R176, R177). -/
theorem extLen_eq {e : Nat} (hc : b.ConfiguredAs c) (h0 : b.rxB0 = some x) (hl : b.rxLen = some l) :
    extLen e y b =
      if (b.rxCnt + 1).toNat = e then
        match (lenCheck c.strictMinlen e (shiftInByte l y).toNat).or
            (sizeCheck c.maxPayload x b.rxMsgTotal (shiftInByte l y)) with
        | some r => .ok (fail r { b with rxLen := some (shiftInByte l y), rxCnt := b.rxCnt + 1 })
        | none => afterLength { b with rxLen := some (shiftInByte l y), rxCnt := b.rxCnt + 1 }
      else .ok ({ b with rxLen := some (shiftInByte l y), rxCnt := b.rxCnt + 1 }, []) := by
  have hc' : ({ b with rxLen := some (shiftInByte l y), rxCnt := b.rxCnt + 1 } : Block).ConfiguredAs c := hc
  have hk := checkSize_eq (l := shiftInByte l y) hc' h0 rfl
  have hrl : b.readLen = .ok l := by simp [Block.readLen, hl]
  have hrs : ({ b with rxLen := some (shiftInByte l y), rxCnt := b.rxCnt + 1 } : Block).readStrictMinlen
      = .ok c.strictMinlen := by simp [Block.readStrictMinlen, hc.2.2.2.2]
  simp only [extLen, hrl, hrs, except_ok_bind]
  split
  · cases lenCheck c.strictMinlen e (shiftInByte l y).toNat with
    | some r => rfl
    | none =>
      simp only [Option.none_or]
      rw [hk]
      rfl
  · rfl

theorem extLen_outcome {e : Nat} (hc : b.ConfiguredAs c) (he : b.ErrorInv) (hm : b.MessageInv c)
    (hs : b.rxState ≠ .failed) (hpay : b.rxPayload = []) (hp : b.LengthPartial c e) (he8 : e = 2 ∨ e = 8)
    (hstate : ∀ b' : Block, b'.rxState = b.rxState → b'.rxPayload = [] → b'.LengthPartial c e → b'.PhaseInv c) :
    ∃ b' events, extLen e y b = .ok (b', events) ∧ ByteOutcome c b b' events := by
  obtain ⟨x, y1, l, h0, h1, hext, hl, hcnt, hlt⟩ := hp
  have hcnt7 : b.rxCnt.toNat < 8 := by omega
  have hsucc : (b.rxCnt + 1).toNat = b.rxCnt.toNat + 1 := by
    rw [BitVec.toNat_add]
    exact Nat.mod_eq_of_lt (by simp; omega)
  have hl7 : l.toNat < 256 ^ 7 :=
    lt_of_lt_of_le hlt (Nat.pow_le_pow_right (by omega) (by omega))
  have hshift := shiftInByte_toNat (b := y) hl7
  have hnew : (shiftInByte l y).toNat < 256 ^ (b.rxCnt.toNat + 1) := by
    have := y.isLt
    rw [hshift, pow_succ]
    omega
  rw [extLen_eq hc h0.1 hl]
  split
  · rename_i hlast
    split
    · rename_i r hr
      refine ⟨_, _, rfl, fail_outcome hc hm ⟨rfl, rfl, rfl, rfl, rfl, rfl, rfl, rfl, rfl⟩ hpay ?_⟩
      cases h : lenCheck c.strictMinlen e (shiftInByte l y).toNat with
      | some r' =>
        simp [h] at hr
        subst hr
        exact lenCheck_ne_lengthTooLarge h
      | none =>
        simp [h] at hr
        exact sizeCheck_ne_lengthTooLarge hr
    · rename_i hr
      simp at hr
      refine afterLength_outcome (x := x) (y := y1) (l := shiftInByte l y) hc he hm hs
        ⟨rfl, rfl, rfl, rfl, rfl, rfl, rfl, rfl, rfl⟩ hpay h0 h1 ⟨rfl, ?_, ?_, hr.2⟩
      · intro hz
        omega
      · intro _
        rw [hext]
        refine ⟨?_, hr.1⟩
        rw [hsucc] at hlast
        rw [← hlast]
        exact hnew
  · rename_i hmore
    refine ⟨_, _, rfl, goes_outcome hc he hm ⟨rfl, rfl, rfl, rfl, rfl, rfl, rfl, rfl, rfl⟩ hs hs ?_⟩
    refine hstate _ rfl hpay ⟨x, y1, shiftInByte l y, h0, h1, hext, rfl, ?_, ?_⟩
    · simp only [hsucc] at hmore ⊢
      omega
    · simp only [hsucc]
      exact hnew

/-- MaskByte(b) (R179). -/
theorem maskByte_eq {key : KeyRegs} (hk : b.rxKey.write b.rxCnt.toNat x = .ok key) :
    maskByte x b =
      if b.rxCnt + 1 = 4 then enterPayload { b with rxKey := key, rxCnt := b.rxCnt + 1 }
      else .ok ({ b with rxKey := key, rxCnt := b.rxCnt + 1 }, []) := by
  simp only [maskByte, hk, except_ok_bind]

theorem maskByte_outcome (hc : b.ConfiguredAs c) (hi : b.ReceiverInv c) (hs : b.rxState = .readingMask) :
    ∃ b' events, maskByte x b = .ok (b', events) ∧ ByteOutcome c b b' events := by
  obtain ⟨hp, he, hm⟩ := hi
  have hs' : b.rxState ≠ .failed := by simp [hs]
  simp only [Block.PhaseInv, hs] at hp
  obtain ⟨hpay, x0, y, l, h0, h1, hl, hy, hcnt, hkey⟩ := hp
  obtain ⟨key, hk⟩ := KeyRegs.write_ok hcnt b.rxKey x
  obtain ⟨-, hbytes⟩ := KeyRegs.write_byteAt hk
  have hsucc : (b.rxCnt + 1).toNat = b.rxCnt.toNat + 1 := by
    rw [BitVec.toNat_add]
    exact Nat.mod_eq_of_lt (by simp; omega)
  have hwritten : ∀ i < b.rxCnt.toNat + 1, (key.byteAt i).isSome = true := by
    intro i hi
    rw [hbytes i (by omega)]
    split
    · rfl
    · exact hkey i (by omega)
  rw [maskByte_eq hk]
  split
  · rename_i h4
    have hcnt3 : b.rxCnt.toNat + 1 = 4 := by
      rw [← hsucc, h4]
      rfl
    rw [hcnt3] at hwritten
    exact enterPayload_outcome hc he hm hs' ⟨rfl, rfl, rfl, rfl, rfl, rfl, rfl, rfl, rfl⟩ h0 h1 hl
      (fun _ => KeyRegs.whole_of_written hwritten)
  · rename_i h4
    refine ⟨_, _, rfl, goes_outcome hc he hm ⟨rfl, rfl, rfl, rfl, rfl, rfl, rfl, rfl, rfl⟩ hs' hs' ?_⟩
    have : b.rxCnt.toNat + 1 ≠ 4 := by
      rw [← hsucc]
      exact fun h => h4 (BitVec.eq_of_toNat_eq h)
    simp only [Block.PhaseInv, hs, hsucc]
    exact ⟨hpay, x0, y, l, h0, h1, hl, hy, by omega, hwritten⟩

/-- The byte PayloadByte stores (R181), once the key is whole where it is used. -/
theorem demasked_eq (hk : Byte1.mask y = true → ∃ key, b.rxKey.whole = some key) :
    demasked x y b = .ok (if Byte1.mask y = true then
      x ^^^ (b.rxKey.byteAt b.rxCnt.toNat).getD 0 else x) := by
  unfold demasked
  cases hy : Byte1.mask y
  · simp
  · obtain ⟨key, hkey⟩ := hk hy
    simp [Block.readKeyByte, KeyRegs.byteAt_of_whole hkey]

/-- PayloadByte(b) (R181). -/
theorem payloadByte_eq (h1 : b.rxB1 = some y) (hl : b.rxLen = some l)
    (hk : Byte1.mask y = true → ∃ key, b.rxKey.whole = some key) :
    payloadByte x b =
      (let d := if Byte1.mask y = true then x ^^^ (b.rxKey.byteAt b.rxCnt.toNat).getD 0 else x
      if b.rxCnt + 1 = l then dispatch { b with rxPayload := b.rxPayload ++ [d], rxCnt := b.rxCnt + 1 }
      else .ok ({ b with rxPayload := b.rxPayload ++ [d], rxCnt := b.rxCnt + 1 }, [])) := by
  simp only [payloadByte, Block.readB1, Block.readLen, h1, hl, readReg_some, except_ok_bind, demasked_eq hk]

theorem payloadByte_outcome (hc : b.ConfiguredAs c) (hi : b.ReceiverInv c) (hs : b.rxState = .readingPayload) :
    ∃ b' events, payloadByte x b = .ok (b', events) ∧ ByteOutcome c b b' events := by
  obtain ⟨hp, he, hm⟩ := hi
  have hs' : b.rxState ≠ .failed := by simp [hs]
  simp only [Block.PhaseInv, hs] at hp
  obtain ⟨x0, y, l, h0, h1, hl, hcnt, hpay, hkey⟩ := hp
  have hsucc : (b.rxCnt + 1).toNat = b.rxCnt.toNat + 1 := by
    have := l.isLt
    rw [BitVec.toNat_add]
    exact Nat.mod_eq_of_lt (by simp; omega)
  rw [payloadByte_eq h1.1 hl.1 hkey]
  dsimp only
  split
  · rename_i hlast
    refine dispatch_outcome hc he hm hs' ⟨rfl, rfl, rfl, rfl, rfl, rfl, rfl, rfl, rfl⟩ h0 h1 hl ?_ hkey
    rw [← hlast, hsucc]
    simp [hpay]
  · rename_i hmore
    refine ⟨_, _, rfl, goes_outcome hc he hm ⟨rfl, rfl, rfl, rfl, rfl, rfl, rfl, rfl, rfl⟩ hs' hs' ?_⟩
    have : b.rxCnt.toNat + 1 ≠ l.toNat := by
      rw [← hsucc]
      exact fun h => hmore (BitVec.eq_of_toNat_eq h)
    simp only [Block.PhaseInv, hs, hsucc]
    exact ⟨x0, y, l, h0, h1, hl, by omega, by simp [hpay], hkey⟩

/-- What one byte does in a configured state that satisfies the invariant and is not `Failed`. -/
theorem receiveByte_outcome (hc : b.ConfiguredAs c) (hi : b.ReceiverInv c) (hs : b.rxState ≠ .failed) :
    ∃ b' events, receiveByte x b = .ok (b', events) ∧ ByteOutcome c b b' events := by
  cases hstate : b.rxState with
  | readingHeader =>
    by_cases hn : b.rxCnt = 0
    · simp only [receiveByte, hstate, if_pos hn]
      exact byte0_outcome hc hi hstate
    · simp only [receiveByte, hstate, if_neg hn]
      exact byte1_outcome hc hi hstate hn
  | readingExtendedLength16 =>
    have hp := hi.1
    simp only [Block.PhaseInv, hstate] at hp
    have := extLen_outcome (e := 2) (y := x) hc hi.2.1 hi.2.2 hs hp.1 hp.2 (Or.inl rfl)
      (by intro b' h1 h2 h3; simp only [Block.PhaseInv, h1, hstate]; exact ⟨h2, h3⟩)
    simpa [receiveByte, hstate] using this
  | readingExtendedLength64 =>
    have hp := hi.1
    simp only [Block.PhaseInv, hstate] at hp
    have := extLen_outcome (e := 8) (y := x) hc hi.2.1 hi.2.2 hs hp.1 hp.2 (Or.inr rfl)
      (by intro b' h1 h2 h3; simp only [Block.PhaseInv, h1, hstate]; exact ⟨h2, h3⟩)
    simpa [receiveByte, hstate] using this
  | readingMask => simpa [receiveByte, hstate] using maskByte_outcome (x := x) hc hi hstate
  | readingPayload => simpa [receiveByte, hstate] using payloadByte_outcome (x := x) hc hi hstate
  | dispatching =>
    have hp := hi.1
    simp only [Block.PhaseInv, hstate] at hp
  | failed => exact absurd hstate hs

end

end Sys2Proof.Machine
end

