-- ==== Sys2Proof/Laws/Checks.lean ====
section
/-!
SUPPORT. The model's operand forms, checks and helpers are the arithmetic of Certificates/Slice0/Obligations.lean,
and what that arithmetic leaves alone.
-/
namespace Sys2Proof.Machine

/-- Bits by arithmetic are bits. -/
theorem bitOf_eq (v : Byte) : Spec.bitOf v 7 = v.getLsbD 7 ∧ Spec.bitOf v 6 = v.getLsbD 6
    ∧ Spec.bitOf v 5 = v.getLsbD 5 ∧ Spec.bitOf v 4 = v.getLsbD 4 := by
  revert v; decide

theorem bitOf_mask (y : Byte) : Spec.bitOf y 7 = Byte1.mask y := (bitOf_eq y).1

theorem bitOf_fin (x : Byte) : Spec.bitOf x 7 = Byte0.fin x := (bitOf_eq x).1

theorem bitOf_rsv1 (x : Byte) : Spec.bitOf x 6 = Byte0.rsv1 x := (bitOf_eq x).2.1

theorem opcodeOf_eq (x : Byte) : Spec.opcodeOf x = (Byte0.opcode x).toNat := by
  revert x; decide

theorem len7Of_eq (y : Byte) : Spec.len7Of y = (Byte1.len7 y).toNat := by
  revert y; decide

theorem isControl_eq (x : Byte) : Spec.isControl (Spec.opcodeOf x) = Opcode.isControl (Byte0.opcode x) := by
  revert x; decide

theorem isControl_toNat (op : BitVec 4) : Spec.isControl op.toNat = Opcode.isControl op := by
  revert op; decide

/-- The opcodes of the six frame types (R76). -/
theorem recognized_eq (op : BitVec 4) : decide (op.toNat ∈ Spec.frameTypes) = Opcode.recognized op := by
  revert op; decide

theorem extOf_eq (y : Byte) : Spec.extOf (Spec.len7Of y) = extBytes (Byte1.len7 y) := by
  rw [len7Of_eq]; rfl

theorem keyBytes_eq (y : Byte) : keyBytes y = 4 * (Spec.bitOf y 7).toNat := by
  rw [bitOf_mask]; unfold keyBytes; cases Byte1.mask y <;> rfl

/-- HdrCheck0 (R103). -/
theorem hdrCheck0_eq (a : Bool) (x : Byte) : hdrCheck0 a x = Spec.check0 a x := by
  revert a x; decide

/-- SeqCheck (R173). -/
theorem seqCheck_eq (a : Bool) (x : Byte) : seqCheck a x = Spec.checkSeq a x := by
  revert a x; decide

/-- HdrCheck1 (R104). -/
theorem hdrCheck1_eq (r : Role) (x y : Byte) : hdrCheck1 r x y = Spec.check1 r x y := by
  simp only [hdrCheck1, Spec.check1, isControl_eq, bitOf_mask, len7Of_eq, maxShortLength]
  by_cases h : 125 < (Byte1.len7 y).toNat <;> cases r <;> cases Byte1.mask y <;> simp [h]

/-- LenCheck (R105). -/
theorem lenCheck_eq (a : Bool) (e n : Nat) : lenCheck a e n = Spec.checkLen a e n := rfl

/-- SizeCheck (R175). -/
theorem sizeCheck_eq (m : U64) (x : Byte) (t l : U64) :
    sizeCheck m x t l = Spec.checkSize m x t.toNat l.toNat := by
  simp only [sizeCheck, Spec.checkSize, isControl_eq]
  simp

/-- The record of R44. -/
theorem makeHeader_eq (x y : Byte) (l : U64) (key : Option Key) :
    makeHeader x y l key = Spec.headerRecord x y l.toNat key := by
  simp only [makeHeader, Spec.headerRecord, bitOf_fin, bitOf_rsv1, ← bitOf_mask y, opcodeOf_eq, BitVec.ofNat_toNat,
    BitVec.setWidth_eq, headerLength, extOf_eq, keyBytes_eq]
  simp [len7Of_eq]

theorem keyAt_eq (k : Key) (i : Nat) : Spec.keyAt k i = k.byteAt i := by
  unfold Spec.keyAt Key.byteAt
  have : i % 4 < 4 := Nat.mod_lt _ (by omega)
  match i % 4, this with
  | 0, _ | 1, _ | 2, _ | 3, _ => rfl

theorem failed_eq (r : Reason) (b : Block) : Spec.failed r b = fail r b := by
  cases r <;> rfl

theorem dispatched_eq (x y : Byte) (l : U64) (key : Option Key) (p : Bytes) (b : Block) :
    Spec.dispatched x y l key p b =
      ({ fragUpdate x l { b with rxState := .dispatching } with
          rxState := .readingHeader, rxCnt := 0, rxPayload := [] }, [.frameOut (makeHeader x y l key) p]) := by
  simp only [Spec.dispatched, isControl_eq, bitOf_fin, fragUpdate, makeHeader_eq]
  cases Opcode.isControl (Byte0.opcode x) <;> cases Byte0.fin x <;> rfl

/-- Dispatch() (R182, R183). -/
theorem dispatch_spec {x y : Byte} {l : U64} {key : Option Key} {b : Block} (h0 : b.rxB0 = some x)
    (h1 : b.rxB1 = some y) (hl : b.rxLen = some l)
    (hk : if Byte1.mask y = true then key.isSome = true ∧ b.rxKey.whole = key else key = none) :
    dispatch b = .ok (Spec.dispatched x y l key b.rxPayload b) := by
  rw [dispatch_eq h0 h1 hl hk, dispatched_eq]

/-- EnterPayload() (R180). -/
theorem enterPayload_eq {x y : Byte} {l : U64} {key : Option Key} {b : Block} (h0 : b.rxB0 = some x)
    (h1 : b.rxB1 = some y) (hl : b.rxLen = some l)
    (hk : if Byte1.mask y = true then key.isSome = true ∧ b.rxKey.whole = key else key = none) :
    enterPayload b = .ok (Spec.enterPayload x y l key b) := by
  have hr : b.readLen = .ok l := by simp [Block.readLen, hl]
  simp only [enterPayload, Spec.enterPayload, hr, except_ok_bind]
  split
  · exact dispatch_spec (b := { b with rxCnt := 0, rxPayload := [] }) h0 h1 hl hk
  · rfl

/-- AfterLength() (R178). -/
theorem afterLength_eq {x y : Byte} {l : U64} {b : Block} (h0 : b.rxB0 = some x)
    (h1 : b.rxB1 = some y) (hl : b.rxLen = some l) :
    afterLength b = .ok (Spec.afterLength x y l b) := by
  simp only [afterLength, Spec.afterLength, Block.readB1, h1, readReg_some, except_ok_bind, bitOf_mask]
  cases hy : Byte1.mask y
  · simp
    exact enterPayload_eq h0 h1 hl (by simp [hy])
  · simp

theorem ofNat_succ (v : U64) : BitVec.ofNat 64 (v.toNat + 1) = v + 1 := by
  apply BitVec.eq_of_toNat_eq; simp

theorem enterPayload_offset (x y : Byte) (l : U64) (k : Option Key) (b : Block) :
    (Spec.enterPayload x y l k b).1.rxOffset = b.rxOffset := by
  unfold Spec.enterPayload; split <;> rfl

theorem afterLength_offset (x y : Byte) (l : U64) (b : Block) :
    (Spec.afterLength x y l b).1.rxOffset = b.rxOffset := by
  unfold Spec.afterLength; split
  · rfl
  · exact enterPayload_offset ..

theorem len7_ofNat (y : Byte) : (Byte1.len7 y).setWidth 64 = BitVec.ofNat 64 (Spec.len7Of y) := by
  rw [len7Of_eq]; apply BitVec.eq_of_toNat_eq; simp

theorem len7_toNat (y : Byte) : (BitVec.ofNat 64 (Spec.len7Of y)).toNat = Spec.len7Of y := by
  have := (Byte1.len7 y).isLt
  rw [len7Of_eq, BitVec.toNat_ofNat]; omega

theorem shift_ofNat {l : U64} {z : Byte} (h : l.toNat < 256 ^ 7) :
    shiftInByte l z = BitVec.ofNat 64 (l.toNat * 256 + z.toNat) := by
  have hz := z.isLt
  apply BitVec.eq_of_toNat_eq
  rw [shiftInByte_toNat h, BitVec.toNat_ofNat]
  omega

theorem failed_row (r : Reason) (b : Block) : (Spec.failed r b).1.rxState = .failed := rfl

theorem enterPayload_row (x y : Byte) (l : U64) (k : Option Key) (b : Block) :
    ((l ≠ 0 ∧ (Spec.enterPayload x y l k b).1.rxState = .readingPayload ∧ (Spec.enterPayload x y l k b).1.rxCnt = 0)
    ∨ (l = 0 ∧ (Spec.enterPayload x y l k b).1.rxState = .readingHeader ∧ (Spec.enterPayload x y l k b).1.rxCnt = 0))
    ∧ (Spec.enterPayload x y l k b).1.rxLen = b.rxLen := by
  unfold Spec.enterPayload
  by_cases h : l = 0
  · rw [if_pos h]; exact ⟨Or.inr ⟨h, rfl, rfl⟩, rfl⟩
  · rw [if_neg h]; exact ⟨Or.inl ⟨h, rfl, rfl⟩, rfl⟩

theorem afterLength_row (x y : Byte) (l : U64) (b : Block) :
    Spec.AfterLengthRow y l (Spec.afterLength x y l b).1 ∧ (Spec.afterLength x y l b).1.rxLen = b.rxLen := by
  unfold Spec.afterLength Spec.AfterLengthRow
  cases h : Spec.bitOf y 7
  · have := enterPayload_row x y l none b
    simpa [h] using this
  · simp

/-- AfterLength() overwrites the state and the count, and leaves the offset. -/
theorem afterLength_ignores (x y : Byte) (l : U64) (b : Block) (st : RxState) (n o : U64) :
    Spec.afterLength x y l { b with rxState := st, rxCnt := n, rxOffset := o }
      = ({ (Spec.afterLength x y l b).1 with rxOffset := o }, (Spec.afterLength x y l b).2) := by
  unfold Spec.afterLength Spec.enterPayload Spec.dispatched
  split
  · rfl
  · split <;> rfl

theorem enterPayload_ignores (x y : Byte) (l : U64) (k : Option Key) (b : Block) (st : RxState) (n o : U64) :
    Spec.enterPayload x y l k { b with rxState := st, rxCnt := n, rxOffset := o }
      = ({ (Spec.enterPayload x y l k b).1 with rxOffset := o }, (Spec.enterPayload x y l k b).2) := by
  unfold Spec.enterPayload Spec.dispatched
  split <;> rfl

theorem byte0Of_eq (op : BitVec 4) (f a b c : Bool) : Spec.byte0Of op.toNat f a b c = Byte0.make f a b c op := by
  revert op f a b c; decide

theorem seq_ok {x : Byte} {fo : Bool} (h1 : Spec.opcodeOf x = 0x0 → fo = true) (h2 : Spec.opcodeOf x ∈ [0x1, 0x2]
    → fo = false) :
    Spec.checkSeq fo x = none := by
  unfold Spec.checkSeq
  rw [if_neg, if_neg]
  · rintro ⟨h, h'⟩; rw [h2 h] at h'; cases h'
  · rintro ⟨h, h'⟩; rw [h1 h] at h'; cases h'

theorem size_ok {m : U64} {x : Byte} {t n : Nat} (h1 : n ≤ m.toNat) (h2 : Spec.isControl (Spec.opcodeOf x) = false
    → t + n ≤ m.toNat) :
    Spec.checkSize m x t n = none := by
  unfold Spec.checkSize
  rw [if_neg (by omega), if_neg]
  rintro ⟨h, h'⟩; have := h2 h; omega

/-- The configuration registers determine the configuration. -/
theorem configuredAs_unique {b : Block} {c d : Config} (h : b.ConfiguredAs c) (g : b.ConfiguredAs d) : c = d := by
  obtain ⟨-, h1, h2, h3, h4⟩ := h
  obtain ⟨-, g1, g2, g3, g4⟩ := g
  cases c; cases d
  simp_all

/-- Two checks in a row fail when one of them does. -/
theorem or_ne_none {a b : Option Reason} : a.or b ≠ none ↔ a ≠ none ∨ b ≠ none := by cases a <;> simp

end Sys2Proof.Machine
end

