-- ==== Sys2Proof/Laws/Codec.lean ====
section
/-!
SUPPORT. The masker by index, the encoder's checks and bytes, and the decoder behind byte 1.
-/
namespace Sys2Proof.Machine

theorem mask_length (d : Bytes) (k : Key) (p : Nat) : (mask d k p).length = d.length := by
  induction d generalizing p with
  | nil => rfl
  | cons x d ih => simp [mask, ih]

theorem mask_getElem? (d : Bytes) (k : Key) (p i : Nat) :
    (mask d k p)[i]? = d[i]?.map (fun x => x ^^^ k.byteAt (p + i)) := by
  induction d generalizing p i with
  | nil => simp [mask]
  | cons x d ih =>
    cases i with
    | zero => simp [mask, maskByteAt]
    | succ i =>
      simp only [mask, List.getElem?_cons_succ, ih]
      rw [show p + 1 + i = p + (i + 1) by omega]

/-- Only the phase modulo 4 matters (R150). -/
theorem mask_phase {d : Bytes} {k : Key} {p q : Nat} (h : p % 4 = q % 4) : mask d k p = mask d k q := by
  apply List.ext_getElem?
  intro i
  rw [mask_getElem?, mask_getElem?, ← Key.byteAt_mod k (p + i), ← Key.byteAt_mod k (q + i)]
  rw [show (p + i) % 4 = (q + i) % 4 by omega]

theorem mask_eq_maskOf (d : Bytes) (k : Key) (p : Nat) : mask d k p = Spec.maskOf d k p := by
  apply List.ext_getElem?
  intro i
  simp [mask_getElem?, Spec.maskOf, List.getElem?_mapIdx, keyAt_eq]

/-- The encoder's checks (R100, R245). -/
theorem encodeCheck_eq (c : Config) (op : BitVec 4) (fin rsv1 : Bool) (key : Option Key) (n : Nat) :
    encodeCheck c.role c.rsv1Allowed op fin rsv1 key n = Spec.encodeCheck c op.toNat fin rsv1 key n := by
  have h1 : ∀ op : BitVec 4, Opcode.initiating op = decide (op.toNat ∈ [0x1, 0x2]) := by decide
  simp only [encodeCheck, Spec.encodeCheck, ← recognized_eq, h1, isControl_toNat, maxShortLength, lengthLimit]
  by_cases h : 125 < n <;> cases c.role <;> cases key <;> simp [h]

theorem make1_eq (m : Bool) (n : Nat) (h : n ≤ 127) :
    Byte1.make m (BitVec.ofNat 7 n) = BitVec.ofNat 8 ((if m then 1 else 0) * 2 ^ 7 + n) := by
  revert m
  have : ∀ n, n < 128 → ∀ m, Byte1.make m (BitVec.ofNat 7 n) = BitVec.ofNat 8 ((if m then 1 else 0) * 2 ^ 7 + n) := by
    decide
  exact this n (by omega)

theorem make0_eq (fin rsv1 : Bool) (op : BitVec 4) :
    Byte0.make fin rsv1 false false op = BitVec.ofNat 8 (fin.toNat * 2 ^ 7 + rsv1.toNat * 2 ^ 6 + op.toNat) := by
  revert fin rsv1 op; decide

theorem toBe_eq_map (k n : Nat) : toBe k n = (List.range k).map fun i => BitVec.ofNat 8 (n / 256 ^ (k - 1 - i)) := by
  induction k with
  | zero => rfl
  | succ k ih =>
    rw [toBe, List.range_succ_eq_map, List.map_cons, ih, List.map_map]
    refine congrArg₂ _ (by simp) (List.map_congr_left fun i hi => ?_)
    simp only [Function.comp]
    rw [show k + 1 - 1 - i.succ = k - 1 - i by omega]

/-- The header bytes of R100. -/
theorem headerBytes_eq (op : BitVec 4) (fin rsv1 : Bool) (key : Option Key) (n : Nat) :
    headerBytes op fin rsv1 key n = Spec.headerOf op.toNat fin rsv1 key n := by
  have hm : ∀ n, n ≤ 127 → Byte1.make key.isSome (BitVec.ofNat 7 n) =
      BitVec.ofNat 8 ((if key = none then 0 else 1) * 2 ^ 7 + n) := by
    intro n hn; rw [make1_eq _ _ hn]; cases key <;> rfl
  have h6 : Byte1.make key.isSome 126 = _ := hm 126 (by omega)
  have h7 : Byte1.make key.isSome 127 = _ := hm 127 (by omega)
  have h2 : toBe 2 n = [BitVec.ofNat 8 (n / 256), BitVec.ofNat 8 n] := by simp [toBe]
  have h8 : toBe 8 n = (List.range 8).map fun i => BitVec.ofNat 8 (n / 2 ^ (8 * (7 - i))) := by
    rw [toBe_eq_map]
    refine List.map_congr_left fun i _ => ?_
    rw [pow_mul]; rfl
  unfold headerBytes Spec.headerOf
  rw [make0_eq]
  simp only [lengthField, maxShortLength, maxLength16, h6, h7, h2, h8]
  split
  · rename_i h; rw [hm n (by omega)]; cases key <;> rfl
  · split <;> cases key <;> rfl

theorem encodeHeaderResult_eq {b : Block} {c : Config} (hc : b.ConfiguredAs c) (op : BitVec 4) (fin rsv1 : Bool)
    (key : Option Key) (n : Nat) :
    encodeHeaderResult b op fin rsv1 key n = .ok (Spec.encodeHeader c op.toNat fin rsv1 key n) := by
  simp only [encodeHeaderResult, hc.1, Block.readRole, Block.readRsv1Allowed, hc.2.1, hc.2.2.1, readReg_some,
    except_ok_bind, encodeCheck_eq, headerBytes_eq, Spec.encodeHeader]
  simp only [Bool.not_true, Bool.false_eq_true, if_false]
  cases Spec.encodeCheck c op.toNat fin rsv1 key n <;> rfl

theorem frameBody_eq (key : Option Key) (p : Bytes) : frameBody key p = (match key with
          | none => p
          | some k => Spec.maskOf p k 0) := by
  cases key with
  | none => rfl
  | some k => exact mask_eq_maskOf ..

theorem frameBody_length (key : Option Key) (p : Bytes) : (frameBody key p).length = p.length := by
  cases key with
  | none => rfl
  | some k => exact mask_length ..

theorem headerOf_length (op : Nat) (fin rsv1 : Bool) (key : Option Key) (n : Nat) :
    (Spec.headerOf op fin rsv1 key n).length = Spec.headerLengthFor key n := by
  unfold Spec.headerOf Spec.headerLengthFor
  dsimp only
  cases key <;> (repeat' split) <;> simp_all

theorem decodeHeaderResult_eq {b : Block} {c : Config} (hc : b.ConfiguredAs c) (buf : Bytes) :
    decodeHeaderResult b buf = .ok (decodeHeaderWith c.role c.rsv1Allowed c.strictMinlen buf) := by
  simp only [decodeHeaderResult, hc.1, Block.readRole, Block.readRsv1Allowed, Block.readStrictMinlen, hc.2.1, hc.2.2.1,
    hc.2.2.2.2, readReg_some, except_ok_bind]
  rfl

theorem assembledLength_eq (b0 y : Byte) (more : Bytes) (h : extBytes (Byte1.len7 y) ≤ more.length) :
    assembledLength y more = Spec.lengthAt (b0 :: y :: more) (extBytes (Byte1.len7 y)) := by
  unfold assembledLength Spec.lengthAt
  rcases extBytes_cases (Byte1.len7 y) with h' | h' | h' <;> rw [h'] at h ⊢
  · simp [len7Of_eq]
  · match more, h with
    | a :: b :: m, _ => simp [beNat]
  · match more, h with
    | a :: b :: c :: d :: e :: f :: g :: i :: m, _ =>
      rw [if_neg (by omega), if_neg (by omega), if_neg (by omega)]
      simp only [beNat, List.take, List.foldl, List.getD_cons_succ, List.getD_cons_zero]
      omega

theorem lengthAt_lt (buf : Bytes) (e : Nat) : Spec.lengthAt buf e < 2 ^ 64 := by
  unfold Spec.lengthAt
  split
  · have := Nat.mod_lt (buf.getD 1 0).toNat (show 128 > 0 by omega); unfold Spec.len7Of; omega
  · split
    · have := (buf.getD 2 0).isLt; have := (buf.getD 3 0).isLt; omega
    · have h : ∀ i, (buf.getD i 0).toNat < 256 := fun i => (buf.getD i 0).isLt
      have := h 2; have := h 3; have := h 4; have := h 5; have := h 6; have := h 7; have := h 8; have := h 9
      omega

theorem assembledLength_append {y : Byte} {more : Bytes} (m2 : Bytes) (h : extBytes (Byte1.len7 y) ≤ more.length) :
    assembledLength y (more ++ m2) = assembledLength y more := by
  unfold assembledLength
  rw [List.take_append_of_le_length h]

theorem keyBytes_le (y : Byte) : keyBytes y ≤ 4 := by unfold keyBytes; split <;> omega

theorem extBytes_le (l : BitVec 7) : extBytes l ≤ 8 := by rcases extBytes_cases l with h | h | h <;> omega

theorem decodeAfterByte1_header {st : Bool} {x y : Byte} {more : Bytes} {h : Header} {n : Nat}
    (hh : decodeAfterByte1 st x y more = .header h n) :
    h.headerLength = headerLength y ∧ n = headerLength y ∧ headerLength y ≤ more.length + 2 := by
  unfold decodeAfterByte1 at hh
  split at hh
  · cases hh
  · split at hh
    · cases hh
    · split at hh
      · cases hh
      · cases hh; refine ⟨rfl, rfl, ?_⟩; unfold headerLength; omega

theorem decodeAfterByte1_need {st : Bool} {x y : Byte} {more : Bytes} 
    (hh : decodeAfterByte1 st x y more = .needMoreData) : more.length < extBytes (Byte1.len7 y) + keyBytes y := by
  unfold decodeAfterByte1 at hh
  split at hh
  · omega
  · split at hh
    · cases hh
    · split at hh
      · assumption
      · cases hh

theorem decodeAfterByte1_append {st : Bool} {x y : Byte} {more : Bytes} (m2 : Bytes)
    (h : decodeAfterByte1 st x y more ≠ .needMoreData) :
    decodeAfterByte1 st x y (more ++ m2) = decodeAfterByte1 st x y more := by
  unfold decodeAfterByte1 at h ⊢
  by_cases h1 : more.length < extBytes (Byte1.len7 y)
  · rw [if_pos h1] at h; exact absurd rfl h
  · have h1' : ¬ (more ++ m2).length < extBytes (Byte1.len7 y) := by rw [List.length_append]; omega
    rw [if_neg h1] at h ⊢
    rw [if_neg h1', assembledLength_append m2 (by omega)]
    cases hl : (if 0 < extBytes (Byte1.len7 y) then lenCheck st (extBytes (Byte1.len7 y))
      (assembledLength y more) else none) with
    | some r => rfl
    | none =>
      simp only [hl] at h ⊢
      by_cases h2 : more.length < extBytes (Byte1.len7 y) + keyBytes y
      · rw [if_pos h2] at h; exact absurd rfl h
      · have h2' : ¬ (more ++ m2).length < extBytes (Byte1.len7 y) + keyBytes y := by rw [List.length_append]; omega
        rw [if_neg h2, if_neg h2']
        congr 2
        cases hm : Byte1.mask y
        · rfl
        · simp only [if_true]
          rw [List.drop_append_of_le_length (by omega)]
          simp only [keyBytes, hm, if_true] at h2
          have hd : 4 ≤ (more.drop (extBytes (Byte1.len7 y))).length := by rw [List.length_drop]; omega
          match more.drop (extBytes (Byte1.len7 y)), hd with
          | a :: b :: c :: d :: m, _ => rfl

/-- What the decoder says of a buffer, in the pieces the receiver meets. -/
theorem decodeAfterByte1_key {st : Bool} {x y : Byte} {more : Bytes} {h : Header} {n : Nat}
    (hh : decodeAfterByte1 st x y more = .header h n) :
    ∃ ext key rest, more = ext ++ (keyField key ++ rest) ∧ ext.length = extBytes (Byte1.len7 y) ∧ Byte1.mask y
      = key.isSome
      ∧ (0 < extBytes (Byte1.len7 y) → beNat ext = assembledLength y more)
      ∧ (extBytes (Byte1.len7 y) = 0 → (Byte1.len7 y).toNat = assembledLength y more)
      ∧ (0 < extBytes (Byte1.len7 y) → lenCheck st (extBytes (Byte1.len7 y)) (assembledLength y more) = none)
      ∧ h = makeHeader x y (BitVec.ofNat 64 (assembledLength y more)) key
      ∧ n = 2 + ext.length + 4 * key.isSome.toNat := by
  unfold decodeAfterByte1 at hh
  split at hh
  · cases hh
  · rename_i he
    split at hh
    · cases hh
    · rename_i hlc
      split at hh
      · cases hh
      · rename_i hk
        simp only [Result.header.injEq] at hh
        obtain ⟨rfl, rfl⟩ := hh
        have hel : (more.take (extBytes (Byte1.len7 y))).length = extBytes
          (Byte1.len7 y) := by rw [List.length_take]; omega
        have hn1 : 0 < extBytes (Byte1.len7 y) → beNat (more.take (extBytes (Byte1.len7 y)))
          = assembledLength y more := by
          intro h; unfold assembledLength; rw [if_neg (by omega)]
        have hn0 : extBytes (Byte1.len7 y) = 0 → (Byte1.len7 y).toNat = assembledLength y more := by
          intro h; unfold assembledLength; rw [if_pos h]
        have hl : 0 < extBytes (Byte1.len7 y) → lenCheck st (extBytes (Byte1.len7 y)) (assembledLength y more)
          = none := by
          intro h; rwa [if_pos h] at hlc
        cases hm : Byte1.mask y
        · refine ⟨more.take (extBytes (Byte1.len7 y)), none, more.drop (extBytes (Byte1.len7 y)),
          by simp [keyField], hel, rfl, hn1, hn0, hl, ?_, ?_⟩
          · simp
          · rw [hel]; simp [headerLength, keyBytes, hm]
        · have hd : 4 ≤ (more.drop (extBytes (Byte1.len7 y))).length := by
            rw [List.length_drop]; simp only [keyBytes, hm, if_true] at hk; omega
          match hdr : more.drop (extBytes (Byte1.len7 y)), hd with
          | a :: b :: d :: e :: r, _ =>
            refine ⟨more.take (extBytes (Byte1.len7 y)), some ⟨a, b, d, e⟩, r, ?_, hel, rfl, hn1, hn0, hl, ?_, ?_⟩
            · have := List.take_append_drop (extBytes (Byte1.len7 y)) more
              rw [hdr] at this
              exact this.symm
            · simp [Key.ofBytes]
            · rw [hel]; simp [headerLength, keyBytes, hm]

/-- A header the encoder's checks admit passes the decoder's checks on a peer of the opposite role. -/
theorem check0_make {c : Config} {op : BitVec 4} {fin rsv1 : Bool} {key : Option Key} {n : Nat}
    (h : encodeCheck c.role c.rsv1Allowed op fin rsv1 key n = none) :
    hdrCheck0 c.rsv1Allowed (Byte0.make fin rsv1 false false op) = none := by
  unfold encodeCheck at h
  unfold hdrCheck0
  simp only [Byte0.rsv1_make, Byte0.rsv2_make, Byte0.rsv3_make, Byte0.opcode_make, Byte0.fin_make]
  cases hr : Opcode.recognized op <;> cases rsv1 <;> cases ha : c.rsv1Allowed <;> cases hi : Opcode.initiating op <;>
    cases hcc : Opcode.isControl op <;> cases fin <;> simp_all

theorem encodeCheck_none {role : Role} {a : Bool} {op : BitVec 4} {fin rsv1 : Bool} {key : Option Key} {n : Nat}
    (h : encodeCheck role a op fin rsv1 key n = none) :
    (role = .client ↔ key.isSome = true) ∧ (Opcode.isControl op = true → n ≤ 125) ∧ n < 2 ^ 63 := by
  unfold encodeCheck at h
  repeat' split at h
  all_goals cases h
  simp only [lengthLimit, maxShortLength] at *
  rename_i hlen hlim
  refine ⟨?_, ?_, by omega⟩
  · cases role <;> cases key <;> simp_all
  · intro hc
    simpa [hc] using hlen

/-- The byte 1 and extended length of a header that is encoded. -/
theorem lengthField_eq (m : Bool) (n : Nat) (hn : n < 2 ^ 63) :
    ∃ y ext, lengthField m n = y :: ext ∧ Byte1.mask y = m ∧ ext.length = extBytes (Byte1.len7 y)
      ∧ (∀ rest, assembledLength y (ext ++ rest) = n)
      ∧ (n ≤ 125 → (Byte1.len7 y).toNat = n)
      ∧ (0 < extBytes (Byte1.len7 y) → ∀ st, lenCheck st (extBytes (Byte1.len7 y)) n = none) := by
  unfold lengthField
  simp only [maxShortLength, maxLength16]
  by_cases h : n ≤ 125
  · rw [if_pos h]
    have h7 : (BitVec.ofNat 7 n).toNat = n := by rw [BitVec.toNat_ofNat]; omega
    have he : extBytes (BitVec.ofNat 7 n) = 0 := extBytes_eq_zero.mpr (by rw [h7]; omega)
    refine ⟨_, [], rfl, Byte1.mask_make .., ?_, ?_, ?_, ?_⟩
    · rw [Byte1.len7_make, he]; rfl
    · intro rest; simp only [assembledLength, Byte1.len7_make, he, if_true, h7]
    · intro _; rw [Byte1.len7_make, h7]
    · rw [Byte1.len7_make, he]; intro h; omega
  · rw [if_neg h]
    by_cases h2 : n ≤ 65535
    · rw [if_pos h2]
      have he : extBytes 126 = 2 := rfl
      refine ⟨_, toBe 2 n, rfl, Byte1.mask_make .., ?_, ?_, ?_, ?_⟩
      · rw [Byte1.len7_make, he, toBe_length]
      · intro rest
        have := List.take_left (l₁ := toBe 2 n) (l₂ := rest)
        rw [toBe_length] at this
        simp only [assembledLength, Byte1.len7_make, he, this]
        rw [if_neg (by omega), beNat_toBe_of_lt (by omega)]
      · omega
      · rw [Byte1.len7_make, he]; intro _ st
        unfold lenCheck
        rw [if_neg (by omega), if_neg (by omega)]
    · rw [if_neg h2]
      have he : extBytes 127 = 8 := rfl
      refine ⟨_, toBe 8 n, rfl, Byte1.mask_make .., ?_, ?_, ?_, ?_⟩
      · rw [Byte1.len7_make, he, toBe_length]
      · intro rest
        have := List.take_left (l₁ := toBe 8 n) (l₂ := rest)
        rw [toBe_length] at this
        simp only [assembledLength, Byte1.len7_make, he, this]
        rw [if_neg (by omega), beNat_toBe_of_lt (by omega)]
      · omega
      · rw [Byte1.len7_make, he]; intro _ st
        unfold lenCheck lengthLimit
        rw [if_neg (by omega), if_neg (by omega)]

/-- DECODE_HEADER of an encoded frame, on the peer. -/
theorem decode_encoded {rA rB : Role} {a st : Bool} {op : BitVec 4} {fin rsv1 : Bool} {key : Option Key} {n : Nat} {body : Bytes}
    (hr : rA ≠ rB) (h : encodeCheck rA a op fin rsv1 key n = none) :
    ∃ y ext, headerBytes op fin rsv1 key n = Byte0.make fin rsv1 false false op :: y :: (ext ++ keyField key)
      ∧ ext.length = extBytes (Byte1.len7 y) ∧ Byte1.mask y = key.isSome
      ∧ (0 < extBytes (Byte1.len7 y) → ∀ st, lenCheck st (extBytes (Byte1.len7 y)) n = none)
      ∧ (∀ rest, assembledLength y (ext ++ rest) = n)
      ∧ hdrCheck1 rB (Byte0.make fin rsv1 false false op) y = none
      ∧ decodeHeaderWith rB a st (headerBytes op fin rsv1 key n ++ body) =
        .header (makeHeader (Byte0.make fin rsv1 false false op) y (BitVec.ofNat 64 n) key) (headerLength y) := by
  obtain ⟨hk, hctl, hn⟩ := encodeCheck_none h
  obtain ⟨y, ext, hl, hm, hel, hal, hs, hlc⟩ := lengthField_eq key.isSome n hn
  have h1 : hdrCheck1 rB (Byte0.make fin rsv1 false false op) y = none := by
    unfold hdrCheck1
    rw [hm, Byte0.opcode_make]
    cases rA <;> cases rB <;> first | exact absurd rfl hr | skip
    all_goals
      cases hc : Opcode.isControl op
      · simp_all
      · have := hs (hctl hc); have := hctl hc; simp_all [maxShortLength]
  have h0 := check0_make (c := ⟨rA, a, 0, st⟩) h
  have hkl : (keyField key).length = keyBytes y := by
    unfold keyField keyBytes; rw [hm]; cases key <;> rfl
  have hkey : (if Byte1.mask y = true then Key.ofBytes (List.drop (extBytes (Byte1.len7 y)) (ext ++
    (keyField key ++ body))) else none) = key := by
    rw [← hel, List.drop_left, hm]
    cases key with
    | none => rfl
    | some k => simp [keyField, Key.bytes, Key.ofBytes]
  refine ⟨y, ext, ?_, hel, hm, hlc, hal, h1, ?_⟩
  · simp only [headerBytes, hl]; rfl
  · simp only [headerBytes, hl, List.cons_append, decodeHeaderWith, h0, h1, decodeAfterByte1, List.append_assoc,
    hal, hkey]
    rw [if_neg (by simp only [List.length_append]; omega)]
    have : (if 0 < extBytes (Byte1.len7 y) then lenCheck st (extBytes (Byte1.len7 y)) n else none) = none := by
      split
      · exact hlc (by assumption) _
      · rfl
    rw [this]
    dsimp only
    rw [if_neg (by simp only [List.length_append, hkl]; omega)]

theorem exec_encodeFrame_bytes {s t : State} {c : Config} {op : BitVec 4} {fin rsv1 : Bool} {key : Option Key} {payload f : Bytes}
    (hc : s.block.ConfiguredAs c) (h : exec (.encodeFrame op fin rsv1 key payload) s = .next t) (hf : t.result
    = some (.bytes f)) :
    encodeCheck c.role c.rsv1Allowed op fin rsv1 key payload.length = none
      ∧ f = headerBytes op fin rsv1 key payload.length ++ frameBody key payload := by
  simp only [exec, execEncodeFrame, encodeFrameResult, encodeHeaderResult_eq hc, except_ok_bind, Spec.encodeHeader,
    ← encodeCheck_eq, ← headerBytes_eq] at h
  cases hq : encodeCheck c.role c.rsv1Allowed op fin rsv1 key payload.length with
  | some r => simp [hq] at h; subst h; simp at hf
  | none => simp [hq] at h; subst h; simp at hf; exact ⟨rfl, hf.symm⟩

theorem headerLength_eq_length (op : BitVec 4) (fin rsv1 : Bool) (key : Option Key) (n : Nat) (y : Byte) (ext : Bytes)
    (h : headerBytes op fin rsv1 key n = Byte0.make fin rsv1 false false op :: y :: (ext ++ keyField key))
    (hel : ext.length = extBytes (Byte1.len7 y)) (hm : Byte1.mask y = key.isSome) :
    headerLength y = (headerBytes op fin rsv1 key n).length := by
  rw [h]
  simp only [List.length_cons, List.length_append, headerLength, hel, keyBytes, hm]
  cases key <;> simp [keyField] <;> omega

end Sys2Proof.Machine
end

