-- ==== Sys2Proof/Laws/Decode.lean ====
section
/-!
SUPPORT. Each parser of Decode.lean reads back what its printer wrote, with the bytes behind it left over. The decoder's
round trip over instructions is assembled from these.
-/
namespace Sys2Proof

@[simp] theorem takeByte_cons (b : Byte) (s : Bytes) : takeByte (b :: s) = .ok (b, s) := rfl

@[simp] theorem takeBit_putBit (v : Bool) (s : Bytes) : takeBit (putBit v ++ s) = .ok (v, s) := by
  cases v <;> rfl

@[simp] theorem takeRole_code (r : Role) (s : Bytes) : takeRole (r.code :: s) = .ok (r, s) := by
  cases r <;> rfl

@[simp] theorem takeOpcode_setWidth (op : BitVec 4) (s : Bytes) : takeOpcode (op.setWidth 8 :: s) = .ok (op, s) := by
  have h : ∀ op : BitVec 4, (op.setWidth 8).toNat < 16 ∧ (op.setWidth 8).setWidth 4 = op := by decide
  simp only [takeOpcode, if_pos (h op).1, (h op).2]

@[simp] theorem takePhase_setWidth (p : BitVec 2) (s : Bytes) : takePhase (p.setWidth 8 :: s) = .ok (p, s) := by
  have h : ∀ p : BitVec 2, (p.setWidth 8).toNat < 4 ∧ (p.setWidth 8).setWidth 2 = p := by decide
  simp only [takePhase, if_pos (h p).1, (h p).2]

@[simp] theorem takeKey_bytes (k : Key) (s : Bytes) : takeKey (k.bytes ++ s) = .ok (k, s) := rfl

@[simp] theorem takeOptKey_putOptKey (k : Option Key) (s : Bytes) :
    takeOptKey (putOptKey k ++ s) = .ok (k, s) := by
  cases k with
  | none => rfl
  | some k => rfl

@[simp] theorem takeExactly_append (front s : Bytes) : takeExactly front.length (front ++ s) = .ok (front, s) := by
  induction front with
  | nil => cases s <;> rfl
  | cons b front ih => simp [takeExactly, ih]

/-- What `takeExactly` answers, whatever the sequence. -/
theorem takeExactly_ok {k : Nat} {s front rest : Bytes} (h : takeExactly k s = .ok (front, rest)) :
    s = front ++ rest ∧ front.length = k := by
  induction k generalizing s front rest with
  | zero =>
    cases s <;> simp [takeExactly] at h <;> obtain ⟨rfl, rfl⟩ := h <;> simp
  | succ k ih =>
    cases s with
    | nil => simp [takeExactly] at h
    | cons b s =>
      simp only [takeExactly] at h
      split at h
      · cases h
      · rename_i front' rest' heq
        cases h
        obtain ⟨rfl, rfl⟩ := ih heq
        simp

@[simp] theorem takeBe16_toBe (v : BitVec 16) (s : Bytes) : takeBe16 (toBe 2 v.toNat ++ s) = .ok (v, s) := by
  have h := takeExactly_append (toBe 2 v.toNat) s
  rw [toBe_length] at h
  have hv : v.toNat < 256 ^ 2 := v.isLt
  simp [takeBe16, h, beNat_toBe_of_lt hv]

@[simp] theorem takeBe64_toBe (v : U64) (s : Bytes) : takeBe64 (toBe 8 v.toNat ++ s) = .ok (v, s) := by
  have h := takeExactly_append (toBe 8 v.toNat) s
  rw [toBe_length] at h
  have hv : v.toNat < 256 ^ 8 := v.isLt
  simp [takeBe64, h, beNat_toBe_of_lt hv]

theorem takeNat_putNatBytes (fuel n : Nat) (s : Bytes) (h : n < 2 ^ (fuel + 1)) :
    takeNat (putNatBytes fuel n ++ s) = .ok (n, s) := by
  induction fuel generalizing n with
  | zero =>
    have : n < 2 := by simpa using h
    have hb : (BitVec.ofNat 8 n).toNat = n := by simp; omega
    simp only [putNatBytes, List.singleton_append, takeNat, hb, if_pos (by omega : n < 128)]
  | succ fuel ih =>
    by_cases hn : n < 128
    · have hb : (BitVec.ofNat 8 n).toNat = n := by simp; omega
      simp only [putNatBytes, if_pos hn, List.singleton_append, takeNat, hb]
    · have hb : (BitVec.ofNat 8 (128 + n % 128)).toNat = 128 + n % 128 := by simp; omega
      have hlt : n / 128 < 2 ^ (fuel + 1) := by
        rw [Nat.div_lt_iff_lt_mul (by omega)]
        calc n < 2 ^ (fuel + 1 + 1) := h
          _ = 2 ^ (fuel + 1) * 2 := pow_succ _ _
          _ ≤ 2 ^ (fuel + 1) * 128 := Nat.mul_le_mul_left _ (by omega)
      simp only [putNatBytes, if_neg hn, List.cons_append, takeNat, hb, if_neg (by omega : ¬ 128 + n % 128 < 128),
        ih (n / 128) hlt]
      congr 2
      omega

@[simp] theorem takeNat_putNat (n : Nat) (s : Bytes) : takeNat (putNat n ++ s) = .ok (n, s) :=
  takeNat_putNatBytes _ _ _ Nat.lt_log2_self

@[simp] theorem takeBytes_putBytes (d s : Bytes) : takeBytes (putBytes d ++ s) = .ok (d, s) := by
  simp [takeBytes, putBytes, List.append_assoc]

/-! The header formats, with their operand bytes behind byte 1. -/

/-- Byte 0 gives the row of its opcode back, with the flags as its operands. -/
theorem decodeByte0_bytes (b : Byte) : (decodeByte0 b).bytes = [b] := by
  revert b; decide

/-- The instruction a byte 0 decodes to is well formed. -/
theorem decodeByte0_wellFormed (b : Byte) : (decodeByte0 b).wellFormed = true := by
  revert b; decide

theorem decode_of_front {w : HostWord} {i : Instr} (h : decodeFront w.format w.bytes = .ok (i, [])) :
    decode w = .ok i := by
  simp [decode, h]

/-! What an accepted parse says of the bytes. -/

open Machine

theorem takeKey_ok {s : Bytes} {k : Key} {r : Bytes} (h : takeKey s = .ok (k, r)) : s = k.bytes ++ r := by
  match s, h with
  | a :: b :: c :: d :: s, h => simp [takeKey] at h; obtain ⟨rfl, rfl⟩ := h; rfl

theorem takeBe16_ok {s : Bytes} {k : BitVec 16} {r : Bytes} (h : takeBe16 s = .ok (k, r)) :
    s = toBe 2 k.toNat ++ r := by
  unfold takeBe16 at h
  split at h
  · cases h
  · rename_i f r' heq
    obtain ⟨rfl, hl⟩ := takeExactly_ok heq
    cases h
    have := beNat_lt f
    rw [hl] at this
    rw [BitVec.toNat_ofNat, Nat.mod_eq_of_lt (by omega), ← hl, toBe_beNat]

theorem takeBe64_ok {s : Bytes} {k : U64} {r : Bytes} (h : takeBe64 s = .ok (k, r)) :
    s = toBe 8 k.toNat ++ r := by
  unfold takeBe64 at h
  split at h
  · cases h
  · rename_i f r' heq
    obtain ⟨rfl, hl⟩ := takeExactly_ok heq
    cases h
    have := beNat_lt f
    rw [hl] at this
    rw [BitVec.toNat_ofNat, Nat.mod_eq_of_lt (by omega), ← hl, toBe_beNat]

/-- What the decoder of byte 1 answers: the row of byte 1, well formed, whose bytes are those it read. -/
theorem decodeByte1_ok {b1 : Byte} {more rest : Bytes} {i : Instr} (h : decodeByte1 b1 more = .ok (i, rest)) :
    i.wellFormed = true ∧ i.format = .hdrB1 ∧ i.bytes ++ rest = b1 :: more
      ∧ i.bytes.length = 1 + extBytes (Byte1.len7 b1) + keyBytes b1 := by
  have hf := Byte1.make_fields b1
  have h7 := (Byte1.len7 b1).isLt
  unfold keyBytes
  simp only [decodeByte1] at h
  split at h
  · rename_i hl
    rw [extBytes_eq_zero.mpr hl]
    split at h
    · rename_i hm
      simp only [except_bind_eq_ok, Prod.exists, Except.ok.injEq, Prod.mk.injEq] at h
      obtain ⟨k, r, hk, rfl, rfl⟩ := h
      rw [hm] at hf
      simp [Instr.format, Instr.bytes, hf, takeKey_ok hk, hm, Instr.wellFormed, hl]
    · rename_i hm
      cases h
      rw [Bool.not_eq_true] at hm
      rw [hm] at hf
      simp [Instr.format, Instr.bytes, hf, hm, Instr.wellFormed, hl]
  · split at h
    · rename_i hl
      rw [extBytes_eq_two.mpr hl]
      have hb : Byte1.len7 b1 = 126 := BitVec.eq_of_toNat_eq hl
      rw [hb] at hf
      split at h
      · rename_i hm
        simp only [except_bind_eq_ok, Prod.exists, Except.ok.injEq, Prod.mk.injEq] at h
        obtain ⟨l, r, hl, k, r', hk, rfl, rfl⟩ := h
        rw [hm] at hf
        simp [Instr.format, Instr.bytes, hm, Instr.wellFormed, takeBe16_ok hl, takeKey_ok hk]
        exact hf
      · rename_i hm
        simp only [except_bind_eq_ok, Prod.exists, Except.ok.injEq, Prod.mk.injEq] at h
        obtain ⟨l, r, hl, rfl, rfl⟩ := h
        rw [Bool.not_eq_true] at hm
        rw [hm] at hf
        simp [Instr.format, Instr.bytes, hm, Instr.wellFormed, takeBe16_ok hl]
        exact hf
    · have hl : (Byte1.len7 b1).toNat = 127 := by omega
      rw [extBytes_eq_eight.mpr hl]
      have hb : Byte1.len7 b1 = 127 := BitVec.eq_of_toNat_eq hl
      rw [hb] at hf
      split at h
      · rename_i hm
        simp only [except_bind_eq_ok, Prod.exists, Except.ok.injEq, Prod.mk.injEq] at h
        obtain ⟨l, r, hl, k, r', hk, rfl, rfl⟩ := h
        rw [hm] at hf
        simp [Instr.format, Instr.bytes, hm, Instr.wellFormed, takeBe64_ok hl, takeKey_ok hk]
        exact hf
      · rename_i hm
        simp only [except_bind_eq_ok, Prod.exists, Except.ok.injEq, Prod.mk.injEq] at h
        obtain ⟨l, r, hl, rfl, rfl⟩ := h
        rw [Bool.not_eq_true] at hm
        rw [hm] at hf
        simp [Instr.format, Instr.bytes, hm, Instr.wellFormed, takeBe64_ok hl]
        exact hf

/-- What the decoder of commands answers: a well-formed instruction of format CMD with the code as its first byte. -/
theorem decodeCommand_ok {code : Byte} {ops rest : Bytes} {i : Instr} (h : decodeCommand code ops = .ok (i, rest)) :
    i.wellFormed = true ∧ i.format = .cmd ∧ i.bytes.head? = some code := by
  unfold decodeCommand at h
  split at h
  all_goals
    rename_i hcode
    simp only [except_bind_eq_ok, Prod.exists, Except.ok.injEq, Prod.mk.injEq, reduceCtorEq] at h
  all_goals
    repeat obtain ⟨_, h⟩ := h
    subst_vars
    exact ⟨rfl, rfl, congrArg some (BitVec.eq_of_toNat_eq hcode.symm)⟩

theorem decodeFront_wellFormed {f : Format} {s rest : Bytes} {i : Instr} (hf : f ≠ .hdrB0) (h : decodeFront f s = .ok (i, rest)) :
    i.wellFormed = true := by
  cases s with
  | nil => cases h
  | cons b more =>
    cases f with
    | hdrB0 => exact absurd rfl hf
    | cmd => exact (decodeCommand_ok h).1
    | hdrB1 => exact (decodeByte1_ok h).1

end Sys2Proof
end

