-- ==== Sys2Proof/Laws/Feed.lean ====
section
/-!
SUPPORT. FEED_BYTE and FEED: when they are refused, what the loop answers for a byte and for a chunk in two pieces, and
`feedLoop_outcome`, which says once everything a chunk can do in a state that satisfies the invariant.
-/
namespace Sys2Proof.Machine

theorem feedByteCommand_eq {x : Byte} {b : Block} (hv : b.cfgValid = true) (hs : b.rxState ≠ .failed) :
    feedByteCommand x b = (feedByteStep x b).map fun p => (p.1, .fed 1 p.2) := by
  simp only [feedByteCommand, hv, Bool.not_true, Bool.false_eq_true, if_false, if_neg hs]

theorem feedByteStep_eq {x : Byte} {b : Block} {p : Block × List Event} (h : receiveByte x b = .ok p) :
    feedByteStep x b = .ok ({ p.1 with rxOffset := p.1.rxOffset + 1 }, p.2) := by
  simp only [feedByteStep, h, except_ok_bind]

theorem exec_feedByte_eq {s : State} {x : Byte} {p : Block × List Event} (hv : s.block.cfgValid = true)
    (hs : s.block.rxState ≠ .failed) (h : receiveByte x s.block = .ok p) (ho : p.1.rxOffset = s.block.rxOffset) :
    exec (.feedByte x) s = .next (Spec.byteTaken s p) := by
  simp only [exec, execFeedByte, feedByteCommand_eq hv hs, feedByteStep_eq h, except_map_ok, State.complete_ok,
    Spec.byteTaken, ofNat_succ, ho]

theorem receiveByte_byte0 {b : Block} (x : Byte) (h : b.rxState = .readingHeader) (hn : b.rxCnt = 0) :
    receiveByte x b = byte0 x b := by
  simp [receiveByte, h, hn]

theorem receiveByte_byte1 {b : Block} (x : Byte) (h : b.rxState = .readingHeader) (hn : b.rxCnt = 1) :
    receiveByte x b = byte1 x b := by
  simp [receiveByte, h, hn]

theorem receiveByte_mask {b : Block} (x : Byte) (h : b.rxState = .readingMask) : receiveByte x b = maskByte x b := by
  simp [receiveByte, h]

theorem feedCommand_eq {data : Bytes} {b : Block} (hv : b.cfgValid = true) (hs : b.rxState ≠ .failed) :
    feedCommand data b = (feedLoop data b).map fun p => (p.1, .fed p.2.1 p.2.2) := by
  simp only [feedCommand, hv, Bool.not_true, Bool.false_eq_true, if_false, if_neg hs]

/-- A FEED that answers `Fed` was not refused, and ran the loop. -/
theorem exec_feed_eq_fed {s t : State} {data : Bytes} {n : Nat} {ev : List Event}
    (h : exec (.feed data) s = .next t) (hr : t.result = some (.fed n ev)) :
    s.block.cfgValid = true ∧ s.block.rxState ≠ .failed ∧ ∃ b, feedLoop data s.block = .ok (b, n, ev)
      ∧ t = { s with block := b, result := some (.fed n ev) } := by
  simp only [exec, execFeed, State.complete_eq_next] at h
  obtain ⟨b, r, hd, rfl⟩ := h
  simp only [Option.some.injEq] at hr
  subst hr
  unfold feedCommand at hd
  split at hd
  · cases hd
  · split at hd
    · cases hd
    · rename_i hv hs
      rw [except_map_eq_ok] at hd
      obtain ⟨⟨b', n', ev'⟩, hl, heq⟩ := hd
      cases heq
      exact ⟨by simpa using hv, hs, _, hl, rfl⟩

theorem exec_feed_of_loop {s : State} {data : Bytes} {b : Block} {n : Nat} {ev : List Event}
    (hv : s.block.cfgValid = true) (hs : s.block.rxState ≠ .failed) (h : feedLoop data s.block = .ok (b, n, ev)) :
    exec (.feed data) s = .next { s with block := b, result := some (.fed n ev) } := by
  simp only [exec, execFeed, feedCommand_eq hv hs, h, except_map_ok, State.complete_ok]

theorem exec_feedByte_of_step {s : State} {x : Byte} {b : Block} {ev : List Event}
    (hv : s.block.cfgValid = true) (hs : s.block.rxState ≠ .failed) (h : feedByteStep x s.block = .ok (b, ev)) :
    exec (.feedByte x) s = .next { s with block := b, result := some (.fed 1 ev) } := by
  simp only [exec, execFeedByte, feedByteCommand_eq hv hs, h, except_map_ok, State.complete_ok]

/-- A FEED_BYTE that answers `Fed` was not refused, and made one transition. -/
theorem exec_feedByte_eq_fed {s t : State} {x : Byte} {n : Nat} {ev : List Event}
    (h : exec (.feedByte x) s = .next t) (hr : t.result = some (.fed n ev)) :
    s.block.cfgValid = true ∧ s.block.rxState ≠ .failed ∧ n = 1 ∧ ∃ b, feedByteStep x s.block = .ok (b, ev)
      ∧ t = { s with block := b, result := some (.fed 1 ev) } := by
  simp only [exec, execFeedByte, State.complete_eq_next] at h
  obtain ⟨b, r, hd, rfl⟩ := h
  simp only [Option.some.injEq] at hr
  subst hr
  unfold feedByteCommand at hd
  split at hd
  · cases hd
  · split at hd
    · cases hd
    · rename_i hv hs
      rw [except_map_eq_ok] at hd
      obtain ⟨⟨b', ev'⟩, hl, heq⟩ := hd
      cases heq
      exact ⟨by simpa using hv, hs, rfl, _, hl, rfl⟩

/-- FEED, byte by byte (R187). -/
theorem feedLoop_cons {x : Byte} {data : Bytes} {b b₁ : Block} {ev : List Event} (h : feedByteStep x b = .ok (b₁, ev)) :
    feedLoop (x :: data) b =
      if b₁.rxState = .failed then .ok (b₁, 1, ev)
      else (feedLoop data b₁).map fun p => (p.1, p.2.1 + 1, ev ++ p.2.2) := by
  simp only [feedLoop, h, except_ok_bind]
  split
  · rfl
  · cases feedLoop data b₁ <;> rfl

theorem feedLoop_singleton {x : Byte} {b b₁ : Block} {ev : List Event} (h : feedByteStep x b = .ok (b₁, ev)) :
    feedLoop [x] b = .ok (b₁, 1, ev) := by
  rw [feedLoop_cons h]
  split
  · rfl
  · simp [feedLoop]

/-- A chunk in two pieces. -/
theorem feedLoop_append {a c : Bytes} {b b₁ : Block} {n : Nat} {e₁ : List Event} (hs : b.rxState ≠ .failed)
    (h : feedLoop a b = .ok (b₁, n, e₁)) :
    (b₁.rxState = .failed → 0 < n ∧ n ≤ a.length ∧ feedLoop (a ++ c) b = .ok (b₁, n, e₁)
        ∧ feedLoop (a.take n) b = .ok (b₁, n, e₁))
      ∧ (b₁.rxState ≠ .failed → n = a.length
        ∧ feedLoop (a ++ c) b = (feedLoop c b₁).map fun p => (p.1, n + p.2.1, e₁ ++ p.2.2)) := by
  induction a generalizing b n e₁ with
  | nil =>
    simp only [feedLoop] at h
    cases h
    refine ⟨fun h => absurd h hs, fun _ => ⟨rfl, ?_⟩⟩
    simp only [List.nil_append, Nat.zero_add]
    cases feedLoop c b₁ <;> simp [Except.map]
  | cons x a ih =>
    have hh := h
    simp only [feedLoop, except_bind_eq_ok] at hh
    obtain ⟨⟨b2, ev⟩, hb, -⟩ := hh
    rw [feedLoop_cons hb] at h
    simp only [List.cons_append]
    rw [feedLoop_cons hb]
    by_cases hf : b2.rxState = .failed
    · rw [if_pos hf] at h ⊢
      cases h
      refine ⟨fun _ => ⟨by omega, by simp, rfl, ?_⟩, fun h => absurd hf h⟩
      rw [List.take_succ_cons, feedLoop_cons hb, if_pos hf]
    · rw [if_neg hf] at h ⊢
      rw [except_map_eq_ok] at h
      obtain ⟨⟨b3, m, e3⟩, hl, heq⟩ := h
      cases heq
      obtain ⟨ih1, ih2⟩ := ih hf hl
      refine ⟨fun h => ?_, fun h => ?_⟩
      · obtain ⟨h1, h2, h3, h4⟩ := ih1 h
        refine ⟨by omega, by simp; omega, by rw [h3]; rfl, ?_⟩
        rw [List.take_succ_cons, feedLoop_cons hb, if_neg hf, h4]; rfl
      · obtain ⟨h1, h2⟩ := ih2 h
        refine ⟨by simp [h1], ?_⟩
        rw [h2]
        dsimp only
        cases feedLoop c b3 with
        | error _ => rfl
        | ok p => simp only [except_map_ok, List.append_assoc]; rw [show m + p.2.1 + 1 = m + 1 + p.2.1 by omega]

/-- What one byte does, the offset with it. -/
theorem feedByteStep_outcome {b : Block} {c : Config} {x : Byte} (hc : b.ConfiguredAs c) (hi : b.ReceiverInv c)
    (hs : b.rxState ≠ .failed) :
    ∃ b' ev, receiveByte x b = .ok (b', ev) ∧ ByteOutcome c b b' ev
      ∧ feedByteStep x b = .ok ({ b' with rxOffset := b.rxOffset + 1 }, ev) := by
  obtain ⟨b', ev, h, ho⟩ := receiveByte_outcome (x := x) hc hi hs
  refine ⟨b', ev, h, ho, ?_⟩
  rw [feedByteStep_eq h, ho.2.2.1]

theorem receiverInv_offset {b : Block} {c : Config} (o : U64) (h : b.ReceiverInv c) :
    ({ b with rxOffset := o } : Block).ReceiverInv c := h

/-- Everything a chunk can do in a configured state that satisfies the invariant and is not `Failed`. -/
theorem feedLoop_outcome {data : Bytes} {b : Block} {c : Config} (hc : b.ConfiguredAs c) (hi : b.ReceiverInv c)
    (hs : b.rxState ≠ .failed) :
    ∃ b' n ev, feedLoop data b = .ok (b', n, ev) ∧ b'.ConfiguredAs c ∧ b'.ReceiverInv c
      ∧ b'.rxOffset = b.rxOffset + BitVec.ofNat 64 n
      ∧ (b'.rxState ≠ .failed → ∀ e, .error e ∉ ev)
      ∧ (b'.rxState = .failed → ∃ front e, ev = front ++ [.error e] ∧ (∀ e', .error e' ∉ front)
          ∧ b'.rxErr = some e ∧ e.offset = b.rxOffset + BitVec.ofNat 64 (n - 1)) := by
  induction data generalizing b with
  | nil => exact ⟨b, 0, [], rfl, hc, hi, by simp, by simp, fun h => absurd h hs⟩
  | cons x data ih =>
    obtain ⟨b₁, ev, -, ho, hb⟩ := feedByteStep_outcome (x := x) hc hi hs
    obtain ⟨hc1, hi1, ho1, hcase⟩ := ho
    rw [feedLoop_cons hb]
    by_cases hf : b₁.rxState = .failed
    · refine ⟨_, _, _, if_pos hf, hc1, receiverInv_offset _ hi1, rfl, fun h => absurd hf h, fun _ => ?_⟩
      rcases hcase with h | h | h
      · exact absurd hf h.2.1
      · obtain ⟨r, -, rfl, -, he, -⟩ := h
        exact ⟨[], _, rfl, by simp, he, by simp [errorRecord]⟩
      · obtain ⟨_, _, _, _, _, _, _, _, _, h, _⟩ := h
        rw [h] at hf; cases hf
    · have hne : ∀ e, .error e ∉ ev := by
        rcases hcase with h | h | h
        · rw [h.1]; simp
        · obtain ⟨r, -, -, h, -⟩ := h; exact absurd h hf
        · obtain ⟨_, _, _, _, _, rfl, _⟩ := h; simp
      obtain ⟨b', n, more, hl, hc2, hi2, ho2, hn2, hf2⟩ := ih (b := { b₁ with rxOffset := b.rxOffset + 1 }) hc1
        (receiverInv_offset _ hi1) hf
      refine ⟨b', n + 1, ev ++ more, ?_, hc2, hi2, ?_, ?_, ?_⟩
      · rw [if_neg hf, hl]; rfl
      · rw [ho2]
        apply BitVec.eq_of_toNat_eq
        simp; omega
      · intro h e he
        rcases List.mem_append.mp he with he | he
        · exact hne e he
        · exact hn2 h e he
      · intro h
        obtain ⟨front, e, rfl, h1, h2, h3⟩ := hf2 h
        have hn0 : 0 < n := ((feedLoop_append (c := []) (by exact hf) hl).1 h).1
        refine ⟨ev ++ front, e, by simp, ?_, h2, ?_⟩
        · intro e' he
          rcases List.mem_append.mp he with he | he
          · exact hne e' he
          · exact h1 e' he
        · rw [h3]
          apply BitVec.eq_of_toNat_eq
          simp; omega

/-- The invariant of a configured instance. -/
theorem inv_configured {s : State} (h : s.Inv) (hv : s.block.cfgValid = true) :
    ∃ c, s.block.ConfiguredAs c ∧ s.block.ReceiverInv c := by
  rcases h with h | h
  · rw [h] at hv; cases hv
  · exact h

theorem reason_facts {r : Reason} (h : r ≠ .lengthTooLarge) : r.code ≤ 14
    ∧ (r.code = 13 ∨ r.code = 14 → r.kind = .payloadTooLarge ∧ r.kind.closeCode = 1009)
    ∧ (r.code ≤ 12 → r.kind = .protocolError ∧ r.kind.closeCode = 1002) := by
  cases r <;> first | exact absurd rfl h | decide

end Sys2Proof.Machine
end

