-- ==== Sys2Proof/Laws/Effect.lean ====
section
/-!
SUPPORT. `exec_effect` says once everything an instruction can do to the registers; no byte writes a configuration register;
the rows that are header bytes, as the bytes they hand the receiver.
-/
namespace Sys2Proof.Machine

/-- A receiver command that ends: refused with nothing changed, or the loop ran. -/
theorem feedCommand_cases {data : Bytes} {b b' : Block} {r : Result} (h : feedCommand data b = .ok (b', r)) :
    (b' = b ∧ ∃ e, r = .cmdError e) ∨ (b.cfgValid = true ∧ b.rxState ≠ .failed ∧ ∃ n ev, r = .fed n ev
      ∧ feedLoop data b = .ok (b', n, ev)) := by
  unfold feedCommand at h
  split at h
  · cases h; exact Or.inl ⟨rfl, _, rfl⟩
  · split at h
    · cases h; exact Or.inl ⟨rfl, _, rfl⟩
    · rename_i hv hs
      rw [except_map_eq_ok] at h
      obtain ⟨⟨b1, n, ev⟩, hl, heq⟩ := h
      cases heq
      exact Or.inr ⟨by simpa using hv, hs, n, ev, rfl, hl⟩

theorem feedByteCommand_ok {x : Byte} {b b' : Block} {r : Result} (h : feedByteCommand x b = .ok (b', r)) :
    feedCommand [x] b = .ok (b', r) := by
  unfold feedByteCommand at h
  unfold feedCommand
  split at h
  · rename_i hv; rw [if_pos hv]; exact h
  · rename_i hv; rw [if_neg hv]
    split at h
    · rename_i hs; rw [if_pos hs]; exact h
    · rename_i hs; rw [if_neg hs]
      rw [except_map_eq_ok] at h
      obtain ⟨⟨b1, ev⟩, hl, heq⟩ := h
      cases heq
      rw [feedLoop_singleton hl]; rfl

/-- Everything an instruction can do to the registers. -/
inductive Effect (i : Instr) (b b' : Block) : Result → Prop
  | unchanged (r : Result) (h : b' = b) : Effect i b b' r
  | reset (hi : i = .reset) (h : b' = Block.reset) : Effect i b b' .ok
  | configured (c : Config) (hi : i = .configure c.role c.rsv1Allowed c.maxPayload c.strictMinlen)
      (hv : b.cfgValid = false) (h : b' = attachConfig b c) : Effect i b b' .ok
  | fed (data : Bytes) (n : Nat) (ev : List Event) (hi : Spec.feedsReceiver i = true) (hv : b.cfgValid = true)
      (hs : b.rxState ≠ .failed) (h : feedLoop data b = .ok (b', n, ev)) : Effect i b b' (.fed n ev)

theorem complete_feed_effect {i : Instr} {s t : State} {data : Bytes} (hi : Spec.feedsReceiver i = true)
    (h : s.complete (feedCommand data s.block) = .next t) :
    t.pending = s.pending ∧ ∃ r, t.result = some r ∧ Effect i s.block t.block r := by
  obtain ⟨b, r, hd, rfl⟩ := State.complete_eq_next.mp h
  refine ⟨rfl, r, rfl, ?_⟩
  rcases feedCommand_cases hd with ⟨rfl, e, rfl⟩ | ⟨hv, hs, n, ev, rfl, hl⟩
  · exact .unchanged _ rfl
  · exact .fed data n ev hi hv hs hl

theorem complete_feedByte_effect {i : Instr} {s t : State} {x : Byte} (hi : Spec.feedsReceiver i = true)
    (h : s.complete (feedByteCommand x s.block) = .next t) :
    t.pending = s.pending ∧ ∃ r, t.result = some r ∧ Effect i s.block t.block r := by
  obtain ⟨b, r, hd, rfl⟩ := State.complete_eq_next.mp h
  exact complete_feed_effect (t := { s with block := b, result := some r }) (data := [x]) hi (by rw [feedByteCommand_ok hd]; rfl)

theorem answer_effect {i : Instr} {s t : State} {d : Except Fault Result} (h : s.answer d = .next t) :
    t.pending = s.pending ∧ ∃ r, t.result = some r ∧ Effect i s.block t.block r := by
  obtain ⟨r, -, rfl⟩ := State.answer_eq_next.mp h
  exact ⟨rfl, r, rfl, .unchanged _ rfl⟩

/-- Everything an instruction that ends in a next state has done. -/
theorem exec_effect {i : Instr} {s t : State} (h : exec i s = .next t) :
    t.pending = s.pending ∧ ∃ r, t.result = some r ∧ Effect i s.block t.block r := by
  cases i
  case reset => cases h; exact ⟨rfl, _, rfl, .reset rfl rfl⟩
  case configure role a m st =>
    simp only [exec, execConfigure] at h
    split at h
    · cases h; exact ⟨rfl, _, rfl, .unchanged _ rfl⟩
    · rename_i hv
      cases h; exact ⟨rfl, _, rfl, .configured ⟨role, a, m, st⟩ rfl (by simpa using hv) rfl⟩
  case readStatus => cases h; exact ⟨rfl, _, rfl, .unchanged _ rfl⟩
  case encodeHeader => exact answer_effect h
  case encodeFrame => exact answer_effect h
  case applyMask => cases h; exact ⟨rfl, _, rfl, .unchanged _ rfl⟩
  case decodeHeader => exact answer_effect h
  case feedByte => exact complete_feedByte_effect rfl h
  case feed => exact complete_feed_effect rfl h
  case h2 | h6 | h4 | h8 | h10 | h14 => exact complete_feed_effect rfl h
  case reserved9 | reservedA | reservedB | reservedC | reservedD | reservedE | reservedF =>
    cases h; exact ⟨rfl, _, rfl, .unchanged _ rfl⟩
  all_goals exact complete_feedByte_effect rfl h

theorem attachConfig_inv (c : Config) : (attachConfig Block.reset c).Inv := by
  refine Or.inr ⟨c, ⟨rfl, rfl, rfl, rfl, rfl⟩, ?_, ?_, ?_⟩
  · simp [Block.PhaseInv]
  · simp [Block.ErrorInv]
  · simp [Block.MessageInv]

theorem sameConfig_refl (b : Block) : b.SameConfig b := ⟨rfl, rfl, rfl, rfl, rfl⟩

theorem sameConfig_trans {a b c : Block} (h : a.SameConfig b) (g : b.SameConfig c) : a.SameConfig c :=
  ⟨h.1.trans g.1, h.2.1.trans g.2.1, h.2.2.1.trans g.2.2.1, h.2.2.2.1.trans g.2.2.2.1, h.2.2.2.2.trans g.2.2.2.2⟩

theorem dispatch_sameConfig {b b' : Block} {ev : List Event} (h : dispatch b = .ok (b', ev)) : b'.SameConfig b := by
  simp only [dispatch, except_bind_eq_ok] at h
  obtain ⟨x, -, y, -, l, -, h⟩ := h
  have hf : ∀ b : Block, (fragUpdate x l b).SameConfig b := by
    intro b; unfold fragUpdate
    split
    · exact ⟨rfl, rfl, rfl, rfl, rfl⟩
    · split <;> exact ⟨rfl, rfl, rfl, rfl, rfl⟩
  have := hf { b with rxState := .dispatching }
  cases hm : Byte1.mask y <;> rw [hm] at h
  · cases h; exact this
  · simp only [if_true, except_bind_eq_ok, except_map_eq_ok] at h
    obtain ⟨_, -, h⟩ := h
    cases h; exact this

theorem enterPayload_sameConfig {b b' : Block} {ev : List Event} (h : enterPayload b = .ok (b', ev)) :
    b'.SameConfig b := by
  simp only [enterPayload, except_bind_eq_ok] at h
  obtain ⟨l, -, h⟩ := h
  split at h
  · exact sameConfig_trans (dispatch_sameConfig h) ⟨rfl, rfl, rfl, rfl, rfl⟩
  · cases h; exact ⟨rfl, rfl, rfl, rfl, rfl⟩

theorem afterLength_sameConfig {b b' : Block} {ev : List Event} (h : afterLength b = .ok (b', ev)) :
    b'.SameConfig b := by
  simp only [afterLength, except_bind_eq_ok] at h
  obtain ⟨l, -, h⟩ := h
  split at h
  · cases h; exact ⟨rfl, rfl, rfl, rfl, rfl⟩
  · exact enterPayload_sameConfig h

/-- No byte writes a configuration register. -/
theorem receiveByte_sameConfig {x : Byte} {b b' : Block} {ev : List Event} (h : receiveByte x b = .ok (b', ev)) :
    b'.SameConfig b := by
  have hext : ∀ e, extLen e x b = .ok (b', ev) → b'.SameConfig b := by
    intro e h
    simp only [extLen, except_bind_eq_ok] at h
    obtain ⟨l, -, h⟩ := h
    split at h
    · simp only [except_bind_eq_ok] at h
      obtain ⟨st, -, h⟩ := h
      split at h
      · cases h; exact ⟨rfl, rfl, rfl, rfl, rfl⟩
      · simp only [except_bind_eq_ok] at h
        obtain ⟨q, -, h⟩ := h
        split at h
        · cases h; exact ⟨rfl, rfl, rfl, rfl, rfl⟩
        · exact sameConfig_trans (afterLength_sameConfig h) ⟨rfl, rfl, rfl, rfl, rfl⟩
    · cases h; exact ⟨rfl, rfl, rfl, rfl, rfl⟩
  unfold receiveByte at h
  split at h
  · split at h
    · simp only [byte0, except_bind_eq_ok] at h
      obtain ⟨a, -, h⟩ := h
      split at h <;> cases h <;> exact ⟨rfl, rfl, rfl, rfl, rfl⟩
    · simp only [byte1, except_bind_eq_ok] at h
      obtain ⟨a, -, y, -, h⟩ := h
      split at h
      · cases h; exact ⟨rfl, rfl, rfl, rfl, rfl⟩
      · split at h
        · simp only [except_bind_eq_ok] at h
          obtain ⟨q, -, h⟩ := h
          split at h
          · cases h; exact ⟨rfl, rfl, rfl, rfl, rfl⟩
          · exact sameConfig_trans (afterLength_sameConfig h) ⟨rfl, rfl, rfl, rfl, rfl⟩
        · cases h; exact ⟨rfl, rfl, rfl, rfl, rfl⟩
  · exact hext _ h
  · exact hext _ h
  · simp only [maskByte, except_bind_eq_ok] at h
    obtain ⟨k, -, h⟩ := h
    split at h
    · exact sameConfig_trans (enterPayload_sameConfig h) ⟨rfl, rfl, rfl, rfl, rfl⟩
    · cases h; exact ⟨rfl, rfl, rfl, rfl, rfl⟩
  · simp only [payloadByte, except_bind_eq_ok] at h
    obtain ⟨y, -, d, -, l, -, h⟩ := h
    split at h
    · exact sameConfig_trans (dispatch_sameConfig h) ⟨rfl, rfl, rfl, rfl, rfl⟩
    · cases h; exact ⟨rfl, rfl, rfl, rfl, rfl⟩
  · cases h
  · cases h

/-- No chunk writes a configuration register. -/
theorem feedLoop_sameConfig {data : Bytes} {b b' : Block} {n : Nat} {ev : List Event}
    (h : feedLoop data b = .ok (b', n, ev)) : b'.SameConfig b := by
  induction data generalizing b n ev with
  | nil => cases h; exact sameConfig_refl _
  | cons x data ih =>
    have hh := h
    simp only [feedLoop, except_bind_eq_ok] at hh
    obtain ⟨⟨b2, ev2⟩, hb, -⟩ := hh
    rw [feedLoop_cons hb] at h
    have h2 : b2.SameConfig b := by
      simp only [feedByteStep, except_bind_eq_ok] at hb
      obtain ⟨⟨b3, ev3⟩, hr, hb⟩ := hb
      cases hb
      have := receiveByte_sameConfig hr
      exact this
    split at h
    · cases h; exact h2
    · rw [except_map_eq_ok] at h
      obtain ⟨⟨b3, m, e3⟩, hl, heq⟩ := h
      cases heq
      exact sameConfig_trans (ih hl) h2

/-- The rows that hand the receiver bytes read the registers only. -/
theorem feeds_block {r : Instr} (hr : Spec.feedsReceiver r = true) :
    ∃ f : Block → Done, ∀ s, exec r s = s.complete (f s.block) := by
  cases r
  case feedByte x => exact ⟨feedByteCommand x, fun _ => rfl⟩
  case feed d => exact ⟨feedCommand d, fun _ => rfl⟩
  case h2 | h6 | h4 | h8 | h10 | h14 => exact ⟨feedCommand _, fun _ => rfl⟩
  case reset | configure | readStatus | encodeHeader | encodeFrame | applyMask | decodeHeader | reserved9 | reservedA | reservedB | reservedC | reservedD | reservedE | reservedF => cases hr
  all_goals exact ⟨feedByteCommand _, fun _ => rfl⟩

theorem feedCommand_completes {b : Block} (hb : b.Inv) (data : Bytes) : ∃ b' r, feedCommand data b = .ok (b', r) := by
  rcases hb with rfl | ⟨c, hc, hi⟩
  · exact ⟨_, _, rfl⟩
  · by_cases hs : b.rxState = .failed
    · simp [feedCommand, hc.1, hs]
    · obtain ⟨b', n, ev, hl, -⟩ := feedLoop_outcome (data := data) hc hi hs
      rw [feedCommand_eq hc.1 hs, hl]; exact ⟨_, _, rfl⟩

theorem feedByteCommand_completes {b : Block} (hb : b.Inv) (x : Byte) : ∃ b' r, feedByteCommand x b = .ok (b', r) := by
  rcases hb with rfl | ⟨c, hc, hi⟩
  · exact ⟨_, _, rfl⟩
  · by_cases hs : b.rxState = .failed
    · simp [feedByteCommand, hc.1, hs]
    · obtain ⟨b', ev, -, -, hl⟩ := feedByteStep_outcome (x := x) hc hi hs
      rw [feedByteCommand_eq hc.1 hs, hl]; exact ⟨_, _, rfl⟩

/-- A row of format HDR_B0 is FEED_BYTE of its byte. -/
theorem exec_frameRow {i : Instr} {op : Nat} {f a b c : Bool} (h : Spec.frameRow i = some (op, f, a, b, c))
    (s : State) :
    exec i s = exec (.feedByte (Spec.byte0Of op f a b c)) s := by
  cases i <;> simp only [Spec.frameRow, Option.some.injEq, Prod.mk.injEq, reduceCtorEq] at h
  case cont => obtain ⟨rfl, rfl, rfl, rfl, rfl⟩ := h; rw [show (0x0 : Nat) = (0x0 : BitVec 4).toNat from rfl,
    byte0Of_eq]; rfl
  all_goals
    obtain ⟨rfl, rfl, rfl, rfl, rfl⟩ := h
    first
    | (rw [show (0x1 : Nat) = (0x1 : BitVec 4).toNat from rfl, byte0Of_eq]; rfl)
    | (rw [show (0x2 : Nat) = (0x2 : BitVec 4).toNat from rfl, byte0Of_eq]; rfl)
    | (rw [show (0x3 : Nat) = (0x3 : BitVec 4).toNat from rfl, byte0Of_eq]; rfl)
    | (rw [show (0x4 : Nat) = (0x4 : BitVec 4).toNat from rfl, byte0Of_eq]; rfl)
    | (rw [show (0x5 : Nat) = (0x5 : BitVec 4).toNat from rfl, byte0Of_eq]; rfl)
    | (rw [show (0x6 : Nat) = (0x6 : BitVec 4).toNat from rfl, byte0Of_eq]; rfl)
    | (rw [show (0x7 : Nat) = (0x7 : BitVec 4).toNat from rfl, byte0Of_eq]; rfl)
    | (rw [show (0x8 : Nat) = (0x8 : BitVec 4).toNat from rfl, byte0Of_eq]; rfl)
    | (rw [show (0x9 : Nat) = (0x9 : BitVec 4).toNat from rfl, byte0Of_eq]; rfl)
    | (rw [show (0xA : Nat) = (0xA : BitVec 4).toNat from rfl, byte0Of_eq]; rfl)
    | (rw [show (0xB : Nat) = (0xB : BitVec 4).toNat from rfl, byte0Of_eq]; rfl)
    | (rw [show (0xC : Nat) = (0xC : BitVec 4).toNat from rfl, byte0Of_eq]; rfl)
    | (rw [show (0xD : Nat) = (0xD : BitVec 4).toNat from rfl, byte0Of_eq]; rfl)
    | (rw [show (0xE : Nat) = (0xE : BitVec 4).toNat from rfl, byte0Of_eq]; rfl)
    | (rw [show (0xF : Nat) = (0xF : BitVec 4).toNat from rfl, byte0Of_eq]; rfl)

theorem frameRow_lt {i : Instr} {op : Nat} {f a b c : Bool} (h : Spec.frameRow i = some (op, f, a, b,
    c)) : op < 16 := by
  cases i <;> simp only [Spec.frameRow, Option.some.injEq, Prod.mk.injEq, reduceCtorEq] at h
  all_goals omega

/-- The bytes of a header-format row. -/
theorem exec_headerRow {i : Instr} {y : Byte} {n : Nat} {key : Option Key} (h : Spec.headerRow i = some (y, n, key))
    (hw : i.wellFormed = true) :
    ∃ ext : Bytes, ext.length = extBytes (Byte1.len7 y) ∧ Byte1.mask y = key.isSome
      ∧ (0 < extBytes (Byte1.len7 y) → beNat ext = n) ∧ (extBytes (Byte1.len7 y) = 0 → (Byte1.len7 y).toNat = n)
      ∧ n < 256 ^ 8
      ∧ ∀ s, exec i s = exec (.feed (y :: (ext ++ keyField key))) s := by
  have e0 : ∀ l : BitVec 7, BitVec.ofNat 8 l.toNat = Byte1.make false l := by decide
  have e1 : ∀ l : BitVec 7, BitVec.ofNat 8 (128 + l.toNat) = Byte1.make true l := by decide
  cases i <;> simp only [Spec.headerRow, Option.some.injEq, Prod.mk.injEq, reduceCtorEq] at h
  case h2 l =>
    obtain ⟨rfl, rfl, rfl⟩ := h
    simp [Instr.wellFormed] at hw
    rw [e0, Byte1.len7_make, Byte1.mask_make, extBytes_eq_zero.mpr hw]
    exact ⟨[], rfl, rfl, by simp, by simp, by omega, fun _ => rfl⟩
  case h6 l k =>
    obtain ⟨rfl, rfl, rfl⟩ := h
    simp [Instr.wellFormed] at hw
    rw [e1, Byte1.len7_make, Byte1.mask_make, extBytes_eq_zero.mpr hw]
    exact ⟨[], rfl, rfl, by simp, by simp, by omega, fun _ => rfl⟩
  case h4 l =>
    obtain ⟨rfl, rfl, rfl⟩ := h
    have := l.isLt
    exact ⟨toBe 2 l.toNat, rfl, rfl, fun _ => beNat_toBe_of_lt this, fun h => absurd h (by decide), by omega,
      fun _ => by rw [keyField, List.append_nil]; rfl⟩
  case h8 l k =>
    obtain ⟨rfl, rfl, rfl⟩ := h
    have := l.isLt
    exact ⟨toBe 2 l.toNat, rfl, rfl, fun _ => beNat_toBe_of_lt this, fun h => absurd h (by decide), by omega,
      fun _ => rfl⟩
  case h10 l =>
    obtain ⟨rfl, rfl, rfl⟩ := h
    have := l.isLt
    exact ⟨toBe 8 l.toNat, rfl, rfl, fun _ => beNat_toBe_of_lt this, fun h => absurd h (by decide), by omega,
      fun _ => by rw [keyField, List.append_nil]; rfl⟩
  case h14 l k =>
    obtain ⟨rfl, rfl, rfl⟩ := h
    have := l.isLt
    exact ⟨toBe 8 l.toNat, rfl, rfl, fun _ => beNat_toBe_of_lt this, fun h => absurd h (by decide), by omega,
      fun _ => rfl⟩

end Sys2Proof.Machine
end

