-- ==== Sys2Proof/Laws/Header.lean ====
section
/-!
SUPPORT. The pieces of a frame as chunks: byte 0, byte 1 with the extended length, the mask key, the payload, whole and in
part.
-/
namespace Sys2Proof.Machine

/-- What the last byte of an extended length does, from the registers with the whole length in them. -/
def lengthDone (c : Config) (e : Nat) (x y : Byte) (plen : Nat) (b : Block) : Block × List Event :=
  match (Spec.checkLen c.strictMinlen e plen).or (Spec.checkSize c.maxPayload x b.rxMsgTotal.toNat plen) with
  | some r => fail r b
  | none => Spec.afterLength x y (BitVec.ofNat 64 plen) b

theorem lengthDone_offset (c : Config) (e : Nat) (x y : Byte) (plen : Nat) (b : Block) :
    (lengthDone c e x y plen b).1.rxOffset = b.rxOffset := by
  unfold lengthDone; split
  · rfl
  · exact afterLength_offset ..

theorem extLen_step {c : Config} {e : Nat} {x y z : Byte} {l : U64} {b : Block} (hc : b.ConfiguredAs c)
    (hst : b.rxState = .readingExtendedLength16 ∧ e = 2 ∨ b.rxState = .readingExtendedLength64 ∧ e = 8)
    (hcnt : b.rxCnt.toNat < e) (h0 : b.rxB0 = some x) (h1 : b.rxB1 = some y) (hl : b.rxLen = some l)
    (hlt : l.toNat < 256 ^ b.rxCnt.toNat) :
    receiveByte z b = .ok
      (if b.rxCnt.toNat + 1 = e then
        lengthDone c e x y (l.toNat * 256 + z.toNat)
          { b with rxLen := some (BitVec.ofNat 64 (l.toNat * 256 + z.toNat)), rxCnt := b.rxCnt + 1 }
      else ({ b with rxLen := some (BitVec.ofNat 64 (l.toNat * 256 + z.toNat)), rxCnt := b.rxCnt + 1 }, [])) := by
  have h8 : b.rxCnt.toNat < 8 := by rcases hst with h | h <;> omega
  have h7 : l.toNat < 256 ^ 7 := lt_of_lt_of_le hlt (Nat.pow_le_pow_right (by omega) (by omega))
  have hz := z.isLt
  have hr : receiveByte z b = extLen e z b := by
    rcases hst with ⟨h, rfl⟩ | ⟨h, rfl⟩ <;> simp [receiveByte, h]
  have hs : (b.rxCnt + 1).toNat = b.rxCnt.toNat + 1 := by
    rw [BitVec.toNat_add]; exact Nat.mod_eq_of_lt (by simp; omega)
  have ht : (BitVec.ofNat 64 (l.toNat * 256 + z.toNat)).toNat = l.toNat * 256 + z.toNat := by
    rw [BitVec.toNat_ofNat]; omega
  rw [hr, extLen_eq hc h0 hl, hs, shift_ofNat h7, ht, lenCheck_eq, sizeCheck_eq, ht]
  split
  · unfold lengthDone
    cases (Spec.checkLen c.strictMinlen e (l.toNat * 256 + z.toNat)).or
        (Spec.checkSize c.maxPayload x b.rxMsgTotal.toNat (l.toNat * 256 + z.toNat)) with
    | some r => rfl
    | none => exact afterLength_eq h0 h1 rfl
  · rfl

/-- The bytes of an extended length (R176, R177). -/
theorem extLoop {c : Config} {e : Nat} {x y : Byte} (ext : Bytes) (b : Block) (l : U64) (hc : b.ConfiguredAs c)
    (hst : b.rxState = .readingExtendedLength16 ∧ e = 2 ∨ b.rxState = .readingExtendedLength64 ∧ e = 8)
    (hcnt : b.rxCnt.toNat + ext.length = e) (hpos : 0 < ext.length) (h0 : b.rxB0 = some x) (h1 : b.rxB1 = some y)
    (hl : b.rxLen = some l) (hlt : l.toNat < 256 ^ b.rxCnt.toNat) :
    ∃ o, o = b.rxOffset + BitVec.ofNat 64 (ext.length - 1) ∧
    ∃ p, p = lengthDone c e x y (l.toNat * 256 ^ ext.length + beNat ext)
        { b with
          rxLen := some (BitVec.ofNat 64 (l.toNat * 256 ^ ext.length + beNat ext))
          rxCnt := BitVec.ofNat 64 e
          rxOffset := o }
      ∧ feedLoop ext b = .ok ({ p.1 with rxOffset := o + 1 }, ext.length, p.2) := by
  induction ext generalizing b l with
  | nil => simp at hpos
  | cons z ext ih =>
    have hr := extLen_step (z := z) hc hst (by simp at hcnt; omega) h0 h1 hl hlt
    have hz := z.isLt
    have hs : b.rxCnt + 1 = BitVec.ofNat 64 (b.rxCnt.toNat + 1) := (ofNat_succ _).symm
    have h8 : b.rxCnt.toNat + 1 ≤ 8 := by simp at hcnt; rcases hst with h | h <;> omega
    cases ext with
    | nil =>
      simp only [List.length_singleton] at hcnt
      rw [if_pos hcnt, hs, hcnt] at hr
      refine ⟨_, rfl, _, rfl, ?_⟩
      have hb := feedByteStep_eq hr
      rw [lengthDone_offset] at hb
      rw [feedLoop_singleton hb]
      simp [beNat]
    | cons w ext =>
      simp only [List.length_cons] at hcnt
      rw [if_neg (by omega)] at hr
      have hb := feedByteStep_eq hr
      have hnf : b.rxState ≠ .failed := by rcases hst with h | h <;> simp [h.1]
      have ht : (BitVec.ofNat 64 (l.toNat * 256 + z.toNat)).toNat = l.toNat * 256 + z.toNat := by
        have h7 : l.toNat < 256 ^ 7 := lt_of_lt_of_le hlt (Nat.pow_le_pow_right (by omega) (by omega))
        rw [BitVec.toNat_ofNat]; omega
      have hc1 : (b.rxCnt + 1).toNat = b.rxCnt.toNat + 1 := by rw [hs, BitVec.toNat_ofNat]; omega
      obtain ⟨o, ho, p, hp, hloop⟩ := ih
        { b with rxLen := some (BitVec.ofNat 64 (l.toNat * 256 + z.toNat)), rxCnt := b.rxCnt + 1, rxOffset := b.rxOffset + 1 }
        (BitVec.ofNat 64 (l.toNat * 256 + z.toNat)) hc hst (by simp only [hc1, List.length_cons]; omega)
          (by simp) h0 h1 rfl
        (by rw [ht, hc1, pow_succ]; omega)
      refine ⟨o, ?_, p, ?_, ?_⟩
      · rw [ho]; apply BitVec.eq_of_toNat_eq; simp; omega
      · rw [hp, ht]
        have : (l.toNat * 256 + z.toNat) * 256 ^ (w :: ext).length + beNat (w :: ext)
            = l.toNat * 256 ^ (z :: w :: ext).length + beNat (z :: w :: ext) := by
          rw [beNat_cons z, List.length_cons (a := z), pow_succ]; ring
        rw [this]
      · rw [feedLoop_cons hb, if_neg (by exact hnf), hloop]
        simp

/-- Byte 1 and the extended length, where byte 1 passes its checks: one answer for the six formats (R174 to R178). -/
theorem feed_length {c : Config} {x y : Byte} {ext : Bytes} {n : Nat} {b : Block} (hc : b.ConfiguredAs c)
    (hb : Spec.AwaitsByte1 b x) (hel : ext.length = extBytes (Byte1.len7 y))
    (hn : 0 < extBytes (Byte1.len7 y) → beNat ext = n) (hn0 : extBytes (Byte1.len7 y) = 0 → (Byte1.len7 y).toNat = n)
    (h1 : Spec.check1 c.role x y = none) :
    ∃ b₁ ev, feedLoop (y :: ext) b = .ok (b₁, 1 + ext.length, ev)
      ∧ (∀ r, ((if 0 < extBytes (Byte1.len7 y) then Spec.checkLen c.strictMinlen (extBytes
        (Byte1.len7 y)) n else none).or
            (Spec.checkSize c.maxPayload x b.rxMsgTotal.toNat n)) = some r →
          b₁.rxState = .failed ∧ ev = [.error (errorRecord r (b.rxOffset + BitVec.ofNat 64 ext.length))]
            ∧ b₁.rxErr = some (errorRecord r (b.rxOffset + BitVec.ofNat 64 ext.length))
            ∧ b₁.rxOffset = b.rxOffset + BitVec.ofNat 64 (1 + ext.length))
      ∧ (((if 0 < extBytes (Byte1.len7 y) then Spec.checkLen c.strictMinlen (extBytes (Byte1.len7 y)) n else none).or
            (Spec.checkSize c.maxPayload x b.rxMsgTotal.toNat n)) = none →
          ∃ p, p = Spec.afterLength x y (BitVec.ofNat 64 n)
              { b with rxB1 := some y, rxLen := some (BitVec.ofNat 64 n) }
            ∧ b₁ = { p.1 with rxOffset := b.rxOffset + BitVec.ofNat 64 (1 + ext.length) } ∧ ev = p.2) := by
  obtain ⟨hst, hcnt, h0⟩ := hb
  have hr : receiveByte y b = byte1 y b := receiveByte_byte1 y hst hcnt
  rw [byte1_eq hc h0, hdrCheck1_eq, h1] at hr
  dsimp only at hr
  have h7 := (Byte1.len7 y).isLt
  by_cases hz : extBytes (Byte1.len7 y) = 0
  · have hle := extBytes_eq_zero.mp hz
    have hext : ext = [] := List.eq_nil_of_length_eq_zero (by omega)
    subst hext
    have hn' := hn0 hz
    rw [if_pos hle] at hr
    have e2 : (Byte1.len7 y).setWidth 64 = BitVec.ofNat 64 n := by rw [len7_ofNat, len7Of_eq, hn']
    have e3 : (BitVec.ofNat 64 n).toNat = n := by rw [← hn', BitVec.toNat_ofNat]; omega
    rw [e2, sizeCheck_eq, e3] at hr
    rw [if_neg (by omega), Option.none_or]
    cases hsz : Spec.checkSize c.maxPayload x b.rxMsgTotal.toNat n with
    | some r =>
      rw [hsz] at hr
      refine ⟨_, _, feedLoop_singleton (feedByteStep_eq hr), ?_, by simp⟩
      intro r' hr'
      simp only [Option.some.injEq] at hr'
      subst hr'
      simp
    | none =>
      rw [hsz] at hr
      dsimp only at hr
      rw [afterLength_eq (x := x) (y := y) (l := BitVec.ofNat 64 n) (by exact h0) rfl rfl] at hr
      refine ⟨_, _, feedLoop_singleton (feedByteStep_eq hr), by simp, fun _ => ⟨_, rfl, ?_, rfl⟩⟩
      rw [afterLength_offset]; rfl
  · have hpos : 0 < extBytes (Byte1.len7 y) := by omega
    have hne : ¬ (Byte1.len7 y).toNat ≤ maxShortLength := fun h => hz (extBytes_eq_zero.mpr h)
    rw [if_neg hne] at hr
    have hb2 := feedByteStep_eq hr
    have hn' := hn hpos
    rw [if_pos hpos]
    obtain ⟨o, ho, p, hp, hloop⟩ := extLoop (c := c) (e := extBytes (Byte1.len7 y)) (x := x) (y := y) ext
      { b with
        rxB1 := some y
        rxState := if (Byte1.len7 y).toNat = 126 then .readingExtendedLength16 else .readingExtendedLength64
        rxCnt := 0
        rxLen := some 0
        rxOffset := b.rxOffset + 1 } 0 hc
      (by
        by_cases h6 : (Byte1.len7 y).toNat = 126
        · exact Or.inl ⟨if_pos h6, extBytes_eq_two.mpr h6⟩
        · refine Or.inr ⟨if_neg h6, extBytes_eq_eight.mpr ?_⟩
          simp only [maxShortLength] at hne; omega)
      (by simp [hel]) (by omega) h0 rfl rfl (by simp)
    have hval : (0 : U64).toNat * 256 ^ ext.length + beNat ext = n := by simp [hn']
    rw [hval] at hp
    have hoff : o = b.rxOffset + BitVec.ofNat 64 ext.length := by
      rw [ho]; apply BitVec.eq_of_toNat_eq; simp; omega
    have hoff1 : o + 1 = b.rxOffset + BitVec.ofNat 64 (1 + ext.length) := by
      rw [hoff]; apply BitVec.eq_of_toNat_eq; simp; omega
    have hfl : feedLoop (y :: ext) b = .ok ({ p.1 with rxOffset := o + 1 }, 1 + ext.length, p.2) := by
      rw [feedLoop_cons hb2, if_neg (by dsimp only; split <;> simp), hloop]
      simp [Nat.add_comm]
    refine ⟨_, _, hfl, ?_, ?_⟩
    · intro r hr'
      unfold lengthDone at hp
      dsimp only at hp
      rw [hr'] at hp
      subst hp
      exact ⟨rfl, by rw [← hoff]; rfl, by rw [← hoff]; rfl, hoff1⟩
    · intro hnone
      unfold lengthDone at hp
      dsimp only at hp
      rw [hnone] at hp
      have hi := afterLength_ignores x y (BitVec.ofNat 64 n) { b with rxB1 := some y, rxLen := some (BitVec.ofNat 64 n) }
        (if (Byte1.len7 y).toNat = 126 then .readingExtendedLength16 else .readingExtendedLength64)
        (BitVec.ofNat 64 (extBytes (Byte1.len7 y))) o
      have hp' := hp.trans hi
      refine ⟨_, rfl, ?_, ?_⟩
      · rw [← hoff1, hp']
      · rw [hp']

/-- The mask key (R179, R180). -/
theorem feed_key {x y : Byte} {l : U64} {b : Block} (k : Key) (hst : b.rxState = .readingMask) (hcnt : b.rxCnt = 0)
    (h0 : b.rxB0 = some x) (h1 : b.rxB1 = some y) (hm : Byte1.mask y = true) (hl : b.rxLen = some l) :
    ∃ p, p = Spec.enterPayload x y l (some k) { b with rxKey := ⟨some k.k0, some k.k1, some k.k2, some k.k3⟩ }
      ∧ feedLoop k.bytes b = .ok ({ p.1 with rxOffset := b.rxOffset + 4 }, 4, p.2) := by
  obtain ⟨k0, k1, k2, k3⟩ := k
  have s0 : receiveByte k0 b = .ok ({ b with rxKey := { b.rxKey with k0 := some k0 }, rxCnt := 1 }, []) := by
    rw [receiveByte_mask k0 (by exact hst), maskByte, hcnt]; rfl
  have s1 : ∀ o, receiveByte k1 { b with rxKey := { b.rxKey with k0 := some k0 }, rxCnt := 1, rxOffset := o } =
      .ok ({ b with rxKey := { b.rxKey with k0 := some k0, k1 := some k1 }, rxCnt := 2, rxOffset := o }, []) := by
    intro o
    rw [receiveByte_mask k1 (by exact hst), maskByte]; rfl
  have s2 : ∀ o, receiveByte k2 { b with rxKey := { b.rxKey with k0 := some k0, k1 := some k1 }, rxCnt := 2, rxOffset := o } =
      .ok ({ b with rxKey := { b.rxKey with k0 := some k0, k1 := some k1, k2 := some k2 }, rxCnt := 3, rxOffset := o }, []) := by
    intro o
    rw [receiveByte_mask k2 (by exact hst), maskByte]; rfl
  have s3 : ∀ o, receiveByte k3 { b with rxKey := { b.rxKey with k0 := some k0, k1 := some k1, k2 := some k2 }, rxCnt := 3, rxOffset := o } =
      .ok (Spec.enterPayload x y l (some ⟨k0, k1, k2, k3⟩) { b with rxKey := ⟨some k0, some k1, some k2, some k3⟩, rxState := b.rxState, rxCnt := 4, rxOffset := o }) := by
    intro o
    rw [receiveByte_mask k3 (by exact hst), maskByte]
    exact enterPayload_eq (b := { b with rxKey := ⟨some k0, some k1, some k2, some k3⟩, rxCnt := 4, rxOffset := o })
      h0 h1 hl (by simp [hm, KeyRegs.whole])
  have hnf : b.rxState ≠ .failed := by simp [hst]
  refine ⟨_, rfl, ?_⟩
  have t3 := s3 (b.rxOffset + 1 + 1 + 1)
  rw [enterPayload_ignores x y l _ { b with rxKey := ⟨some k0, some k1, some k2, some k3⟩ }] at t3
  simp only [Key.bytes]
  rw [feedLoop_cons (feedByteStep_eq s0), if_neg (by exact hnf), feedLoop_cons (feedByteStep_eq (s1 _)), if_neg
    (by exact hnf),
    feedLoop_cons (feedByteStep_eq (s2 _)), if_neg (by exact hnf), feedLoop_singleton (feedByteStep_eq t3)]
  simp only [except_map_ok, List.nil_append]
  congr 3
  apply BitVec.eq_of_toNat_eq; simp [Nat.add_assoc]

/-- The rest of a header, where every check passes. -/
theorem feed_header {c : Config} {x y : Byte} {ext : Bytes} {n : Nat} {key : Option Key} {b : Block}
    (hc : b.ConfiguredAs c)
    (hb : Spec.AwaitsByte1 b x) (hel : ext.length = extBytes (Byte1.len7 y)) (hm : Byte1.mask y = key.isSome)
    (hn : 0 < extBytes (Byte1.len7 y) → beNat ext = n) (hn0 : extBytes (Byte1.len7 y) = 0 → (Byte1.len7 y).toNat = n)
    (h1 : Spec.check1 c.role x y = none)
    (hlen : 0 < extBytes (Byte1.len7 y) → Spec.checkLen c.strictMinlen (extBytes (Byte1.len7 y)) n = none)
    (hsz : Spec.checkSize c.maxPayload x b.rxMsgTotal.toNat n = none) :
    ∃ p, p = Spec.enterPayload x y (BitVec.ofNat 64 n) key
          { b with
            rxB1 := some y
            rxLen := some (BitVec.ofNat 64 n)
            rxKey := Spec.latchedKey key b.rxKey }
      ∧ feedLoop (y :: (ext ++ keyField key)) b = .ok
        ({ p.1 with rxOffset := b.rxOffset + BitVec.ofNat 64 (1 + ext.length + 4 * key.isSome.toNat) },
          1 + ext.length + 4 * key.isSome.toNat, p.2) := by
  obtain ⟨b₁, ev, hl, -, hok⟩ := feed_length hc hb hel hn hn0 h1
  have hchk : ((if 0 < extBytes (Byte1.len7 y) then Spec.checkLen c.strictMinlen (extBytes
    (Byte1.len7 y)) n else none).or
            (Spec.checkSize c.maxPayload x b.rxMsgTotal.toNat n)) = none := by
    rw [hsz]; split
    · rw [hlen (by assumption)]; rfl
    · rfl
  obtain ⟨p, hp, rfl, rfl⟩ := hok hchk
  have hnf : b.rxState ≠ .failed := by rw [hb.1]; simp
  unfold Spec.afterLength at hp
  cases key with
  | none =>
    rw [bitOf_mask, hm, if_neg (by simp)] at hp
    refine ⟨p, hp, ?_⟩
    simp only [keyField, List.append_nil]
    exact hl
  | some k =>
    rw [bitOf_mask, hm, if_pos (by simp)] at hp
    subst hp
    obtain ⟨q, hq, hk⟩ := feed_key (x := x) (y := y) (l := BitVec.ofNat 64 n)
      (b := { b with
          rxB1 := some y
          rxLen := some (BitVec.ofNat 64 n)
          rxState := .readingMask
          rxCnt := 0
          rxOffset := b.rxOffset + BitVec.ofNat 64 (1 + ext.length) }) k rfl rfl hb.2.2 rfl hm rfl
    have hi := enterPayload_ignores x y (BitVec.ofNat 64 n) (some k)
      { b with rxB1 := some y, rxLen := some (BitVec.ofNat 64 n), rxKey := ⟨some k.k0, some k.k1, some k.k2, some k.k3⟩ }
      .readingMask 0 (b.rxOffset + BitVec.ofNat 64 (1 + ext.length))
    have hq' := hq.trans hi
    refine ⟨_, rfl, ?_⟩
    have ha := ((feedLoop_append (c := k.bytes) hnf hl).2 (by simp)).2
    rw [List.cons_append] at ha
    simp only [keyField]
    rw [ha, hk, hq']
    simp only [except_map_ok, List.nil_append, Option.isSome_some, Bool.toNat_true]
    congr 3
    apply BitVec.eq_of_toNat_eq; simp; omega

/-- The payload on the receiver's side of the mask, from payload index `i` on. -/
def unmask (key : Option Key) (data : Bytes) (i : Nat) : Bytes :=
  match key with
  | none => data
  | some k => mask data k i

theorem unmask_cons (key : Option Key) (z : Byte) (data : Bytes) (i : Nat) :
    unmask key (z :: data) i = unmask key [z] i ++ unmask key data (i + 1) := by
  cases key <;> rfl

/-- One payload byte (R181). -/
theorem payload_step {b : Block} {x y z : Byte} {l : U64} {key : Option Key} 
    (hst : b.rxState = .readingPayload) (h0 : b.rxB0 = some x) (h1 : b.rxB1 = some y) (hl : b.rxLen = some l)
    (hlt : b.rxCnt.toNat < l.toNat)
    (hk : Spec.bitOf y 7 = false ∧ key = none
      ∨ Spec.bitOf y 7 = true ∧ ∃ k, key = some k ∧ b.rxKey = ⟨some k.k0, some k.k1, some k.k2, some k.k3⟩) :
    receiveByte z b = .ok
      (if b.rxCnt.toNat + 1 = l.toNat then Spec.dispatched x y l key (b.rxPayload ++ unmask key [z] b.rxCnt.toNat) b
        else ({ b with rxPayload := b.rxPayload ++ unmask key [z] b.rxCnt.toNat, rxCnt := b.rxCnt + 1 }, [])) := by
  have hll := l.isLt
  have hsucc : (b.rxCnt + 1).toNat = b.rxCnt.toNat + 1 := by
    rw [BitVec.toNat_add]; exact Nat.mod_eq_of_lt (by simp; omega)
  have heq : (b.rxCnt + 1 = l) ↔ b.rxCnt.toNat + 1 = l.toNat := by
    rw [← hsucc, BitVec.toNat_inj]
  obtain ⟨d, hd, hd'⟩ : ∃ d, demasked z y b = .ok d ∧ unmask key [z] b.rxCnt.toNat = [d] := by
    rcases hk with ⟨hy, rfl⟩ | ⟨hy, k, rfl, hk⟩
    · rw [bitOf_mask] at hy; exact ⟨z, by simp [demasked, hy], rfl⟩
    · rw [bitOf_mask] at hy
      have := KeyRegs.byteAt_of_whole (KeyRegs.whole_eq_some.mpr hk) b.rxCnt.toNat
      exact ⟨z ^^^ k.byteAt b.rxCnt.toNat, by simp only [demasked, hy, if_true, Block.readKeyByte, this,
        readReg_some, except_map_ok], rfl⟩
  have hcond : if Byte1.mask y = true then key.isSome = true ∧ b.rxKey.whole = key else key = none := by
    rcases hk with ⟨hy, rfl⟩ | ⟨hy, k, rfl, hk⟩ <;> rw [bitOf_mask] at hy
    · simp [hy]
    · simp [hy, KeyRegs.whole_eq_some.mpr hk]
  have hr : receiveByte z b = payloadByte z b := by simp [receiveByte, hst]
  have hb1 : b.readB1 = .ok y := by simp [Block.readB1, h1]
  have hbl : b.readLen = .ok l := by simp [Block.readLen, hl]
  simp only [hr, payloadByte, hb1, hbl, except_ok_bind, hd, heq, hd']
  split
  · exact dispatch_spec (b := { b with rxPayload := b.rxPayload ++ [d], rxCnt := b.rxCnt + 1 })
      h0 h1 hl hcond
  · rfl

/-- The rest of a payload, behind the bytes already there (R181). -/
theorem feed_payload {x y : Byte} {l : U64} {key : Option Key} (rest : Bytes) (b : Block)
    (hst : b.rxState = .readingPayload) (h0 : b.rxB0 = some x) (h1 : b.rxB1 = some y) (hl : b.rxLen = some l)
    (hk : Spec.bitOf y 7 = false ∧ key = none
      ∨ Spec.bitOf y 7 = true ∧ ∃ k, key = some k ∧ b.rxKey = ⟨some k.k0, some k.k1, some k.k2, some k.k3⟩)
    (hlen : b.rxCnt.toNat + rest.length = l.toNat) (hpos : 0 < rest.length) :
    ∃ p, p = Spec.dispatched x y l key (b.rxPayload ++ unmask key rest b.rxCnt.toNat) b
      ∧ feedLoop rest b = .ok ({ p.1 with rxOffset := b.rxOffset + BitVec.ofNat 64 rest.length }, rest.length, p.2) := by
  induction rest generalizing b with
  | nil => simp at hpos
  | cons z rest ih =>
    have hll := l.isLt
    simp only [List.length_cons] at hlen
    have hby := payload_step (z := z) hst h0 h1 hl (by omega) hk
    cases rest with
    | nil =>
      have hlast : b.rxCnt.toNat + 1 = l.toNat := by simpa using hlen
      rw [if_pos hlast] at hby
      refine ⟨_, rfl, ?_⟩
      rw [feedLoop_singleton (feedByteStep_eq hby)]
      rfl
    | cons w rest =>
      have hmore : ¬ b.rxCnt.toNat + 1 = l.toNat := by simp at hlen; omega
      rw [if_neg hmore] at hby
      have hsucc : (b.rxCnt + 1).toNat = b.rxCnt.toNat + 1 := by
        rw [BitVec.toNat_add]; exact Nat.mod_eq_of_lt (by simp at hlen ⊢; omega)
      rw [feedLoop_cons (feedByteStep_eq hby)]
      dsimp only
      rw [if_neg (by rw [hst]; simp)]
      obtain ⟨p, hp, hloop⟩ := ih
        { b with
          rxPayload := b.rxPayload ++ unmask key [z] b.rxCnt.toNat
          rxCnt := b.rxCnt + 1
          rxOffset := b.rxOffset + 1 } hst h0 h1 hl hk (by dsimp only; rw [hsucc]; simp at hlen ⊢; omega) (by simp)
      refine ⟨_, rfl, ?_⟩
      rw [hloop, hp]
      dsimp only
      rw [hsucc, List.append_assoc, ← unmask_cons]
      have ho : b.rxOffset + 1 + BitVec.ofNat 64 (w :: rest).length = b.rxOffset + BitVec.ofNat 64
        (z :: w :: rest).length := by
        apply BitVec.eq_of_toNat_eq; simp; omega
      rw [ho]
      rfl

/-- Byte 0, where its checks pass. -/
theorem feed_byte0 {c : Config} {x : Byte} {b : Block} (hc : b.ConfiguredAs c) (hb : Spec.AtBoundary b)
    (h : (Spec.check0 c.rsv1Allowed x).or (Spec.checkSeq b.rxFragOpen x) = none) :
    feedLoop [x] b = .ok ({ b with rxB0 := some x, rxCnt := 1, rxOffset := b.rxOffset + 1 }, 1, []) := by
  have hr : receiveByte x b = .ok ({ b with rxB0 := some x, rxCnt := 1 }, []) := by
    rw [receiveByte_byte0 x hb.1 hb.2, byte0_eq hc, hdrCheck0_eq, seqCheck_eq, h]
  rw [feedLoop_singleton (feedByteStep_eq hr)]

theorem feed_byte0_fail {c : Config} {x : Byte} {b : Block} {r : Reason} (hc : b.ConfiguredAs c)
    (hb : Spec.AtBoundary b)
    (h : (Spec.check0 c.rsv1Allowed x).or (Spec.checkSeq b.rxFragOpen x) = some r) :
    feedLoop [x] b = .ok ({ (fail r { b with rxB0 := some x }).1 with rxOffset := b.rxOffset + 1 }, 1,
      [.error (errorRecord r b.rxOffset)]) := by
  have hr : receiveByte x b = .ok (fail r { b with rxB0 := some x }) := by
    rw [receiveByte_byte0 x hb.1 hb.2, byte0_eq hc, hdrCheck0_eq, seqCheck_eq, h]
  rw [feedLoop_singleton (feedByteStep_eq hr)]
  rfl

theorem boundary_not_failed {b : Block} (hb : Spec.AtBoundary b) : b.rxState ≠ .failed := by rw [hb.1]; simp

/-- A whole header, where every check passes, from a frame boundary. -/
theorem feed_whole_header {c : Config} {x y : Byte} {ext : Bytes} {n : Nat} {key : Option Key} {b : Block}
    (hc : b.ConfiguredAs c)
    (hb : Spec.AtBoundary b) (h0 : (Spec.check0 c.rsv1Allowed x).or (Spec.checkSeq b.rxFragOpen x) = none)
    (hel : ext.length = extBytes (Byte1.len7 y)) (hm : Byte1.mask y = key.isSome)
    (hn : 0 < extBytes (Byte1.len7 y) → beNat ext = n) (hn0 : extBytes (Byte1.len7 y) = 0 → (Byte1.len7 y).toNat = n)
    (h1 : Spec.check1 c.role x y = none)
    (hlen : 0 < extBytes (Byte1.len7 y) → Spec.checkLen c.strictMinlen (extBytes (Byte1.len7 y)) n = none)
    (hsz : Spec.checkSize c.maxPayload x b.rxMsgTotal.toNat n = none) :
    ∃ p, p = Spec.enterPayload x y (BitVec.ofNat 64 n) key
          { b with
            rxCnt := 1
            rxB0 := some x
            rxB1 := some y
            rxLen := some (BitVec.ofNat 64 n)
            rxKey := Spec.latchedKey key b.rxKey
            rxOffset := b.rxOffset + 1 }
      ∧ feedLoop (x :: y :: (ext ++ keyField key)) b = .ok
        ({ p.1 with rxOffset := b.rxOffset + BitVec.ofNat 64 (2 + ext.length + 4 * key.isSome.toNat) },
          2 + ext.length + 4 * key.isSome.toNat, p.2) := by
  obtain ⟨p, hp, hl⟩ := feed_header (b := { b with rxB0 := some x, rxCnt := 1, rxOffset := b.rxOffset + 1 }) (n := n) (key := key)
    hc ⟨hb.1, rfl, rfl⟩ hel hm hn hn0 h1 hlen hsz
  refine ⟨p, hp, ?_⟩
  have ha := ((feedLoop_append (c := y :: (ext ++ keyField key)) (boundary_not_failed hb) (feed_byte0 hc hb h0)).2
    (by dsimp only; rw [hb.1]; simp)).2
  rw [List.singleton_append] at ha
  rw [ha, hl]
  simp only [except_map_ok, List.nil_append]
  have h1 : 1 + (1 + ext.length + 4 * key.isSome.toNat) = 2 + ext.length + 4 * key.isSome.toNat := by omega
  have h2 : b.rxOffset + 1 + BitVec.ofNat 64 (1 + ext.length + 4 * key.isSome.toNat)
      = b.rxOffset + BitVec.ofNat 64 (2 + ext.length + 4 * key.isSome.toNat) := by
    apply BitVec.eq_of_toNat_eq; simp; omega
  rw [h1, h2]

/-- Part of an extended length: no event, the same state. -/
theorem ext_partial {c : Config} {e : Nat} {x y : Byte} (rest : Bytes) (b : Block) (l : U64) (hc : b.ConfiguredAs c)
    (hst : b.rxState = .readingExtendedLength16 ∧ e = 2 ∨ b.rxState = .readingExtendedLength64 ∧ e = 8)
    (hcnt : b.rxCnt.toNat + rest.length < e) (h0 : b.rxB0 = some x) (h1 : b.rxB1 = some y)
    (hl : b.rxLen = some l) (hlt : l.toNat < 256 ^ b.rxCnt.toNat) :
    ∃ b', feedLoop rest b = .ok (b', rest.length, []) ∧ b'.rxState = b.rxState := by
  induction rest generalizing b l with
  | nil => exact ⟨b, rfl, rfl⟩
  | cons z rest ih =>
    simp only [List.length_cons] at hcnt
    have hr := extLen_step (z := z) hc hst (by omega) h0 h1 hl hlt
    rw [if_neg (by omega)] at hr
    have hb := feedByteStep_eq hr
    have hz := z.isLt
    have hnf : b.rxState ≠ .failed := by rcases hst with h | h <;> simp [h.1]
    have h8 : b.rxCnt.toNat + 1 ≤ 8 := by rcases hst with h | h <;> omega
    have h7 : l.toNat < 256 ^ 7 := lt_of_lt_of_le hlt (Nat.pow_le_pow_right (by omega) (by omega))
    have ht : (BitVec.ofNat 64 (l.toNat * 256 + z.toNat)).toNat = l.toNat * 256 + z.toNat := by
      rw [BitVec.toNat_ofNat]; omega
    have hc1 : (b.rxCnt + 1).toNat = b.rxCnt.toNat + 1 := by rw [← ofNat_succ, BitVec.toNat_ofNat]; omega
    obtain ⟨b', hl', hs'⟩ := ih
      { b with rxLen := some (BitVec.ofNat 64 (l.toNat * 256 + z.toNat)), rxCnt := b.rxCnt + 1, rxOffset := b.rxOffset + 1 }
      (BitVec.ofNat 64 (l.toNat * 256 + z.toNat)) hc hst (by simp only [hc1]; omega) h0 h1 rfl
      (by rw [ht, hc1, pow_succ]; omega)
    refine ⟨b', ?_, hs'⟩
    rw [feedLoop_cons hb, if_neg (by exact hnf), hl']
    simp

/-- Part of a mask key: no event, the same state. -/
theorem key_partial (rest : Bytes) (b : Block) (hst : b.rxState = .readingMask)
    (hcnt : b.rxCnt.toNat + rest.length < 4) :
    ∃ b', feedLoop rest b = .ok (b', rest.length, []) ∧ b'.rxState = .readingMask := by
  induction rest generalizing b with
  | nil => exact ⟨b, rfl, hst⟩
  | cons z rest ih =>
    simp only [List.length_cons] at hcnt
    obtain ⟨k, hk⟩ := KeyRegs.write_ok (show b.rxCnt.toNat < 4 by omega) b.rxKey z
    have hc1 : (b.rxCnt + 1).toNat = b.rxCnt.toNat + 1 := by rw [← ofNat_succ, BitVec.toNat_ofNat]; omega
    have hr : receiveByte z b = .ok ({ b with rxKey := k, rxCnt := b.rxCnt + 1 }, []) := by
      rw [receiveByte_mask z hst, maskByte_eq hk, if_neg]
      intro h
      rw [h] at hc1
      have : (4 : U64).toNat = 4 := rfl
      omega
    obtain ⟨b', hl', hs'⟩ := ih { b with rxKey := k, rxCnt := b.rxCnt + 1, rxOffset := b.rxOffset + 1 } hst (by simp only [hc1]; omega)
    refine ⟨b', ?_, hs'⟩
    rw [feedLoop_cons (feedByteStep_eq hr), if_neg (by dsimp only; rw [hst]; simp), hl']
    simp

theorem offset_one (o : U64) (n : Nat) : o + 1 + BitVec.ofNat 64 n = o + BitVec.ofNat 64 (1 + n) := by
  apply BitVec.eq_of_toNat_eq; simp; omega

end Sys2Proof.Machine
end

