-- ==== Sys2Proof/Laws/PerInstr.lean ====
section
/-!
SUPPORT. The family TableWord: what the encoding of an instruction has to do with its row of spec/opcode_table.json, one lemma
for each constructor.
-/
namespace Sys2Proof

/-- The LEN7 values of the formats H2 and H6 select those formats' rows. -/
theorem byte1Rows_short (mask : Bool) (len7 : BitVec 7) (h : len7.toNat ≤ 125) :
    (byte1Rows.filter (·.selects (Byte1.make mask len7))).map (·.mnemonic) = [if mask then "H6" else "H2"] := by
  revert len7 mask; decide

end Sys2Proof

namespace Sys2Proof.Laws.TableWord

/-- The first byte of a well-formed instruction's encoding is selected, within its format, by exactly one row of
spec/opcode_table.json, the row of its mnemonic. -/
def Statement (i : Instr) : Prop :=
  i.wellFormed = true → ∃ b rest, i.bytes = b :: rest
    ∧ ((tableRows i.format).filter (·.selects b)).map (·.mnemonic) = [i.mnemonic]

theorem reset : Statement .reset := fun _ => ⟨_, _, rfl, rfl⟩

theorem configure (role : Role) (rsv1Allowed : Bool) (maxPayload : U64) (strictMinlen : Bool) :
    Statement (.configure role rsv1Allowed maxPayload strictMinlen) := fun _ => ⟨_, _, rfl, rfl⟩

theorem readStatus : Statement .readStatus := fun _ => ⟨_, _, rfl, rfl⟩

theorem encodeHeader (opcode : BitVec 4) (fin rsv1 : Bool) (key : Option Key) (n : Nat) :
    Statement (.encodeHeader opcode fin rsv1 key n) := fun _ => ⟨_, _, rfl, rfl⟩

theorem encodeFrame (opcode : BitVec 4) (fin rsv1 : Bool) (key : Option Key) (payload : Bytes) :
    Statement (.encodeFrame opcode fin rsv1 key payload) := fun _ => ⟨_, _, rfl, rfl⟩

theorem applyMask (data : Bytes) (key : Key) (phase : BitVec 2) :
    Statement (.applyMask data key phase) := fun _ => ⟨_, _, rfl, rfl⟩

theorem decodeHeader (buf : Bytes) : Statement (.decodeHeader buf) := fun _ => ⟨_, _, rfl, rfl⟩

theorem feedByte (b : Byte) : Statement (.feedByte b) := fun _ => ⟨_, _, rfl, rfl⟩

theorem feed (data : Bytes) : Statement (.feed data) := fun _ => ⟨_, _, rfl, rfl⟩

theorem reserved9 : Statement .reserved9 := fun _ => ⟨_, _, rfl, rfl⟩

theorem reservedA : Statement .reservedA := fun _ => ⟨_, _, rfl, rfl⟩

theorem reservedB : Statement .reservedB := fun _ => ⟨_, _, rfl, rfl⟩

theorem reservedC : Statement .reservedC := fun _ => ⟨_, _, rfl, rfl⟩

theorem reservedD : Statement .reservedD := fun _ => ⟨_, _, rfl, rfl⟩

theorem reservedE : Statement .reservedE := fun _ => ⟨_, _, rfl, rfl⟩

theorem reservedF : Statement .reservedF := fun _ => ⟨_, _, rfl, rfl⟩

theorem cont (fin rsv1 rsv2 rsv3 : Bool) : Statement (.cont fin rsv1 rsv2 rsv3) := fun _ =>
  ⟨_, _, rfl, by revert fin rsv1 rsv2 rsv3; decide⟩

theorem text (fin rsv1 rsv2 rsv3 : Bool) : Statement (.text fin rsv1 rsv2 rsv3) := fun _ =>
  ⟨_, _, rfl, by revert fin rsv1 rsv2 rsv3; decide⟩

theorem bin (fin rsv1 rsv2 rsv3 : Bool) : Statement (.bin fin rsv1 rsv2 rsv3) := fun _ =>
  ⟨_, _, rfl, by revert fin rsv1 rsv2 rsv3; decide⟩

theorem rsvdD3 (fin rsv1 rsv2 rsv3 : Bool) : Statement (.rsvdD3 fin rsv1 rsv2 rsv3) := fun _ =>
  ⟨_, _, rfl, by revert fin rsv1 rsv2 rsv3; decide⟩

theorem rsvdD4 (fin rsv1 rsv2 rsv3 : Bool) : Statement (.rsvdD4 fin rsv1 rsv2 rsv3) := fun _ =>
  ⟨_, _, rfl, by revert fin rsv1 rsv2 rsv3; decide⟩

theorem rsvdD5 (fin rsv1 rsv2 rsv3 : Bool) : Statement (.rsvdD5 fin rsv1 rsv2 rsv3) := fun _ =>
  ⟨_, _, rfl, by revert fin rsv1 rsv2 rsv3; decide⟩

theorem rsvdD6 (fin rsv1 rsv2 rsv3 : Bool) : Statement (.rsvdD6 fin rsv1 rsv2 rsv3) := fun _ =>
  ⟨_, _, rfl, by revert fin rsv1 rsv2 rsv3; decide⟩

theorem rsvdD7 (fin rsv1 rsv2 rsv3 : Bool) : Statement (.rsvdD7 fin rsv1 rsv2 rsv3) := fun _ =>
  ⟨_, _, rfl, by revert fin rsv1 rsv2 rsv3; decide⟩

theorem close (fin rsv1 rsv2 rsv3 : Bool) : Statement (.close fin rsv1 rsv2 rsv3) := fun _ =>
  ⟨_, _, rfl, by revert fin rsv1 rsv2 rsv3; decide⟩

theorem ping (fin rsv1 rsv2 rsv3 : Bool) : Statement (.ping fin rsv1 rsv2 rsv3) := fun _ =>
  ⟨_, _, rfl, by revert fin rsv1 rsv2 rsv3; decide⟩

theorem pong (fin rsv1 rsv2 rsv3 : Bool) : Statement (.pong fin rsv1 rsv2 rsv3) := fun _ =>
  ⟨_, _, rfl, by revert fin rsv1 rsv2 rsv3; decide⟩

theorem rsvdCB (fin rsv1 rsv2 rsv3 : Bool) : Statement (.rsvdCB fin rsv1 rsv2 rsv3) := fun _ =>
  ⟨_, _, rfl, by revert fin rsv1 rsv2 rsv3; decide⟩

theorem rsvdCC (fin rsv1 rsv2 rsv3 : Bool) : Statement (.rsvdCC fin rsv1 rsv2 rsv3) := fun _ =>
  ⟨_, _, rfl, by revert fin rsv1 rsv2 rsv3; decide⟩

theorem rsvdCD (fin rsv1 rsv2 rsv3 : Bool) : Statement (.rsvdCD fin rsv1 rsv2 rsv3) := fun _ =>
  ⟨_, _, rfl, by revert fin rsv1 rsv2 rsv3; decide⟩

theorem rsvdCE (fin rsv1 rsv2 rsv3 : Bool) : Statement (.rsvdCE fin rsv1 rsv2 rsv3) := fun _ =>
  ⟨_, _, rfl, by revert fin rsv1 rsv2 rsv3; decide⟩

theorem rsvdCF (fin rsv1 rsv2 rsv3 : Bool) : Statement (.rsvdCF fin rsv1 rsv2 rsv3) := fun _ =>
  ⟨_, _, rfl, by revert fin rsv1 rsv2 rsv3; decide⟩

theorem h2 (len7 : BitVec 7) : Statement (.h2 len7) := fun h =>
  ⟨_, _, rfl, byte1Rows_short false len7 (by simpa [Instr.wellFormed] using h)⟩

theorem h6 (len7 : BitVec 7) (key : Key) : Statement (.h6 len7 key) := fun h =>
  ⟨_, _, rfl, byte1Rows_short true len7 (by simpa [Instr.wellFormed] using h)⟩

theorem h4 (len : BitVec 16) : Statement (.h4 len) := fun _ => ⟨_, _, rfl, rfl⟩

theorem h8 (len : BitVec 16) (key : Key) : Statement (.h8 len key) := fun _ => ⟨_, _, rfl, rfl⟩

theorem h10 (len : U64) : Statement (.h10 len) := fun _ => ⟨_, _, rfl, rfl⟩

theorem h14 (len : U64) (key : Key) : Statement (.h14 len key) := fun _ => ⟨_, _, rfl, rfl⟩

end Sys2Proof.Laws.TableWord
end

