-- ==== Sys2Proof/Tests/Slice0.lean ====
section
/-!
SUPPORT. Tests of the model: ill-formed terms, words written out from the spec's encodings, one or two small vectors of
spec/95_test_vectors.md for each instruction, and for every statement of Certificates/Slice0/Obligations.lean that has
hypotheses a concrete state and operands that meet them.
-/
namespace Sys2Proof.Tests

open Sys2Proof.Machine

/-! ## States and what a command answers -/

/-- `CFG_S` of spec/95_test_vectors.md. -/
def server : Config := ⟨.server, false, BitVec.allOnes 64, false⟩
/-- `CFG_C` of spec/95_test_vectors.md. -/
def client : Config := ⟨.client, false, BitVec.allOnes 64, false⟩
/-- `CFG_S[rsv1_allowed=1]`. -/
def serverRsv1 : Config := ⟨.server, true, BitVec.allOnes 64, false⟩
/-- `CFG_S[max_payload=4]`. -/
def server4 : Config := ⟨.server, false, 4, false⟩
/-- `CFG_S[strict_minlen=1]`. -/
def serverStrict : Config := ⟨.server, false, BitVec.allOnes 64, true⟩

/-- A fresh configured instance. -/
def started (c : Config) : State := { State.reset with block := attachConfig Block.reset c }

/-- The state a command leaves; the state before where it gives none. -/
def after (i : Instr) (s : State) : State :=
  match exec i s with
  | .next t => t
  | .fault _ => s
  | .refused _ => s

/-- The result a command gives; none where it gives no next state. -/
def answer (i : Instr) (s : State) : Option Result :=
  match exec i s with
  | .next t => t.result
  | .fault _ => none
  | .refused _ => none

/-- A fresh instance that has been fed some bytes. -/
def fed (c : Config) (data : Bytes) : State := after (.feed data) (started c)

/-- `{state, cnt, frag, total, offset}` of spec/95_test_vectors.md. -/
def summary (s : State) : RxState × Nat × Bool × Nat × Nat :=
  (s.block.rxState, s.block.rxCnt.toNat, s.block.rxFragOpen, s.block.rxMsgTotal.toNat, s.block.rxOffset.toNat)

/-- A header with its fields in the order of R44. -/
def hdr (op : BitVec 4) (fin rsv1 masked : Bool) (len7 : BitVec 7) (plen : U64) (key : Option Key) (size : Nat) :
    Header := ⟨fin, rsv1, false, false, op, masked, len7, plen, key, size⟩

def key1234 : Key := ⟨1, 2, 3, 4⟩
def zeroKey : Key := ⟨0, 0, 0, 0⟩

/-! ## WellFormed: LEN7 of H2 and H6 is at most 125 (R71) -/

theorem test_h2_126_is_ill_formed : (Instr.h2 126).wellFormed = false := by decide
theorem test_h2_127_is_ill_formed : (Instr.h2 127).wellFormed = false := by decide
theorem test_h6_126_is_ill_formed : (Instr.h6 126 key1234).wellFormed = false := by decide
theorem test_h6_127_is_ill_formed : (Instr.h6 127 key1234).wellFormed = false := by decide
theorem test_h2_h6_125_are_well_formed :
    (Instr.h2 125).wellFormed = true ∧ (Instr.h6 125 key1234).wellFormed = true := by decide

/-! ## Decoding words written out from the spec -/

/-- R83: the codes 0 and 2, and the reserved codes 9 to F. -/
theorem test_decode_commands_without_arguments :
    decode ⟨.cmd, [0b00000000]⟩ = .ok .reset ∧ decode ⟨.cmd, [0b00000010]⟩ = .ok .readStatus
      ∧ decode ⟨.cmd, [0b00001001]⟩ = .ok .reserved9 ∧ decode ⟨.cmd, [0b00001010]⟩ = .ok .reservedA
      ∧ decode ⟨.cmd, [0b00001011]⟩ = .ok .reservedB ∧ decode ⟨.cmd, [0b00001100]⟩ = .ok .reservedC
      ∧ decode ⟨.cmd, [0b00001101]⟩ = .ok .reservedD ∧ decode ⟨.cmd, [0b00001110]⟩ = .ok .reservedE
      ∧ decode ⟨.cmd, [0b00001111]⟩ = .ok .reservedF := ⟨rfl, rfl, rfl, rfl, rfl, rfl, rfl, rfl, rfl⟩

/-- R83 code 1, arguments packed as notes/assumptions/2.md says. -/
theorem test_decode_configure :
    decode ⟨.cmd, [0b00000001, 1, 0, 0, 0, 0, 0, 0, 0x10, 0, 0, 1]⟩ = .ok (.configure .server false 0x100000 true) := rfl

/-- R83 codes 3 and 4. -/
theorem test_decode_encoder_commands :
    decode ⟨.cmd, [0b00000011, 0x2, 1, 0, 0, 0x7E]⟩ = .ok (.encodeHeader 0x2 true false none 126)
      ∧ decode ⟨.cmd, [0b00000100, 0x1, 1, 0, 1, 1, 2, 3, 4, 2, 0x68, 0x69]⟩
        = .ok (.encodeFrame 0x1 true false (some key1234) [0x68, 0x69]) := ⟨rfl, rfl⟩

/-- R83 codes 5 to 8. -/
theorem test_decode_byte_commands :
    decode ⟨.cmd, [0b00000101, 2, 0x68, 0x69, 1, 2, 3, 4, 3]⟩ = .ok (.applyMask [0x68, 0x69] key1234 3)
      ∧ decode ⟨.cmd, [0b00000110, 1, 0x81]⟩ = .ok (.decodeHeader [0x81])
      ∧ decode ⟨.cmd, [0b00000111, 0x81]⟩ = .ok (.feedByte 0x81)
      ∧ decode ⟨.cmd, [0b00001000, 2, 0x81, 0x82]⟩ = .ok (.feed [0x81, 0x82]) := ⟨rfl, rfl, rfl, rfl⟩

/-- R76 and R54, frame types: FIN = bit 7, RSV1 = bit 6, RSV2 = bit 5, RSV3 = bit 4. -/
theorem test_decode_frame_types :
    decode ⟨.hdrB0, [0b10000000]⟩ = .ok (.cont true false false false)
      ∧ decode ⟨.hdrB0, [0b01000001]⟩ = .ok (.text false true false false)
      ∧ decode ⟨.hdrB0, [0b00100010]⟩ = .ok (.bin false false true false)
      ∧ decode ⟨.hdrB0, [0b00011000]⟩ = .ok (.close false false false true)
      ∧ decode ⟨.hdrB0, [0b10001001]⟩ = .ok (.ping true false false false)
      ∧ decode ⟨.hdrB0, [0b11111010]⟩ = .ok (.pong true true true true) := ⟨rfl, rfl, rfl, rfl, rfl, rfl⟩

/-- R76, reserved opcodes. -/
theorem test_decode_reserved_opcodes :
    decode ⟨.hdrB0, [0b10000011]⟩ = .ok (.rsvdD3 true false false false)
      ∧ decode ⟨.hdrB0, [0b00000100]⟩ = .ok (.rsvdD4 false false false false)
      ∧ decode ⟨.hdrB0, [0b01000101]⟩ = .ok (.rsvdD5 false true false false)
      ∧ decode ⟨.hdrB0, [0b00100110]⟩ = .ok (.rsvdD6 false false true false)
      ∧ decode ⟨.hdrB0, [0b00010111]⟩ = .ok (.rsvdD7 false false false true)
      ∧ decode ⟨.hdrB0, [0b10001011]⟩ = .ok (.rsvdCB true false false false)
      ∧ decode ⟨.hdrB0, [0b00001100]⟩ = .ok (.rsvdCC false false false false)
      ∧ decode ⟨.hdrB0, [0b01001101]⟩ = .ok (.rsvdCD false true false false)
      ∧ decode ⟨.hdrB0, [0b00101110]⟩ = .ok (.rsvdCE false false true false)
      ∧ decode ⟨.hdrB0, [0b00011111]⟩ = .ok (.rsvdCF false false false true) :=
  ⟨rfl, rfl, rfl, rfl, rfl, rfl, rfl, rfl, rfl, rfl⟩

/-- R71: MASK = bit 7 of byte 1, LEN7 = bits 6..0, the length most significant byte first, then the key. -/
theorem test_decode_header_formats :
    decode ⟨.hdrB1, [0b01111101]⟩ = .ok (.h2 125)
      ∧ decode ⟨.hdrB1, [0b10000010, 1, 2, 3, 4]⟩ = .ok (.h6 2 key1234)
      ∧ decode ⟨.hdrB1, [0b01111110, 0x01, 0x00]⟩ = .ok (.h4 256)
      ∧ decode ⟨.hdrB1, [0b11111110, 0x00, 0x7E, 1, 2, 3, 4]⟩ = .ok (.h8 126 key1234)
      ∧ decode ⟨.hdrB1, [0b01111111, 0, 0, 0, 0, 0, 1, 0x11, 0x70]⟩ = .ok (.h10 70000)
      ∧ decode ⟨.hdrB1, [0b11111111, 0x7F, 0, 0, 0, 0, 0, 0, 1, 1, 2, 3, 4]⟩
        = .ok (.h14 0x7F00000000000001 key1234) := ⟨rfl, rfl, rfl, rfl, rfl, rfl⟩

/-- Words that are no typed command's, each rejected by name. -/
theorem test_decode_rejects_by_name :
    decode ⟨.cmd, []⟩ = .error .emptyWord ∧ decode ⟨.cmd, [0x07]⟩ = .error .truncated
      ∧ decode ⟨.cmd, [0x10]⟩ = .error .notACommandCode
      ∧ decode ⟨.cmd, [0x01, 0, 2, 0, 0, 0, 0, 0, 0, 0, 0, 0]⟩ = .error .notABit
      ∧ decode ⟨.cmd, [0x01, 2]⟩ = .error .notARole ∧ decode ⟨.cmd, [0x03, 16]⟩ = .error .notAnOpcode
      ∧ decode ⟨.cmd, [0x05, 0, 1, 2, 3, 4, 4]⟩ = .error .notAPhase
      ∧ decode ⟨.hdrB1, [0x7D, 0]⟩ = .error .trailingBytes := ⟨rfl, rfl, rfl, rfl, rfl, rfl, rfl, rfl⟩

/-- A natural of more than seven bits (notes/assumptions/2.md): 300 = 2 * 128 + 44. -/
theorem test_natural_takes_seven_bits_a_byte : putNat 300 = [0xAC, 0x02] ∧ takeNat [0xAC, 0x02] = .ok (300, []) :=
  ⟨rfl, rfl⟩

/-- The table rows RESET to FEED as numbers (R83), and H8 of R71. -/
theorem test_table_words :
    decodeTableWord 8 0x0 = some .reset ∧ decodeTableWord 8 0x2 = some .readStatus
      ∧ decodeTableWord 8 0x7 = some (.feedByte 0) ∧ decodeTableWord 8 0xF = some .reservedF
      ∧ decodeTableWord 8 0xFE = some (.h8 0 zeroKey) := ⟨rfl, rfl, rfl, rfl, rfl⟩

/-! ## One step of each instruction (spec/95_test_vectors.md) -/

/-- §3.6: RESET of a failed receiver (P3). -/
theorem test_reset_ends_failed :
    answer .reset (fed server [0xA1]) = some .ok ∧ (after .reset (fed server [0xA1])).block = Block.reset := by decide

/-- §3.6. -/
theorem test_configure_once :
    answer (.configure .client false 65536 true) State.reset = some .ok
      ∧ answer (.configure .server true 0 false) (after (.configure .client false 65536 true) State.reset)
        = some (.cmdError .configLocked) := by decide

/-- §3.6. -/
theorem test_read_status_after_configure :
    answer .readStatus (after (.configure .client false 65536 true) State.reset)
      = some (.status ⟨true, some .client, some false, some 65536, some true, .readingHeader, 0, false, 0, 0, none⟩) := by
  decide

/-- §3.6. -/
theorem test_read_status_after_reset :
    answer .readStatus State.reset
      = some (.status ⟨false, none, none, none, none, .readingHeader, 0, false, 0, 0, none⟩) := by decide

/-- S3. -/
theorem test_encode_header_70000 :
    answer (.encodeHeader 0x2 true false none 70000) (started server)
      = some (.bytes [0x82, 0x7F, 0, 0, 0, 0, 0, 1, 0x11, 0x70]) := by decide

/-- §3.1: FRAGMENTED_CONTROL before MASK_REQUIRED and CONTROL_TOO_LONG. -/
theorem test_encode_header_priority :
    answer (.encodeHeader 0x9 false false none 200) (started client) = some (.encodeInvalid .fragmentedControl) := by
  decide

/-- S1. -/
theorem test_encode_frame_hi :
    answer (.encodeFrame 0x1 true false (some key1234) [0x68, 0x69]) (started client)
      = some (.bytes [0x81, 0x82, 1, 2, 3, 4, 0x69, 0x6B]) := by decide

/-- P6. -/
theorem test_encode_frame_server_has_no_key :
    answer (.encodeFrame 0xA true false (some ⟨0x11, 0x22, 0x33, 0x44⟩) [0xDE, 0xAD, 0xBE, 0xEF]) (started server)
      = some (.encodeInvalid .maskForbidden) := by decide

/-- §3.3: it works after RESET, with no CONFIGURE. -/
theorem test_apply_mask_phase_3 :
    answer (.applyMask [0, 0, 0, 0, 0, 0] key1234 3) State.reset = some (.bytes [4, 1, 2, 3, 4, 1]) := by decide

/-- §3.3. -/
theorem test_apply_mask_phase_2 :
    answer (.applyMask [0x68, 0x69] key1234 2) State.reset = some (.bytes [0x6B, 0x6D]) := by decide

/-- §3.4: the longest header. -/
theorem test_decode_header_14_bytes :
    answer (.decodeHeader [0x82, 0xFF, 0x7F, 0xFF, 0xFF, 0xFF, 0xFF, 0xFF, 0xFF, 0xFF, 0xAA, 0xBB, 0xCC, 0xDD])
        (started server)
      = some (.header (hdr 0x2 true false true 127 0x7FFFFFFFFFFFFFFF (some ⟨0xAA, 0xBB, 0xCC, 0xDD⟩) 14) 14) := by
  decide

/-- §3.4. -/
theorem test_decode_header_strict :
    answer (.decodeHeader [0x82, 0xFE, 0x00, 0x7D]) (started serverStrict)
      = some (.protocolError .nonminimalLength 3) := by decide

/-- P1: the last payload byte dispatches. -/
theorem test_feed_byte_dispatches :
    answer (.feedByte 0x6B) (fed server [0x81, 0x82, 1, 2, 3, 4, 0x69])
      = some (.fed 1 [.frameOut (hdr 0x1 true false true 2 2 (some key1234) 6) [0x68, 0x69]])
    ∧ summary (after (.feedByte 0x6B) (fed server [0x81, 0x82, 1, 2, 3, 4, 0x69])) = (.readingHeader, 0, false, 0, 8) := by
  decide

/-- P3. -/
theorem test_feed_byte_refused_when_failed :
    answer (.feedByte 0x81) (fed server [0xA1]) = some (.cmdError .rxFailed) := by decide

/-- P4: frame 1 is dispatched, frame 2 makes the message too large. -/
theorem test_feed_message_too_large :
    answer (.feed [0x01, 0x83, 0, 0, 0, 0, 0x61, 0x62, 0x63, 0x80, 0x82, 0, 0, 0, 0, 0x64, 0x65]) (started server4)
      = some (.fed 11 [.frameOut (hdr 0x1 false false true 3 3 (some zeroKey) 6) [0x61, 0x62, 0x63],
        .error ⟨.payloadTooLarge, .messageTooLarge, 1009, 10⟩]) := by decide

/-- §3.5: the end state of LENGTH64_MSB. -/
theorem test_feed_length64_msb :
    summary (fed server [0x82, 0xFF, 0x80, 0, 0, 0, 0, 0, 0, 0]) = (.failed, 8, false, 0, 10) := by decide

/-- §3.6: the reserved command codes. -/
theorem test_reserved_codes :
    [Instr.reserved9, .reservedA, .reservedB, .reservedC, .reservedD, .reservedE, .reservedF].map
        (fun i => (answer i State.reset, (after i State.reset).block))
      = List.replicate 7 (some (.cmdError .badCommand), Block.reset) := by decide

/-- §3.5 and P2: byte 0 of the frame types at the receiver. -/
theorem test_frame_types_at_the_receiver :
    answer (.cont true false false false) (started server)
        = some (.fed 1 [.error ⟨.protocolError, .unexpectedContinuation, 1002, 0⟩])
      ∧ answer (.text true false false false) (fed server [0x01, 0x80, 0, 0, 0, 0])
        = some (.fed 1 [.error ⟨.protocolError, .messageInProgress, 1002, 6⟩])
      ∧ summary (after (.bin true false false false) (started server)) = (.readingHeader, 1, false, 0, 1)
      ∧ answer (.close false false false false) (started server)
        = some (.fed 1 [.error ⟨.protocolError, .fragmentedControl, 1002, 0⟩])
      ∧ summary (after (.ping true false false false) (fed server [0x01, 0x80, 0, 0, 0, 0]))
        = (.readingHeader, 1, true, 0, 7)
      ∧ answer (.pong true true false false) (started serverRsv1)
        = some (.fed 1 [.error ⟨.protocolError, .rsv1Misplaced, 1002, 0⟩]) := by decide

/-- S8: a reserved opcode makes the receiver fail with close code 1002. -/
theorem test_reserved_opcodes_at_the_receiver :
    [Instr.rsvdD3 true false false false, .rsvdD4 false false false false, .rsvdD5 true true false false,
        .rsvdD6 true false false false, .rsvdD7 true false false false, .rsvdCB true false false false,
        .rsvdCC false false false false, .rsvdCD true false false false, .rsvdCE true false false false,
        .rsvdCF true false false false].map (fun i => answer i (started server))
      = List.replicate 10 (some (.fed 1 [.error ⟨.protocolError, .badOpcode, 1002, 0⟩])) := by decide

/-- S4: RSV2 before everything else. -/
theorem test_rsv2_is_rejected :
    answer (.text true false true false) (started server)
      = some (.fed 1 [.error ⟨.protocolError, .rsv23Set, 1002, 0⟩]) := by decide

/-- §3.5: the header formats where byte 1 is awaited. -/
theorem test_header_formats_at_the_receiver :
    answer (.h2 0) (fed client [0x88])
        = some (.fed 1 [.frameOut (hdr 0x8 true false false 0 0 none 2) []])
      ∧ answer (.h6 0 ⟨0xAA, 0xBB, 0xCC, 0xDD⟩) (fed server [0x81])
        = some (.fed 5 [.frameOut (hdr 0x1 true false true 0 0 (some ⟨0xAA, 0xBB, 0xCC, 0xDD⟩) 6) []])
      ∧ summary (after (.h4 125) (fed client [0x82])) = (.readingPayload, 0, false, 0, 4)
      ∧ summary (after (.h8 126 key1234) (fed server [0x82])) = (.readingPayload, 0, false, 0, 8)
      ∧ summary (after (.h10 70000) (fed client [0x82])) = (.readingPayload, 0, false, 0, 10)
      ∧ summary (after (.h14 70000 key1234) (fed server [0x82])) = (.readingPayload, 0, false, 0, 14) := by decide

/-- §3.5: the header formats where a check fails, and the bytes behind the deciding one left. -/
theorem test_header_formats_that_fail :
    answer (.h2 5) (fed server [0x81]) = some (.fed 1 [.error ⟨.protocolError, .maskRequired, 1002, 1⟩])
      ∧ answer (.h6 5 zeroKey) (fed server4 [0x82]) = some (.fed 1 [.error ⟨.payloadTooLarge, .frameTooLarge, 1009, 1⟩])
      ∧ answer (.h4 126) (fed client [0x89]) = some (.fed 1 [.error ⟨.protocolError, .controlTooLong, 1002, 1⟩])
      ∧ answer (.h8 125 zeroKey) (fed serverStrict [0x82])
        = some (.fed 3 [.error ⟨.protocolError, .nonminimalLength, 1002, 3⟩])
      ∧ answer (.h10 0x8000000000000000) (fed client [0x82])
        = some (.fed 9 [.error ⟨.protocolError, .length64Msb, 1002, 9⟩])
      ∧ answer (.h14 255 zeroKey) (fed serverStrict [0x82])
        = some (.fed 9 [.error ⟨.protocolError, .nonminimalLength, 1002, 9⟩]) := by decide

/-- P1 ends in a clean end (R192); an open message, a partial frame and a failed receiver do not. -/
theorem test_clean_end :
    (fed server [0x81, 0x82, 1, 2, 3, 4, 0x69, 0x6B]).block.CleanEnd = true
      ∧ (fed server [0x01, 0x80, 0, 0, 0, 0]).block.CleanEnd = false ∧ (fed server [0x81]).block.CleanEnd = false
      ∧ (fed server [0xA1]).block.CleanEnd = false := by decide

/-- A step without a command, and one with a word that is no command's. -/
theorem test_step_refuses_by_name :
    step State.reset = .refused .noCommand
      ∧ step { State.reset with pending := [⟨.cmd, [0x10]⟩] } = .refused (.undecodable .notACommandCode) := ⟨rfl, rfl⟩

/-! ## Witnesses: states and operands that meet the hypotheses of the statements -/

/-- Whether an instruction ends in a next state. -/
def runs (i : Instr) (s : State) : Bool := (answer i s).isSome

theorem exec_after {i : Instr} {s : State} (h : runs i s = true) : exec i s = .next (after i s) := by
  unfold runs answer at h
  unfold after
  split at h <;> simp_all

theorem started_configuredAs (c : Config) : (started c).block.ConfiguredAs c := ⟨rfl, rfl, rfl, rfl, rfl⟩

theorem witness_DecodeOfEncodeGivesTheInstruction :
    (Instr.h2 125).wellFormed = true ∧ (Instr.h6 0 key1234).wellFormed = true
      ∧ (Instr.encodeHeader 0xF true true none (2 ^ 70)).wellFormed = true := by decide

theorem witness_HeaderRowsReadBackTheirBytes :
    decodeByte1 0x7D [9] = .ok (.h2 125, [9]) ∧ decodeByte1 0x80 [1, 2, 3, 4, 9] = .ok (.h6 0 key1234, [9])
      ∧ decodeByte1 0x7E [0, 5, 9] = .ok (.h4 5, [9]) ∧ decodeByte1 0xFE [0, 5, 1, 2, 3, 4] = .ok (.h8 5 key1234, [])
      ∧ decodeByte1 0x7F [0xFF, 0, 0, 0, 0, 0, 0, 5] = .ok (.h10 0xFF00000000000005, [])
      ∧ decodeByte1 0xFF [0, 0, 0, 0, 0, 0, 0, 5, 1, 2, 3, 4] = .ok (.h14 5 key1234, []) :=
  ⟨rfl, rfl, rfl, rfl, rfl, rfl⟩

theorem witness_EveryFirstByteSelectsOneRow :
    decodeByte1 0x00 [] = .ok (.h2 0, []) ∧ decodeCommand 0x07 [1, 2] = .ok (.feedByte 1, [2])
      ∧ decodeCommand 0x0F [] = .ok (.reservedF, []) := ⟨rfl, rfl, rfl⟩

theorem witness_StepExecutesTheIssuedWord :
    ({ State.reset with pending := [⟨.cmd, [0x07, 0x81]⟩, ⟨.cmd, [0]⟩] } : State).pending
        = ⟨.cmd, [0x07, 0x81]⟩ :: [⟨.cmd, [0]⟩]
      ∧ decode ⟨.cmd, [0x07, 0x81]⟩ = .ok (.feedByte 0x81) ∧ State.reset.pending = [] := ⟨rfl, rfl, rfl⟩

theorem witness_TableWordIsRunNext :
    decodeTableWord 8 0x8 = some (.feed []) ∧ decodeTableWord 8 0x7F = some (.h10 0)
      ∧ decodeTableWord 8 0x80 = some (.h6 0 zeroKey) := ⟨rfl, rfl, rfl⟩

theorem witness_PowerOnStateIsWhatResetLeaves :
    exec .reset (fed server [0xA1]) = .next (after .reset (fed server [0xA1])) := rfl

theorem witness_ConfigureAttachesTheParameters :
    State.reset.block.cfgValid = false ∧ (started server).block.cfgValid = true := ⟨rfl, rfl⟩

theorem witness_ConfigurationIsLockedUntilReset :
    (started client).block.cfgValid = true ∧ Instr.feedByte 0x81 ≠ .reset ∧ runs (.feedByte 0x81) (started client) = true := by
  decide

theorem witness_CommandsAreGatedUntilConfigured :
    State.reset.block.cfgValid = false ∧ (after .reset (fed server [0xA1])).block.cfgValid = false := ⟨rfl, rfl⟩

theorem witness_EncodeHeaderFollowsItsRule :
    State.reset.block.cfgValid = false ∧ (started server).block.ConfiguredAs server ∧ (started client).block.ConfiguredAs client
      ∧ (fed serverRsv1 [0x81]).block.ConfiguredAs serverRsv1 := by
  refine ⟨rfl, started_configuredAs _, started_configuredAs _, ?_⟩; unfold Block.ConfiguredAs; decide

/-- The hypotheses of DecodeHeaderFollowsItsRule. -/
theorem witness_DecodeHeaderFollowsItsRule :
    State.reset.block.cfgValid = false ∧ (started serverStrict).block.ConfiguredAs serverStrict :=
  ⟨rfl, started_configuredAs _⟩

theorem witness_EncodeFrameIsHeaderAndMaskedPayload :
    answer (.encodeHeader 0x1 true false (some key1234) 2) (started client) = some (.bytes [0x81, 0x82, 1, 2, 3, 4])
      ∧ answer (.encodeHeader 0x9 true false none 126) (started server) = some (.encodeInvalid .controlTooLong)
      ∧ answer (.encodeHeader 0x1 true false none 0) State.reset = some (.cmdError .notConfigured) := by decide

theorem witness_EncodeFrameCompletes :
    (started client).block.ConfiguredAs client ∧ Spec.encodeCheck client 0x1 true false (some key1234) 65535 = none
      ∧ Spec.encodeCheck client 0x1 true false none 0 = some .maskRequired := by
  refine ⟨started_configuredAs _, ?_⟩; decide

/-- The four boundary lengths, for both roles, with RSV1 on TEXT where it is negotiated, and 125 on a control frame. -/
theorem witness_LengthBoundariesTakeTheNextField :
    (started server).block.ConfiguredAs server ∧ ((none : Option Key) = none ↔ server.role = .server)
      ∧ (started client).block.ConfiguredAs client ∧ (some key1234 = none ↔ client.role = .server)
      ∧ ((started serverRsv1).block.ConfiguredAs serverRsv1 ∧ serverRsv1.rsv1Allowed = true ∧ serverRsv1.role = .server
        ∧ (0x1 : BitVec 4).toNat ∈ Spec.frameTypes ∧ (0x1 : BitVec 4).toNat ∈ [0x1, 0x2]
        ∧ Spec.isControl (0x1 : BitVec 4).toNat = false)
      ∧ ((0x9 : BitVec 4).toNat ∈ Spec.frameTypes ∧ Spec.isControl (0x9 : BitVec 4).toNat = true ∧ 125 ≤ 125)
      ∧ ∀ n ∈ [125, 126, 65535, 65536], ∃ len7 size : Nat,
          (n, len7, size) ∈ [(125, 125, 2), (126, 126, 4), (65535, 126, 4), (65536, 127, 10)] := by
  refine ⟨started_configuredAs _, by decide, started_configuredAs _, by decide,
    ⟨started_configuredAs _, by decide⟩, by decide, fun n hn => ?_⟩
  simp only [List.mem_cons, List.not_mem_nil, or_false] at hn
  rcases hn with rfl | rfl | rfl | rfl
  · exact ⟨125, 2, by decide⟩
  · exact ⟨126, 4, by decide⟩
  · exact ⟨126, 4, by decide⟩
  · exact ⟨127, 10, by decide⟩

theorem witness_CodecReadsConfigurationOnly :
    [Instr.encodeHeader 0x2 true false none 70000, .encodeFrame 0x2 true false none [1], .applyMask [1] key1234 3,
        .decodeHeader [0x82, 0x80]].all (fun i => Spec.readsConfigurationOnly i && runs i (fed server [0x81])) = true
      ∧ (fed server [0x81]).block.SameConfig (fed server [0xA1]).block := by
  unfold Block.SameConfig; decide

theorem witness_DegenerateKeysAreOrdinary :
    answer (.encodeFrame 0x1 true false (some ⟨0, 0, 0, 0⟩) [0x61, 0x62, 0x63]) (started client)
      = some (.bytes [0x81, 0x83, 0, 0, 0, 0, 0x61, 0x62, 0x63]) := by decide

/-- The empty buffer, 13 bytes of the longest header, a header, an error. -/
theorem witness_DecodeHeaderIsPrefixStable :
    answer (.decodeHeader []) (started server) = some .needMoreData
      ∧ answer (.decodeHeader [0x82, 0xFF, 0, 0, 0, 0, 0, 1, 0, 0, 1, 2, 3]) (started server) = some .needMoreData
      ∧ answer (.decodeHeader ([0x82, 0xFF, 0, 0, 0, 0, 0, 1, 0, 0, 1, 2, 3] ++ [4])) (started server)
        = some (.header (hdr 0x2 true false true 127 65536 (some key1234) 14) 14)
      ∧ answer (.decodeHeader [0xA1]) (started server) = some (.protocolError .rsv23Set 0) := by decide

theorem witness_EncodedFrameDecodesToItsArguments :
    (started client).block.ConfiguredAs client ∧ (started server).block.ConfiguredAs server ∧ client.role ≠ server.role
      ∧ client.rsv1Allowed = server.rsv1Allowed
      ∧ answer (.encodeFrame 0x1 true false (some key1234) [0x68, 0x69]) (started client)
        = some (.bytes [0x81, 0x82, 1, 2, 3, 4, 0x69, 0x6B])
      ∧ answer (.encodeFrame 0x8 true false none []) (started server) = some (.bytes [0x88, 0]) := by
  refine ⟨started_configuredAs _, started_configuredAs _, ?_⟩; decide

/-- At the boundary: a byte that passes, one HdrCheck0 rejects, one SeqCheck rejects. -/
theorem witness_Byte0IsCheckedAtTheBoundary :
    (started server).block.ConfiguredAs server ∧ Spec.AtBoundary (started server).block
      ∧ (Spec.check0 false 0x81).or (Spec.checkSeq false 0x81) = none
      ∧ Spec.check0 false 0xC1 = some .rsv1NotNegotiated ∧ Spec.checkSeq false 0x80 = some .unexpectedContinuation := by
  refine ⟨started_configuredAs _, ?_⟩; unfold Spec.AtBoundary; decide

/-- Awaiting byte 1: LEN7 125 passing and too large, 126, 127, and a failing check. -/
theorem witness_Byte1SelectsTheHeaderFormat :
    (fed server4 [0x82]).block.ConfiguredAs server4 ∧ Spec.AwaitsByte1 (fed server4 [0x82]).block 0x82
      ∧ (fed server [0x82]).block.ConfiguredAs server ∧ Spec.AwaitsByte1 (fed server [0x82]).block 0x82
      ∧ Spec.check1 .server 0x82 0xFD = none ∧ Spec.check1 .server 0x82 0x7D = some .maskRequired
      ∧ Spec.len7Of 0xFD = 125 ∧ Spec.len7Of 0xFE = 126 ∧ Spec.len7Of 0xFF = 127
      ∧ Spec.checkSize server.maxPayload 0x82 0 125 = none
      ∧ Spec.checkSize server4.maxPayload 0x82 0 125 = some .frameTooLarge := by
  unfold Block.ConfiguredAs Spec.AwaitsByte1; decide

/-- Both extended lengths at their first and at their last byte. -/
theorem witness_ExtendedLengthAccumulatesBigEndian :
    let first16 := (fed server [0x82, 0xFE]).block
    let last16 := (fed server [0x82, 0xFE, 1]).block
    let first64 := (fed server [0x82, 0xFF]).block
    let last64 := (fed server [0x82, 0xFF, 0, 0, 0, 0, 0, 1, 2]).block
    (∀ b ∈ [first16, last16], b.ConfiguredAs server ∧ b.rxState = .readingExtendedLength16 ∧ b.rxCnt.toNat < 2
        ∧ b.rxB0 = some 0x82 ∧ b.rxB1 = some 0xFE)
      ∧ (∀ b ∈ [first64, last64], b.ConfiguredAs server ∧ b.rxState = .readingExtendedLength64 ∧ b.rxCnt.toNat < 8
        ∧ b.rxB0 = some 0x82 ∧ b.rxB1 = some 0xFF)
      ∧ first16.rxCnt = 0 ∧ first16.rxLen = some 0 ∧ last16.rxCnt = 1 ∧ last16.rxLen = some 1
      ∧ first64.rxCnt = 0 ∧ first64.rxLen = some 0 ∧ last64.rxCnt = 7 ∧ last64.rxLen = some 0x102 := by
  unfold Block.ConfiguredAs; decide

/-- The four counts of the mask key. -/
theorem witness_MaskKeyIsCollectedInWireOrder :
    (∀ front ∈ [([] : Bytes), [1], [1, 2], [1, 2, 3]],
      let b := (fed server ([0x81, 0x82] ++ front)).block
      b.cfgValid = true ∧ b.rxState = .readingMask ∧ b.rxB0 = some 0x81 ∧ b.rxB1 = some 0x82
        ∧ Spec.bitOf 0x82 7 = true ∧ b.rxLen = some 2 ∧ b.rxCnt.toNat = front.length)
      ∧ (fed server [0x81, 0x82, 1, 2, 3]).block.rxKey.k0 = some 1
      ∧ (fed server [0x81, 0x82, 1, 2, 3]).block.rxKey.k1 = some 2
      ∧ (fed server [0x81, 0x82, 1, 2, 3]).block.rxKey.k2 = some 3 := by decide

/-- A masked payload at its first and its last byte, and an unmasked one. -/
theorem witness_PayloadIsDemaskedAndDispatched :
    (∀ data ∈ [([0x81, 0x82, 1, 2, 3, 4] : Bytes), [0x81, 0x82, 1, 2, 3, 4, 0x69]],
      let b := (fed server data).block
      b.cfgValid = true ∧ b.rxState = .readingPayload ∧ b.rxB0 = some 0x81 ∧ b.rxB1 = some 0x82 ∧ b.rxLen = some 2
        ∧ b.rxCnt.toNat < 2 ∧ Spec.bitOf 0x82 7 = true ∧ b.rxKey = ⟨some 1, some 2, some 3, some 4⟩)
      ∧ (fed client [0x81, 2]).block.rxState = .readingPayload ∧ (fed client [0x81, 2]).block.rxB1 = some 2
      ∧ Spec.bitOf 2 7 = false ∧ (fed client [0x81, 2]).block.rxLen = some 2
      ∧ (fed client [0x81, 2]).block.rxCnt.toNat < 2 := by decide

/-! The invariant, at reset, fresh, and in each of the receiver's states. -/

theorem started_inv (c : Config) : (started c).Inv :=
  .inr ⟨c, started_configuredAs c, ⟨rfl, .inl rfl⟩, ⟨⟨fun _ h => (nomatch h), fun _ => rfl⟩, fun _ h => (nomatch h)⟩,
    fun _ => rfl, Nat.zero_le _⟩

theorem inv_of {c : Config} {s : State} (h : s.block.ConfiguredAs c) (hp : s.block.PhaseInv c)
    (he : s.block.rxErr = none) (hf : s.block.rxState ≠ .failed) (hm : s.block.rxMsgTotal = 0) : s.Inv :=
  .inr ⟨c, h, hp, ⟨⟨fun _ => hf, fun _ => he⟩, fun e h => by rw [he] at h; cases h⟩, fun _ => hm,
    by rw [hm]; exact Nat.zero_le _⟩

theorem inv_awaiting_byte1 : (fed server [0x81]).Inv :=
  inv_of (started_configuredAs server) ⟨rfl, .inr ⟨rfl, 0x81, rfl, rfl, rfl⟩⟩ rfl (by decide) rfl

theorem inv_length16 : (fed server [0x82, 0xFE, 1]).Inv :=
  inv_of (started_configuredAs server)
    ⟨rfl, 0x82, 0xFE, 1, ⟨rfl, rfl, rfl⟩, ⟨rfl, rfl⟩, rfl, rfl, by decide, by decide⟩ rfl (by decide) rfl

theorem inv_length64 : (fed server [0x82, 0xFF, 0, 0, 0, 0, 0, 1, 2]).Inv :=
  inv_of (started_configuredAs server)
    ⟨rfl, 0x82, 0xFF, 0x102, ⟨rfl, rfl, rfl⟩, ⟨rfl, rfl⟩, rfl, rfl, by decide, by decide⟩ rfl (by decide) rfl

theorem inv_mask : (fed server [0x81, 0x82, 1, 2, 3]).Inv :=
  inv_of (started_configuredAs server)
    ⟨rfl, 0x81, 0x82, 2, ⟨rfl, rfl, rfl⟩, ⟨rfl, rfl⟩,
      ⟨rfl, by decide, by decide, by decide⟩, rfl, by decide, by decide⟩ rfl (by decide) rfl

theorem inv_payload : (fed server [0x81, 0x82, 1, 2, 3, 4, 0x69]).Inv :=
  inv_of (started_configuredAs server)
    ⟨0x81, 0x82, 2, ⟨rfl, rfl, rfl⟩, ⟨rfl, rfl⟩, ⟨rfl, by decide, by decide, by decide⟩, by decide, rfl,
      fun _ => ⟨key1234, rfl⟩⟩ rfl (by decide) rfl

theorem inv_open_message : (fed server [0x01, 0x80, 0, 0, 0, 0]).Inv :=
  inv_of (started_configuredAs server) ⟨rfl, .inl rfl⟩ rfl (by decide) rfl

theorem inv_failed : (fed server [0xA1]).Inv :=
  .inr ⟨server, started_configuredAs server, rfl,
    ⟨⟨fun h => (nomatch h), fun h => absurd rfl h⟩, fun e h => by cases h; exact ⟨by decide, rfl⟩⟩,
    fun _ => rfl, Nat.zero_le _⟩

/-- A state of every reading state of the receiver. -/
def readingStates : List State :=
  [started server, fed server [0x81], fed server [0x82, 0xFE, 1], fed server [0x82, 0xFF, 0, 0, 0, 0, 0, 1, 2],
    fed server [0x81, 0x82, 1, 2, 3], fed server [0x81, 0x82, 1, 2, 3, 4, 0x69], fed server [0x01, 0x80, 0, 0, 0, 0]]

theorem readingStates_inv : ∀ s ∈ readingStates, s.Inv := by
  simp only [readingStates, List.forall_mem_cons]
  exact ⟨started_inv _, inv_awaiting_byte1, inv_length16, inv_length64, inv_mask, inv_payload, inv_open_message,
    fun _ h => by cases h⟩

theorem readingStates_read : ∀ s ∈ readingStates, s.block.cfgValid = true ∧ s.block.rxState ≠ .failed := by decide

/-- For the statements over states with the invariant: OffsetCountsEveryTakenByte, FailureIsRecorded,
 FailureIsPreciseInAChunk, AByteCausesAtMostOneEvent. -/
theorem witness_AByteTaken : ∀ s ∈ readingStates, s.Inv ∧ s.block.cfgValid = true ∧ s.block.rxState ≠ .failed :=
  fun s h => ⟨readingStates_inv s h, readingStates_read s h⟩

/-- A reading state of every kind, and a failed one. -/
theorem witness_EveryByteMakesATableTransition :
    (∀ s ∈ readingStates, s.Inv ∧ s.block.ConfiguredAs server ∧ s.block.rxState ≠ .failed)
      ∧ (fed server [0xA1]).Inv ∧ (fed server [0xA1]).block.ConfiguredAs server
      ∧ (fed server [0xA1]).block.rxState = .failed := by
  have h : ∀ s ∈ readingStates, s.block.ConfiguredAs server := by unfold Block.ConfiguredAs; decide
  exact ⟨fun s hs => ⟨readingStates_inv s hs, h s hs, (readingStates_read s hs).2⟩, inv_failed,
    started_configuredAs server, rfl⟩

/-- R170's "a check fails": at byte 0, at byte 1, at the last byte of each extended length; and not at the bytes before
it, of a key or of a payload (R244). -/
theorem test_check_fails :
    Spec.CheckFails server 0xA1 (started server).block ∧ Spec.CheckFails server 0x80 (started server).block
      ∧ Spec.CheckFails server 0x02 (fed server [0x81]).block
      ∧ Spec.CheckFails server4 0x85 (fed server4 [0x82]).block
      ∧ Spec.CheckFails serverStrict 0x7D (fed serverStrict [0x82, 0xFE, 0]).block
      ∧ Spec.CheckFails server 0 (fed server [0x82, 0xFF, 0x80, 0, 0, 0, 0, 0, 0]).block
      ∧ ¬ Spec.CheckFails server 0x80 (fed server [0x82, 0xFF]).block
      ∧ ¬ Spec.CheckFails server 0xA1 (fed server [0x81, 0x82, 1, 2, 3]).block
      ∧ ¬ Spec.CheckFails server 0xA1 (fed server [0x81, 0x82, 1, 2, 3, 4]).block :=
  ⟨.inl ⟨rfl, .inl (by decide)⟩, .inl ⟨rfl, .inr (by decide)⟩, .inr ⟨rfl, 0x81, rfl, .inl (by decide)⟩,
    .inr ⟨rfl, 0x82, rfl, .inr ⟨by decide, by decide⟩⟩, ⟨rfl, 0x82, 0, rfl, rfl, .inl (by decide)⟩,
    ⟨rfl, 0x82, 0x80000000000000, rfl, rfl, .inl (by decide)⟩, fun h => absurd h.1 (by decide), id, id⟩

/-- A byte that fails and one that does not; a byte that gives a frame; a chunk that fails at its second byte. -/
theorem witness_FailureIsRecorded :
    (after (.feedByte 0xA1) (started server)).block.rxState = .failed
      ∧ (after (.feedByte 0x81) (started server)).block.rxState ≠ .failed
      ∧ answer (.feed [0x81, 0x02, 0x61]) (started server) = some (.fed 2 [.error ⟨.protocolError, .maskRequired, 1002, 1⟩])
      ∧ answer (.feedByte 0x6B) (fed server [0x81, 0x82, 1, 2, 3, 4, 0x69])
        = some (.fed 1 [.frameOut (hdr 0x1 true false true 2 2 (some key1234) 6) [0x68, 0x69]]) := by decide

/-- One frame type with each flag that is set or missing, with and without an open message. -/
theorem witness_FrameTypeRowsStartAFrame :
    (started server).block.ConfiguredAs server ∧ Spec.AtBoundary (started server).block
      ∧ (fed serverRsv1 [0x01, 0x80, 0, 0, 0, 0]).block.ConfiguredAs serverRsv1
      ∧ Spec.AtBoundary (fed serverRsv1 [0x01, 0x80, 0, 0, 0, 0]).block
      ∧ (started server).block.rxFragOpen = false
      ∧ (fed serverRsv1 [0x01, 0x80, 0, 0, 0, 0]).block.rxFragOpen = true := by
  unfold Block.ConfiguredAs Spec.AtBoundary; decide

/-- The rows of that witness. -/
theorem witness_FrameTypeRows :
    server.rsv1Allowed = false ∧ serverRsv1.rsv1Allowed = true
      ∧ Spec.frameRow (.cont true false false false) = some (0x0, true, false, false, false)
      ∧ Spec.frameRow (.text true true false false) = some (0x1, true, true, false, false)
      ∧ Spec.frameRow (.ping false false true false) = some (0x9, false, false, true, false)
      ∧ (∀ op ∈ [(0x0 : Nat), 0x1, 0x9], op ∈ Spec.frameTypes) := ⟨rfl, rfl, rfl, rfl, rfl, by decide⟩

theorem witness_ReservedOpcodesAreBadOpcodes :
    (started client).block.ConfiguredAs client ∧ Spec.AtBoundary (started client).block
      ∧ Spec.frameRow (.rsvdD3 true false false false) = some ((0x3 : BitVec 4).toNat, true, false, false, false)
      ∧ Spec.frameRow (.rsvdCF false true true false) = some ((0xF : BitVec 4).toNat, false, true, true, false)
      ∧ (0x3 : BitVec 4).toNat ∉ Spec.frameTypes ∧ (0xF : BitVec 4).toNat ∉ Spec.frameTypes := by
  unfold Block.ConfiguredAs Spec.AtBoundary; decide

/-- Each header format with every check passing. -/
theorem witness_HeaderFormatRowsReachThePayload :
    (fed client [0x82]).block.ConfiguredAs client ∧ Spec.AwaitsByte1 (fed client [0x82]).block 0x82
      ∧ (fed server [0x82]).block.ConfiguredAs server ∧ Spec.AwaitsByte1 (fed server [0x82]).block 0x82
      ∧ (∀ r ∈ [(Instr.h2 125, (0x7D : Byte), 125), (.h4 126, 0x7E, 126), (.h10 65536, 0x7F, 65536)],
        r.1.wellFormed = true ∧ Spec.headerRow r.1 = some (r.2.1, r.2.2, none)
          ∧ Spec.check1 client.role 0x82 r.2.1 = none
          ∧ Spec.checkLen client.strictMinlen (Spec.extOf (Spec.len7Of r.2.1)) r.2.2 = none
          ∧ Spec.checkSize client.maxPayload 0x82 0 r.2.2 = none)
      ∧ ∀ r ∈ [(Instr.h6 0 key1234, (0x80 : Byte), 0), (.h8 65535 key1234, 0xFE, 65535),
          (.h14 0x7FFFFFFFFFFFFFFF key1234, 0xFF, 0x7FFFFFFFFFFFFFFF)],
        r.1.wellFormed = true ∧ Spec.headerRow r.1 = some (r.2.1, r.2.2, some key1234)
          ∧ Spec.check1 server.role 0x82 r.2.1 = none
          ∧ Spec.checkLen server.strictMinlen (Spec.extOf (Spec.len7Of r.2.1)) r.2.2 = none
          ∧ Spec.checkSize server.maxPayload 0x82 0 r.2.2 = none := by
  unfold Block.ConfiguredAs Spec.AwaitsByte1; decide

/-- A format failing at byte 1, one at its length, one at its size. -/
theorem witness_HeaderFormatRowsFailAtTheDecidingByte :
    (fed server [0x82]).block.ConfiguredAs server ∧ Spec.AwaitsByte1 (fed server [0x82]).block 0x82
      ∧ (fed server4 [0x82]).block.ConfiguredAs server4 ∧ Spec.AwaitsByte1 (fed server4 [0x82]).block 0x82
      ∧ (Instr.h4 5).wellFormed = true ∧ Spec.headerRow (.h4 5) = some (0x7E, 5, none)
      ∧ Spec.check1 server.role 0x82 0x7E = some .maskRequired
      ∧ Spec.headerRow (.h14 0x8000000000000000 zeroKey) = some (0xFF, 0x8000000000000000, some zeroKey)
      ∧ Spec.check1 server.role 0x82 0xFF = none ∧ Spec.checkLen server.strictMinlen 8 0x8000000000000000 = some .length64Msb
      ∧ Spec.headerRow (.h6 5 zeroKey) = some (0x85, 5, some zeroKey) ∧ Spec.check1 server4.role 0x82 0x85 = none
      ∧ Spec.checkSize server4.maxPayload 0x82 0 5 = some .frameTooLarge := by
  unfold Block.ConfiguredAs Spec.AwaitsByte1; decide

theorem witness_WireRowsAreFedBytes :
    Spec.frameRow (.text true false false false) = some (0x1, true, false, false, false)
      ∧ Spec.headerRow (.h14 70000 key1234) = some (0xFF, 70000, some key1234)
      ∧ (Instr.h14 70000 key1234).wellFormed = true := by decide

/-- A byte behind which the receiver goes on, with the rest of the chunk fed, and one that makes it fail. -/
theorem witness_FeedIsByteByByte :
    (started server).block.cfgValid = true ∧ (started server).block.rxState ≠ .failed
      ∧ answer (.feedByte 0x81) (started server) = some (.fed 1 [])
      ∧ (after (.feedByte 0x81) (started server)).block.rxState ≠ .failed
      ∧ answer (.feed [0x80, 1, 2, 3, 4]) (after (.feedByte 0x81) (started server))
        = some (.fed 5 [.frameOut (hdr 0x1 true false true 0 0 (some key1234) 6) []])
      ∧ (after (.feedByte 0xA1) (started server)).block.rxState = .failed
      ∧ State.reset.block.cfgValid = false ∧ (fed server [0xA1]).block.cfgValid = true
      ∧ (fed server [0xA1]).block.rxState = .failed := by decide

theorem witness_FailedReceiverRefusesUntilReset :
    (fed server [0xA1]).block.cfgValid = true ∧ (fed server [0xA1]).block.rxState = .failed
      ∧ Instr.decodeHeader [0x81] ≠ .reset ∧ runs (.decodeHeader [0x81]) (fed server [0xA1]) = true := by decide

/-- A chunk fed whole, with one behind it, and a chunk that fails before its end. -/
theorem witness_FeedDoesNotDependOnChunking :
    (started server).block.cfgValid = true ∧ (started server).block.rxState ≠ .failed
      ∧ answer (.feed [0x81, 0x82]) (started server) = some (.fed 2 [])
      ∧ answer (.feed [1, 2, 3, 4, 0x69, 0x6B]) (fed server [0x81, 0x82])
        = some (.fed 6 [.frameOut (hdr 0x1 true false true 2 2 (some key1234) 6) [0x68, 0x69]])
      ∧ answer (.feed [0xA1, 0x82]) (started server)
        = some (.fed 1 [.error ⟨.protocolError, .rsv23Set, 1002, 0⟩]) := by decide

/-- A buffer for each answer of DECODE_HEADER, with the receiver's own checks passing and failing. -/
theorem witness_ReceiverAgreesWithDecodeHeader :
    (started server4).block.ConfiguredAs server4 ∧ Spec.AtBoundary (started server4).block
      ∧ Spec.decodeHeader server4 [0xA1] = .protocolError .rsv23Set 0
      ∧ Spec.decodeHeader server4 [0x81, 0x02] = .protocolError .maskRequired 1 ∧ Spec.checkSeq false 0x81 = none
      ∧ Spec.decodeHeader server4 [0x80, 0x02] = .protocolError .maskRequired 1
      ∧ Spec.checkSeq false 0x80 = some .unexpectedContinuation
      ∧ Spec.decodeHeader server4 [0x82, 0x84, 1, 2, 3, 4]
        = .header (hdr 0x2 true false true 4 4 (some key1234) 6) 6
      ∧ Spec.checkSize server4.maxPayload 0x82 0 4 = none
      ∧ Spec.decodeHeader server4 [0x82, 0x85, 1, 2, 3, 4]
        = .header (hdr 0x2 true false true 5 5 (some key1234) 6) 6
      ∧ Spec.checkSize server4.maxPayload 0x82 0 5 = some .frameTooLarge
      ∧ Spec.decodeHeader server4 [] = .needMoreData ∧ Spec.decodeHeader server4 [0x82, 0xFE, 0] = .needMoreData := by
  unfold Block.ConfiguredAs Spec.AtBoundary; decide

/-- A client's frame to a server: the first frame of a message, then (with a message open) its continuation. -/
theorem witness_EncodedFrameComesOutOfTheReceiver :
    (started client).block.ConfiguredAs client ∧ (started server).block.ConfiguredAs server ∧ client.role ≠ server.role
      ∧ client.rsv1Allowed = server.rsv1Allowed
      ∧ answer (.encodeFrame 0x1 false false (some key1234) [0x68, 0x69]) (started client)
        = some (.bytes [0x01, 0x82, 1, 2, 3, 4, 0x69, 0x6B])
      ∧ Spec.AtBoundary (started server).block ∧ (started server).block.rxFragOpen = false
      ∧ runs (.encodeFrame 0x0 true false (some key1234) [0x68]) (started client) = true
      ∧ (fed server [0x01, 0x80, 0, 0, 0, 0]).block.rxFragOpen = true
      ∧ Spec.AtBoundary (fed server [0x01, 0x80, 0, 0, 0, 0]).block
      ∧ 2 ≤ server.maxPayload.toNat ∧ (started server).block.rxMsgTotal.toNat + 2 ≤ server.maxPayload.toNat := by
  unfold Block.ConfiguredAs Spec.AtBoundary; decide

/-- A server at a frame boundary and its peer, a client: ENCODE_FRAME on the peer returns bytes with a key, none without
one, and FEED FRAME expands to FEED of them, or to nothing. -/
theorem witness_FeedFrameDeliversThePayload :
    (started server).block.ConfiguredAs server ∧ (started server).block.peer.ConfiguredAs client
      ∧ client.role ≠ server.role ∧ Spec.AtBoundary (started server).block
      ∧ answer (.encodeFrame 0x1 true false (some key1234) [0x68, 0x69])
          { State.reset with block := (started server).block.peer }
        = some (.bytes [0x81, 0x82, 1, 2, 3, 4, 0x69, 0x6B])
      ∧ feedFrame (started server).block 0x1 true false (some key1234) [0x68, 0x69]
        = some (.feed [0x81, 0x82, 1, 2, 3, 4, 0x69, 0x6B])
      ∧ feedFrame (started server).block 0x1 true false none [0x68, 0x69] = none
      ∧ (started server).block.rxFragOpen = false ∧ 2 ≤ server.maxPayload.toNat
      ∧ (started server).block.rxMsgTotal.toNat + 2 ≤ server.maxPayload.toNat := by
  unfold Block.ConfiguredAs Spec.AtBoundary; decide

/-- For EveryStepKeepsTheInvariant, ReceiverTableHoldsAfterEveryCommand and EveryInstructionCompletes: states with the
invariant, in which instructions and steps end in a next state. -/
theorem witness_EveryStepKeepsTheInvariant :
    State.reset.Inv ∧ (fed server [0xA1]).Inv ∧ (∀ s ∈ readingStates, s.Inv)
      ∧ (readingStates.all fun s => runs (.feedByte 0x82) s && runs (.h6 5 key1234) s && runs .reset s) = true
      ∧ step { State.reset with pending := [⟨.cmd, [0]⟩] } = .next { State.reset with result := some .ok } :=
  ⟨.inl rfl, inv_failed, readingStates_inv, by decide, rfl⟩

/-- A configured state with a payload of two bytes half read. -/
theorem witness_BufferedPayloadIsBounded :
    (fed server [0x81, 0x82, 1, 2, 3, 4]).block.rxState = .readingPayload
      ∧ (started server).Inv ∧ runs (.feed [0x81, 0x82, 1, 2, 3, 4, 0x69]) (started server) = true
      ∧ (fed server [0x81, 0x82, 1, 2, 3, 4, 0x69]).block.cfgMaxPayload = some server.maxPayload
      ∧ (fed server [0x81, 0x82, 1, 2, 3, 4, 0x69]).block.rxState = .readingPayload
      ∧ (fed server [0x81, 0x82, 1, 2, 3, 4, 0x69]).block.rxLen = some 2 :=
  ⟨rfl, started_inv _, by decide, rfl, rfl, rfl⟩

theorem witness_EncoderAndReceiverCommandsCommute :
    Spec.readsConfigurationOnly (.encodeHeader 0x1 true false none 5) = true
      ∧ Spec.feedsReceiver (.feed [0x81, 0x82]) = true
      ∧ runs (.encodeHeader 0x1 true false none 5) (started server) = true
      ∧ runs (.feed [0x81, 0x82]) (after (.encodeHeader 0x1 true false none 5) (started server)) = true := by decide

theorem witness_EveryInstructionGivesOneResult :
    runs (.feedByte 0x81) (started server) = true ∧ Spec.feedsReceiver (.feedByte 0x81) = true := by decide

theorem witness_NumbersAreThoseOfTheTables :
    Reason.rsv23Set.code ≤ 14 ∧ Reason.nonminimalLength.code = 12 ∧ Reason.frameTooLarge.code = 13
      ∧ Reason.messageTooLarge.code = 14 := by decide

theorem witness_HeaderFlagsAreViews :
    (fed server [0x81, 0x82]).block.rxB0 = some 0x81 ∧ (fed server [0x81, 0x82]).block.rxB1 = some 0x82
      ∧ State.reset.block.rxB0 = none ∧ State.reset.block.rxB1 = none ∧ Instr.readStatus ≠ .reset
      ∧ Spec.feedsReceiver .readStatus = false ∧ runs .readStatus (fed server [0x81, 0x82]) = true := by decide

end Sys2Proof.Tests
end

section
/-!
SUPPORT. The decoder's round trip over instructions, assembled from the parsers' laws: what the bytes of a well-formed
instruction decode to, and the words a table word stands for.
-/
namespace Sys2Proof

/-- At the front of a sequence, the bytes of a well-formed instruction decode to it and leave the rest (R71, R76, R83). -/
theorem decodeFront_bytes_append {i : Instr} (hw : i.wellFormed = true) (s : Bytes) :
    decodeFront i.format (i.bytes ++ s) = .ok (i, s) := by
  cases i
  case h2 len7 | h6 len7 key =>
    have hl : len7.toNat ≤ 125 := by simpa [Instr.wellFormed] using hw
    simp [Instr.format, Instr.bytes, decodeFront, decodeByte1, hl]
  case h4 | h8 | h10 | h14 => simp [Instr.format, Instr.bytes, decodeFront, decodeByte1]
  case reset | configure | readStatus | encodeHeader | encodeFrame | applyMask | decodeHeader | feedByte | feed
      | reserved9 | reservedA | reservedB | reservedC | reservedD | reservedE | reservedF =>
    simp [Instr.format, Instr.bytes, decodeFront, decodeCommand]
  -- the sixteen rows of byte 0
  all_goals simp [Instr.format, Instr.bytes, decodeFront, decodeByte0]

/-- Decoding inverts encoding on the well-formed instructions. -/
theorem decode_encode {i : Instr} (hw : i.wellFormed = true) : decode (encode i) = .ok i :=
  decode_of_front (by simpa [encode] using decodeFront_bytes_append hw [])

/-- A table word is never read as byte 0 of a frame (notes/assumptions/3.md). -/
theorem tableFormat_ne_hdrB0 (s : Bytes) : tableFormat s ≠ .hdrB0 := by
  cases s with
  | nil => simp [tableFormat]
  | cons b s => simp only [tableFormat]; split <;> simp

theorem decodeTableWord_eq_some {nbits w : Nat} {i : Instr} :
    decodeTableWord nbits w = some i ↔
      ∃ rest, decodeFront (tableFormat (tableBytes nbits w)) (tableBytes nbits w) = .ok (i, rest) := by
  unfold decodeTableWord
  cases decodeFront (tableFormat (tableBytes nbits w)) (tableBytes nbits w) <;> simp [Prod.ext_iff]

/-- The instruction a table word decodes to is well formed. -/
theorem decodeTableWord_wellFormed {nbits w : Nat} {i : Instr} (h : decodeTableWord nbits w = some i) :
    i.wellFormed = true := by
  obtain ⟨rest, hf⟩ := decodeTableWord_eq_some.mp h
  exact decodeFront_wellFormed (tableFormat_ne_hdrB0 _) hf

/-- A table word that decodes goes to the port as a word that decodes to the same instruction. -/
theorem decode_tableHostWord {nbits w : Nat} {i : Instr} (h : decodeTableWord nbits w = some i) :
    decode (tableHostWord nbits w) = .ok i := by
  have hword : tableHostWord nbits w = encode i := by simp only [tableHostWord, h]
  rw [hword, decode_encode (decodeTableWord_wellFormed h)]

end Sys2Proof
end

section
/-!
SUPPORT. The step by the words of the port, and the proofs of the statements about it (spec/00_scope.md R6, R12).
-/
namespace Sys2Proof.Machine

theorem step_of_pending_cons {s : State} {w : HostWord} {rest : List HostWord} {i : Instr}
    (hp : s.pending = w :: rest) (hd : decode w = .ok i) : step s = exec i { s with pending := rest } := by
  have hf : fetch s = .ok (i, { s with pending := rest }) := fetch_eq_ok.mpr ⟨w, rest, hp, hd, rfl⟩
  simp only [step, hf]

theorem step_of_pending_nil {s : State} (hp : s.pending = []) : step s = .refused .noCommand := by
  simp only [step, fetch, hp]

/-- A word issued in front is taken by the next step, which runs its instruction in the state it was issued in. -/
theorem step_issue {s : State} {w : HostWord} {i : Instr} (hd : decode w = .ok i) : step (s.issue w) = exec i s :=
  step_of_pending_cons (s.issue_pending w) hd

/-- An instruction that hands the receiver bytes has no effect on the configuration registers. -/
theorem Effect.sameConfig {i : Instr} {b b' : Block} {r : Result} (h : Effect i b b' r)
    (hi : Spec.feedsReceiver i = true) : b'.SameConfig b := by
  cases h with
  | unchanged _ h => exact h ▸ sameConfig_refl b
  | reset hreset => subst hreset; cases hi
  | configured c hconfigure => subst hconfigure; cases hi
  | fed _ _ _ _ _ _ h => exact feedLoop_sameConfig h

/-- Settles O5: the word `fetch` takes is the first one issued. -/
theorem stepExecutesTheIssuedWord : Obligations.StepExecutesTheIssuedWord :=
  ⟨fun _ _ _ _ hp hd => step_of_pending_cons hp hd, fun _ hp => step_of_pending_nil hp⟩

/-- Settles O6: the table word goes to the port as an encoding, which the step decodes back. -/
theorem tableWordIsRunNext : Obligations.TableWordIsRunNext :=
  fun _ _ _ _ h => step_issue (decode_tableHostWord h)

/-- Settles O54, by the effects an instruction that ends in a next state can have (`exec_effect`). -/
theorem everyInstructionGivesOneResult : Obligations.EveryInstructionGivesOneResult := by
  intro i s t h
  obtain ⟨hpending, r, hresult, heffect⟩ := exec_effect h
  exact ⟨hpending, by simp [hresult], heffect.sameConfig⟩

end Sys2Proof.Machine
end

section
/-!
SUPPORT. The machine's invariant: every effect an instruction can have keeps it, every instruction completes under it,
and what it says of the receiver's registers; with the proofs of the statements about the state (spec/10_state.md R22,
R26, R32 to R45, R60).
-/
namespace Sys2Proof.Machine

/-! The invariant is kept (R42). -/

/-- A chunk keeps the invariant: the loop's answer is the one `feedLoop_outcome` describes. -/
theorem feedLoop_keeps_inv {data : Bytes} {b b' : Block} {n : Nat} {ev : List Event} (hb : b.Inv)
    (hv : b.cfgValid = true) (hs : b.rxState ≠ .failed) (h : feedLoop data b = .ok (b', n, ev)) : b'.Inv := by
  rcases hb with rfl | ⟨c, hc, hi⟩
  · simp at hv
  · obtain ⟨b₁, n₁, ev₁, h₁, hc₁, hi₁, -⟩ := feedLoop_outcome (data := data) hc hi hs
    rw [h] at h₁
    cases h₁
    exact Or.inr ⟨c, hc₁, hi₁⟩

/-- A block with the invariant and `cfg_valid = 0` is as RESET leaves it (R221, R223). -/
theorem Block.Inv.eq_reset {b : Block} (hb : b.Inv) (hv : b.cfgValid = false) : b = Block.reset := by
  rcases hb with h | ⟨c, hc, -⟩
  · exact h
  · simp [hc.1] at hv

theorem Effect.inv {i : Instr} {b b' : Block} {r : Result} (h : Effect i b b' r) (hb : b.Inv) : b'.Inv := by
  cases h with
  | unchanged _ h => exact h ▸ hb
  | reset _ h => exact Or.inl h
  | configured c _ hv h =>
    rw [h, hb.eq_reset hv]
    exact attachConfig_inv c
  | fed data n ev _ hv hs h => exact feedLoop_keeps_inv hb hv hs h

theorem exec_keeps_inv {i : Instr} {s t : State} (hs : s.Inv) (h : exec i s = .next t) : t.Inv := by
  obtain ⟨-, r, -, heffect⟩ := exec_effect h
  exact heffect.inv hs

/-- Settles O48: the effects of `exec_effect` keep the invariant one by one, and the fetch of a step leaves the
registers. -/
theorem everyStepKeepsTheInvariant : Obligations.EveryStepKeepsTheInvariant := by
  refine ⟨fun i s t hs h => exec_keeps_inv hs h, fun s t hs h => ?_⟩
  obtain ⟨i, s', hf, hx⟩ := step_eq_next.mp h
  obtain ⟨w, rest, -, -, rfl⟩ := fetch_eq_ok.mp hf
  exact exec_keeps_inv (s := { s with pending := rest }) hs hx

/-! The codec's commands read configuration registers only (R41). -/

theorem encodeHeaderResult_congr {a b : Block} (h : a.SameConfig b) (op : BitVec 4) (fin rsv1 : Bool)
    (key : Option Key) (n : Nat) :
    encodeHeaderResult a op fin rsv1 key n = encodeHeaderResult b op fin rsv1 key n := by
  obtain ⟨hvalid, hrole, hrsv1, -, -⟩ := h
  simp only [encodeHeaderResult, Block.readRole, Block.readRsv1Allowed, hvalid, hrole, hrsv1]

theorem encodeFrameResult_congr {a b : Block} (h : a.SameConfig b) (op : BitVec 4) (fin rsv1 : Bool)
    (key : Option Key) (payload : Bytes) :
    encodeFrameResult a op fin rsv1 key payload = encodeFrameResult b op fin rsv1 key payload := by
  simp only [encodeFrameResult, encodeHeaderResult_congr h]

theorem decodeHeaderResult_congr {a b : Block} (h : a.SameConfig b) (buf : Bytes) :
    decodeHeaderResult a buf = decodeHeaderResult b buf := by
  obtain ⟨hvalid, hrole, hrsv1, -, hstrict⟩ := h
  simp only [decodeHeaderResult, Block.readRole, Block.readRsv1Allowed, Block.readStrictMinlen, hvalid, hrole, hrsv1,
    hstrict]

/-- A command of the codec answers a function of the configuration registers. -/
theorem exec_codec {i : Instr} (hi : Spec.readsConfigurationOnly i = true) :
    ∃ f : Block → Except Fault Result,
      (∀ s, exec i s = s.answer (f s.block)) ∧ ∀ a b : Block, a.SameConfig b → f a = f b := by
  cases i
  case encodeHeader op fin rsv1 key n =>
    exact ⟨fun b => encodeHeaderResult b op fin rsv1 key n, fun _ => rfl,
      fun _ _ h => encodeHeaderResult_congr h op fin rsv1 key n⟩
  case encodeFrame op fin rsv1 key payload =>
    exact ⟨fun b => encodeFrameResult b op fin rsv1 key payload, fun _ => rfl,
      fun _ _ h => encodeFrameResult_congr h op fin rsv1 key payload⟩
  case applyMask data key phase =>
    exact ⟨fun _ => .ok (.bytes (mask data key phase.toNat)), fun _ => rfl, fun _ _ _ => rfl⟩
  case decodeHeader buf =>
    exact ⟨fun b => decodeHeaderResult b buf, fun _ => rfl, fun _ _ h => decodeHeaderResult_congr h buf⟩
  all_goals cases hi

/-- Settles O18: the command answers a function of the configuration registers (`exec_codec`), and an answer leaves the
registers and the issued words. -/
theorem codecReadsConfigurationOnly : Obligations.CodecReadsConfigurationOnly := by
  intro i hi
  obtain ⟨f, hexec, hcongr⟩ := exec_codec hi
  constructor
  · intro s t h
    rw [hexec] at h
    obtain ⟨r, -, rfl⟩ := State.answer_eq_next.mp h
    exact ⟨rfl, rfl⟩
  · intro s s' t hsame h
    rw [hexec] at h
    obtain ⟨r, hr, rfl⟩ := State.answer_eq_next.mp h
    rw [hcongr _ _ hsame] at hr
    exact ⟨_, (hexec s').trans (State.answer_eq_next.mpr ⟨r, hr, rfl⟩), rfl⟩

/-! The events of one byte (R44, R45, R60). -/

theorem ByteOutcome.events_length_le_one {c : Config} {b b' : Block} {ev : List Event} (h : ByteOutcome c b b' ev) :
    ev.length ≤ 1 := by
  obtain ⟨-, -, -, hgoes | hfails | hdispatches⟩ := h
  · simp [hgoes.1]
  · obtain ⟨r, -, rfl, -⟩ := hfails
    simp
  · obtain ⟨x, y, l, key, payload, rfl, -⟩ := hdispatches
    simp

/-- A byte that emits a frame dispatched it: going on emits nothing and a failing byte emits `Error`. -/
theorem ByteOutcome.dispatches_of_frameOut {c : Config} {b b' : Block} {ev : List Event} {h : Header} {payload : Bytes}
    (ho : ByteOutcome c b b' ev) (hmem : .frameOut h payload ∈ ev) : Dispatches b b' ev := by
  obtain ⟨-, -, -, hgoes | hfails | hdispatches⟩ := ho
  · simp [hgoes.1] at hmem
  · obtain ⟨r, -, rfl, -⟩ := hfails
    simp at hmem
  · exact hdispatches

/-- The frame that is dispatched is whole, and its header is one that passed the checks (R44, R45, R182). -/
theorem Dispatches.frameOut_whole {b b' : Block} {ev : List Event} {h : Header} {payload : Bytes}
    (hd : Dispatches b b' ev) (hmem : .frameOut h payload ∈ ev) :
    payload.length = h.payloadLength.toNat ∧ h.maskKey.isSome = h.masked ∧ h.rsv2 = false ∧ h.rsv3 = false
      ∧ h.opcode.toNat ∈ Spec.frameTypes ∧ Spec.AtBoundary b' := by
  obtain ⟨x, y, l, key, payload', rfl, hlength, hkey, hopcode, hstate, hcount, -⟩ := hd
  obtain ⟨rfl, rfl⟩ : h = makeHeader x y l key ∧ payload = payload' := by simpa using hmem
  exact ⟨hlength, hkey, rfl, rfl, of_decide_eq_true ((recognized_eq _).trans hopcode), hstate, hcount⟩

/-- Settles O43, by the outcomes of one byte (`feedByteStep_outcome`). -/
theorem aByteCausesAtMostOneEvent : Obligations.AByteCausesAtMostOneEvent := by
  intro s x hinv hv hs
  obtain ⟨c, hc, hi⟩ := inv_configured hinv hv
  obtain ⟨b', ev, -, houtcome, hstep⟩ := feedByteStep_outcome (x := x) hc hi hs
  refine ⟨_, ev, exec_feedByte_of_step hv hs hstep, rfl, houtcome.events_length_le_one, fun h payload hmem => ?_⟩
  -- the registers differ from `b'` in `rx_offset` alone, which a frame boundary does not mention
  exact (houtcome.dispatches_of_frameOut hmem).frameOut_whole hmem

/-! The receiver's table (R42). -/

/-- "It passed the byte-0 checks" of R42, under the configuration in force. -/
theorem Block.Byte0Accepted.passed {b : Block} {c : Config} {x : Byte} (hc : b.ConfiguredAs c)
    (h : b.Byte0Accepted c x) :
    ∃ allowed, b.cfgRsv1Allowed = some allowed ∧ Spec.check0 allowed x = none
      ∧ Spec.checkSeq b.rxFragOpen x = none := by
  obtain ⟨-, -, hrsv1, -, -⟩ := hc
  obtain ⟨-, hcheck0, hseq⟩ := h
  exact ⟨c.rsv1Allowed, hrsv1, hdrCheck0_eq _ _ ▸ hcheck0, seqCheck_eq _ _ ▸ hseq⟩

/-- The table's rows for an extended length in progress: the bytes read so far bound `rx_len`. -/
theorem Block.LengthPartial.row {b : Block} {c : Config} {e : Nat} (h : b.LengthPartial c e) :
    b.rxCnt.toNat < e ∧ ∃ y l, b.rxB1 = some y ∧ extBytes (Byte1.len7 y) = e ∧ b.rxLen = some l
      ∧ l.toNat < 2 ^ (8 * b.rxCnt.toNat) := by
  obtain ⟨x, y, l, -, ⟨hb1, -⟩, hext, hlen, hcnt, hlt⟩ := h
  exact ⟨hcnt, y, l, hb1, hext, hlen, by rw [pow_mul]; exact hlt⟩

theorem Block.Inv.receiverTable {b : Block} (hb : b.Inv) :
    Spec.ReceiverTable (fun x => ∃ allowed, b.cfgRsv1Allowed = some allowed
      ∧ Spec.check0 allowed x = none ∧ Spec.checkSeq b.rxFragOpen x = none) b := by
  rcases hb with rfl | ⟨c, hc, hphase, ⟨herr, -⟩, hmsg, -⟩
  · simp [Spec.ReceiverTable]
  refine ⟨?_, fun hs => by simp [Block.PhaseInv, hs] at hphase, herr, hmsg⟩
  cases hs : b.rxState <;> simp only [Block.PhaseInv, hs] at hphase
  case readingHeader =>
    refine Or.inl ⟨rfl, ?_⟩
    obtain ⟨-, hcnt | ⟨hcnt, x, hx⟩⟩ := hphase
    · simp [hcnt]
    · exact ⟨by simp [hcnt], fun _ => ⟨x, hx.1, hx.passed hc⟩⟩
  case readingExtendedLength16 =>
    obtain ⟨hcnt, y, l, hb1, hext, hlen, hlt⟩ := hphase.2.row
    exact Or.inr (Or.inl ⟨rfl, by omega, y, l, hb1, by rw [len7Of_eq, extBytes_eq_two.mp hext], hlen, hlt⟩)
  case readingExtendedLength64 =>
    obtain ⟨hcnt, y, l, hb1, hext, hlen, hlt⟩ := hphase.2.row
    exact Or.inr (Or.inr (Or.inl
      ⟨rfl, by omega, y, l, hb1, by rw [len7Of_eq, extBytes_eq_eight.mp hext], hlen, hlt⟩))
  case readingMask =>
    obtain ⟨-, x, y, l, -, ⟨hb1, -⟩, -, hmask, hcnt, -⟩ := hphase
    exact Or.inr (Or.inr (Or.inr (Or.inl ⟨rfl, by omega, y, hb1, by rw [bitOf_mask, hmask]⟩)))
  case readingPayload =>
    obtain ⟨x, y, l, -, -, ⟨hlen, -⟩, hcnt, hpayload, -⟩ := hphase
    exact Or.inr (Or.inr (Or.inr (Or.inr (Or.inl ⟨rfl, l, hlen, by omega, by omega, hpayload⟩))))
  case failed =>
    exact Or.inr (Or.inr (Or.inr (Or.inr (Or.inr ⟨rfl, fun h => herr.mp h hs⟩))))

/-- Settles O50: the state a command ends in has the invariant, and the invariant gives the table. -/
theorem receiverTableHoldsAfterEveryCommand : Obligations.ReceiverTableHoldsAfterEveryCommand :=
  fun _ _ _ hs h => (exec_keeps_inv hs h).receiverTable

/-! Every instruction completes (R39). -/

theorem encodeHeaderResult_completes {b : Block} (hb : b.Inv) (op : BitVec 4) (fin rsv1 : Bool) (key : Option Key)
    (n : Nat) : ∃ r, encodeHeaderResult b op fin rsv1 key n = .ok r := by
  rcases hb with rfl | ⟨c, hc, -⟩
  · exact ⟨_, rfl⟩
  · exact ⟨_, encodeHeaderResult_eq hc op fin rsv1 key n⟩

theorem encodeFrameResult_completes {b : Block} (hb : b.Inv) (op : BitVec 4) (fin rsv1 : Bool) (key : Option Key)
    (payload : Bytes) : ∃ r, encodeFrameResult b op fin rsv1 key payload = .ok r := by
  obtain ⟨r, hr⟩ := encodeHeaderResult_completes hb op fin rsv1 key payload.length
  cases r <;> simp [encodeFrameResult, hr]

theorem decodeHeaderResult_completes {b : Block} (hb : b.Inv) (buf : Bytes) :
    ∃ r, decodeHeaderResult b buf = .ok r := by
  rcases hb with rfl | ⟨c, hc, -⟩
  · exact ⟨_, rfl⟩
  · exact ⟨_, decodeHeaderResult_eq hc buf⟩

theorem State.answer_completes {s : State} {d : Except Fault Result} (h : ∃ r, d = .ok r) :
    ∃ t, s.answer d = .next t := by
  obtain ⟨r, rfl⟩ := h
  exact ⟨_, s.answer_ok r⟩

theorem State.complete_completes {s : State} {d : Done} (h : ∃ b r, d = .ok (b, r)) :
    ∃ t, s.complete d = .next t := by
  obtain ⟨b, r, rfl⟩ := h
  exact ⟨_, s.complete_ok b r⟩

/-- Settles O51: the codec and the receiver complete in a state with the invariant, and no other instruction reads a
register that can hold no value. -/
theorem everyInstructionCompletes : Obligations.EveryInstructionCompletes := by
  intro i s hs
  cases i
  case configure role rsv1Allowed maxPayload strictMinlen =>
    simp only [exec, execConfigure]
    split <;> exact ⟨_, rfl⟩
  case encodeHeader => exact State.answer_completes (encodeHeaderResult_completes hs ..)
  case encodeFrame => exact State.answer_completes (encodeFrameResult_completes hs ..)
  case decodeHeader => exact State.answer_completes (decodeHeaderResult_completes hs _)
  case reset | readStatus | applyMask | reserved9 | reservedA | reservedB | reservedC | reservedD | reservedE
      | reservedF => exact ⟨_, rfl⟩
  case feed | h2 | h6 | h4 | h8 | h10 | h14 => exact State.complete_completes (feedCommand_completes hs _)
  -- FEED_BYTE and the sixteen rows of byte 0
  all_goals exact State.complete_completes (feedByteCommand_completes hs _)

/-! The buffered payload (R32, R175). -/

/-- Outside `ReadingPayload` no payload is buffered. -/
theorem Block.PhaseInv.rxPayload_eq_nil {b : Block} {c : Config} (h : b.PhaseInv c)
    (hs : b.rxState ≠ .readingPayload) : b.rxPayload = [] := by
  cases hstate : b.rxState <;> simp only [Block.PhaseInv, hstate] at h
  case readingPayload => exact absurd hstate hs
  case failed => exact h
  all_goals exact h.1

/-- In `ReadingPayload` the buffer is shorter than the frame's length, which SizeCheck admitted. -/
theorem Block.PhaseInv.rxPayload_lt {b : Block} {c : Config} (h : b.PhaseInv c) (hs : b.rxState = .readingPayload) :
    ∃ l, b.rxLen = some l ∧ b.rxPayload.length < l.toNat ∧ l.toNat ≤ c.maxPayload.toNat := by
  simp only [Block.PhaseInv, hs] at h
  obtain ⟨x, y, l, -, -, ⟨hlen, -, -, hsize⟩, hcnt, hpayload, -⟩ := h
  exact ⟨l, hlen, hpayload ▸ hcnt, (sizeCheck_eq_none.mp hsize).1⟩

/-- Settles O52: the state an instruction ends in has the invariant, which bounds the buffer by `rx_len` and that by
`cfg_max_payload`. -/
theorem bufferedPayloadIsBounded : Obligations.BufferedPayloadIsBounded := by
  intro i s t m hs h hm
  rcases exec_keeps_inv hs h with hreset | ⟨c, hc, hphase, -, -, htotal⟩
  · simp [hreset] at hm
  obtain ⟨-, -, -, hmax, -⟩ := hc
  obtain rfl : c.maxPayload = m := Option.some.inj (hmax.symm.trans hm)
  by_cases hst : t.block.rxState = .readingPayload
  · obtain ⟨l, hlen, hlt, hle⟩ := hphase.rxPayload_lt hst
    refine ⟨by omega, htotal, fun l' _ hlen' => ?_⟩
    obtain rfl : l = l' := Option.some.inj (hlen.symm.trans hlen')
    exact hlt
  · exact ⟨by simp [hphase.rxPayload_eq_nil hst], htotal, fun _ h => absurd h hst⟩

/-! The tables' numbers (R22, R26, R241, R242). -/

/-- The kind and the close code of a record, by the reason's number (R242). -/
theorem errorRecord_of_code_le {r : Reason} (h : r.code ≤ 14) (offset : U64) :
    errorRecord r offset
      = ⟨if r.code ≤ 12 then .protocolError else .payloadTooLarge, r, if r.code ≤ 12 then 1002 else 1009, offset⟩ := by
  cases r
  case lengthTooLarge => simp [Reason.code] at h
  all_goals rfl

/-- Settles O55: the four tables are closed lists, and the records are those of `errorRecord_of_code_le`. -/
theorem numbersAreThoseOfTheTables : Obligations.NumbersAreThoseOfTheTables :=
  ⟨rfl, rfl, rfl, rfl, fun _ offset h => errorRecord_of_code_le h offset⟩

/-! The header flags (R37). -/

theorem bitOf_rsv2 (x : Byte) : Spec.bitOf x 5 = Byte0.rsv2 x := (bitOf_eq x).2.2.1

theorem bitOf_rsv3 (x : Byte) : Spec.bitOf x 4 = Byte0.rsv3 x := (bitOf_eq x).2.2.2

/-- No instruction but RESET and those that feed the receiver writes a latched header byte. -/
theorem Effect.latched_eq {i : Instr} {b b' : Block} {r : Result} (h : Effect i b b' r) (hreset : i ≠ .reset)
    (hfeeds : Spec.feedsReceiver i = false) : b'.rxB0 = b.rxB0 ∧ b'.rxB1 = b.rxB1 := by
  cases h with
  | unchanged _ h => exact h ▸ ⟨rfl, rfl⟩
  | reset hi _ => exact absurd hi hreset
  | configured c _ _ h => exact h ▸ ⟨rfl, rfl⟩
  | fed _ _ _ hi _ _ _ => simp [hi] at hfeeds

/-- Settles O56: each flag is a function of one latched byte, whose bits are those of R54's arithmetic. -/
theorem headerFlagsAreViews : Obligations.HeaderFlagsAreViews := by
  refine ⟨fun b x hx => ?_, fun b y hy => ?_, fun b hb => ?_, fun b hb => ?_, fun i s t hreset hfeeds h => ?_⟩
  · simp [Block.finFlag, Block.rsv1Flag, Block.rsv2Flag, Block.rsv3Flag, Block.opcodeFlag, hx, bitOf_fin, bitOf_rsv1,
      bitOf_rsv2, bitOf_rsv3, opcodeOf_eq]
  · simp [Block.maskFlag, Block.len7Flag, hy, bitOf_mask, len7Of_eq]
  · simp [Block.finFlag, Block.rsv1Flag, Block.rsv2Flag, Block.rsv3Flag, Block.opcodeFlag, hb]
  · simp [Block.maskFlag, Block.len7Flag, hb]
  · obtain ⟨-, r, -, heffect⟩ := exec_effect h
    obtain ⟨hb0, hb1⟩ := heffect.latched_eq hreset hfeeds
    simp [Block.finFlag, Block.rsv1Flag, Block.rsv2Flag, Block.rsv3Flag, Block.opcodeFlag, Block.maskFlag,
      Block.len7Flag, hb0, hb1]

end Sys2Proof.Machine
end

section
/-!
SUPPORT. The words the spec writes out, as the encodings of the instructions they stand for; with the proof of the
statement about them (spec/20_memory.md R54, spec/30_encoding.md R71, R76, R83).
-/
namespace Sys2Proof

/-- A word written out decodes to the well-formed instruction whose encoding it is. -/
theorem decode_of_encode_eq {w : HostWord} {i : Instr} (hw : i.wellFormed = true) (henc : encode i = w) :
    decode w = .ok i :=
  henc ▸ decode_encode hw

/-- Settles O4: each word, written out bit by bit, is the encoding of its instruction, and decoding inverts encoding. -/
theorem wordsOfTheSpecDecode : Obligations.WordsOfTheSpecDecode :=
  ⟨decode_of_encode_eq rfl rfl, decode_of_encode_eq rfl rfl, decode_of_encode_eq rfl rfl,
    decode_of_encode_eq rfl rfl, decode_of_encode_eq rfl rfl, decode_of_encode_eq rfl rfl⟩

end Sys2Proof
end

section
/-!
SUPPORT. The encoder's and the receiver's commands side by side: the first write no register, the second no configuration
register, so their order does not matter (spec/20_memory.md R62, spec/10_state.md R41).
-/
namespace Sys2Proof.Machine

/-- Settles O53: the encoder's command answers a function of the configuration registers, which the receiver's command
leaves (`everyInstructionGivesOneResult`), and the receiver's command works on the registers alone, which the encoder's leaves. -/
theorem encoderAndReceiverCommandsCommute : Obligations.EncoderAndReceiverCommandsCommute := by
  intro e r s s₁ s₂ he hr h₁ h₂
  obtain ⟨f, hencoder, hcongr⟩ := exec_codec he
  obtain ⟨g, hreceiver⟩ := feeds_block hr
  rw [hencoder] at h₁
  obtain ⟨re, hre, rfl⟩ := State.answer_eq_next.mp h₁
  rw [hreceiver] at h₂
  obtain ⟨b, rr, hrr, rfl⟩ := State.complete_eq_next.mp h₂
  -- the receiver's command first, on the registers the encoder's had left
  have hfirst : exec r s = .next { s with block := b, result := some rr } := by
    rw [hreceiver, hrr, State.complete_ok]
  -- the encoder's command then reads the same configuration
  obtain ⟨-, -, hconfig⟩ := everyInstructionGivesOneResult r s _ hfirst
  have hsame : f b = .ok re := (hcongr _ _ (hconfig hr)).trans hre
  exact ⟨_, { s with block := b, result := some re }, hfirst, by rw [hencoder, hsame, State.answer_ok], rfl, rfl, rfl⟩

end Sys2Proof.Machine
end

section
/-!
SUPPORT. The words of the port and the opcode table: decoding inverts encoding, a header byte is the encoding of what it
decodes to, and its row is that of the instruction's mnemonic; with the proofs of the statements about them
(spec/30_encoding.md R70, R71, R72, R76, R83).
-/
namespace Sys2Proof

open Machine

/-- Settles O1: each parser reads back what its printer wrote (`decode_encode`). -/
theorem decodeOfEncodeGivesTheInstruction : Obligations.DecodeOfEncodeGivesTheInstruction :=
  fun _ hw => decode_encode hw

theorem decodeByte0_format (b : Byte) : (decodeByte0 b).format = .hdrB0 := by
  revert b; decide

/-- Settles O2: an accepted parse of byte 1 says what the bytes are (`decodeByte1_ok`), and byte 0 is always
accepted. -/
theorem headerRowsReadBackTheirBytes : Obligations.HeaderRowsReadBackTheirBytes := by
  refine ⟨fun b0 => ⟨decodeByte0_bytes b0, decodeByte0_format b0⟩, fun b1 more rest i h => ?_⟩
  obtain ⟨hw, hformat, hbytes, hlength⟩ := decodeByte1_ok h
  exact ⟨hw, hformat, hbytes, by rw [hlength, extOf_eq, ← keyBytes_eq]; omega⟩

/-- The family TableWord, over all instructions. -/
theorem encoding_selects_its_row : ∀ i : Instr, Laws.TableWord.Statement i
  | .reset => Laws.TableWord.reset
  | .configure role a m st => Laws.TableWord.configure role a m st
  | .readStatus => Laws.TableWord.readStatus
  | .encodeHeader op fin rsv1 key n => Laws.TableWord.encodeHeader op fin rsv1 key n
  | .encodeFrame op fin rsv1 key p => Laws.TableWord.encodeFrame op fin rsv1 key p
  | .applyMask d key phase => Laws.TableWord.applyMask d key phase
  | .decodeHeader buf => Laws.TableWord.decodeHeader buf
  | .feedByte b => Laws.TableWord.feedByte b
  | .feed d => Laws.TableWord.feed d
  | .reserved9 => Laws.TableWord.reserved9
  | .reservedA => Laws.TableWord.reservedA
  | .reservedB => Laws.TableWord.reservedB
  | .reservedC => Laws.TableWord.reservedC
  | .reservedD => Laws.TableWord.reservedD
  | .reservedE => Laws.TableWord.reservedE
  | .reservedF => Laws.TableWord.reservedF
  | .cont f a b c => Laws.TableWord.cont f a b c
  | .text f a b c => Laws.TableWord.text f a b c
  | .bin f a b c => Laws.TableWord.bin f a b c
  | .rsvdD3 f a b c => Laws.TableWord.rsvdD3 f a b c
  | .rsvdD4 f a b c => Laws.TableWord.rsvdD4 f a b c
  | .rsvdD5 f a b c => Laws.TableWord.rsvdD5 f a b c
  | .rsvdD6 f a b c => Laws.TableWord.rsvdD6 f a b c
  | .rsvdD7 f a b c => Laws.TableWord.rsvdD7 f a b c
  | .close f a b c => Laws.TableWord.close f a b c
  | .ping f a b c => Laws.TableWord.ping f a b c
  | .pong f a b c => Laws.TableWord.pong f a b c
  | .rsvdCB f a b c => Laws.TableWord.rsvdCB f a b c
  | .rsvdCC f a b c => Laws.TableWord.rsvdCC f a b c
  | .rsvdCD f a b c => Laws.TableWord.rsvdCD f a b c
  | .rsvdCE f a b c => Laws.TableWord.rsvdCE f a b c
  | .rsvdCF f a b c => Laws.TableWord.rsvdCF f a b c
  | .h2 len7 => Laws.TableWord.h2 len7
  | .h6 len7 key => Laws.TableWord.h6 len7 key
  | .h4 len => Laws.TableWord.h4 len
  | .h8 len key => Laws.TableWord.h8 len key
  | .h10 len => Laws.TableWord.h10 len
  | .h14 len key => Laws.TableWord.h14 len key

/-- The first byte of an instruction's encoding is selected by its row alone. -/
theorem row_of_first_byte {i : Instr} {b : Byte} (hw : i.wellFormed = true) (hb : i.bytes.head? = some b) :
    ((tableRows i.format).filter (·.selects b)).map (·.mnemonic) = [i.mnemonic] := by
  obtain ⟨b', rest, hbytes, hrow⟩ := encoding_selects_its_row i hw
  obtain rfl : b' = b := by simpa [hbytes] using hb
  exact hrow

/-- The bytes `decodeByte1` reads begin with byte 1. -/
theorem decodeByte1_head? {b1 : Byte} {more rest : Bytes} {i : Instr} (h : decodeByte1 b1 more = .ok (i, rest)) :
    i.bytes.head? = some b1 := by
  obtain ⟨hw, -, hbytes, -⟩ := decodeByte1_ok h
  obtain ⟨b, tail, hi, -⟩ := encoding_selects_its_row i hw
  rw [hi] at hbytes
  rw [hi, List.head?_cons, (List.cons.inj hbytes).1]

/-- Every byte is selected by one header format, and by one command exactly when it is a command's code (R71, R83). -/
theorem rows_of_byte (b : Byte) : (byte1Rows.filter (·.selects b)).length = 1
    ∧ ((commandRows.filter (·.selects b)).length = 1 ↔ b.toNat < 16) := by
  revert b; decide

/-- Settles O3: what a decoder answers is well formed and begins with the byte it was given, so the byte selects the
row of its mnemonic (`row_of_first_byte`). -/
theorem everyFirstByteSelectsOneRow : Obligations.EveryFirstByteSelectsOneRow := by
  refine ⟨fun b0 => ?_, fun b1 more rest i h => ?_, fun code ops rest i h => ?_, rows_of_byte⟩
  · have hrow := row_of_first_byte (decodeByte0_wellFormed b0) (by rw [decodeByte0_bytes]; rfl)
    rwa [decodeByte0_format] at hrow
  · obtain ⟨hw, hformat, -⟩ := decodeByte1_ok h
    have hrow := row_of_first_byte hw (decodeByte1_head? h)
    rwa [hformat] at hrow
  · obtain ⟨hw, hformat, hhead⟩ := decodeCommand_ok h
    have hrow := row_of_first_byte hw hhead
    rwa [hformat] at hrow

end Sys2Proof
end

section
/-!
SUPPORT. ENCODE_FRAME where the configuration is in force (spec/40_frame_codec.md R101), with the proof of the statement
that it completes.
-/
namespace Sys2Proof.Machine

theorem encodeFrameResult_of_invalid {b : Block} {c : Config} {op : BitVec 4} {fin rsv1 : Bool} {key : Option Key}
    {payload : Bytes} {r : Reason} (hc : b.ConfiguredAs c)
    (h : Spec.encodeCheck c op.toNat fin rsv1 key payload.length = some r) :
    encodeFrameResult b op fin rsv1 key payload = .ok (.encodeInvalid r) := by
  simp only [encodeFrameResult, encodeHeaderResult_eq hc, Spec.encodeHeader, h, except_ok_bind]

theorem encodeFrameResult_of_admitted {b : Block} {c : Config} {op : BitVec 4} {fin rsv1 : Bool} {key : Option Key}
    {payload : Bytes} (hc : b.ConfiguredAs c)
    (h : Spec.encodeCheck c op.toNat fin rsv1 key payload.length = none) :
    encodeFrameResult b op fin rsv1 key payload
      = .ok (.bytes (Spec.headerOf op.toNat fin rsv1 key payload.length ++ frameBody key payload)) := by
  simp only [encodeFrameResult, encodeHeaderResult_eq hc, Spec.encodeHeader, h, except_ok_bind]

theorem exec_encodeFrame (op : BitVec 4) (fin rsv1 : Bool) (key : Option Key) (payload : Bytes) (s : State) :
    exec (.encodeFrame op fin rsv1 key payload) s = s.answer (encodeFrameResult s.block op fin rsv1 key payload) := rfl

/-- Settles O16: the check's answer decides between the reason and the bytes, whose front is the header. -/
theorem encodeFrameCompletes : Obligations.EncodeFrameCompletes := by
  intro s c op fin rsv1 key payload hc
  rw [exec_encodeFrame]
  cases hcheck : Spec.encodeCheck c op.toNat fin rsv1 key payload.length with
  | some reason =>
    rw [encodeFrameResult_of_invalid hc hcheck]
    exact ⟨_, State.answer_ok .., by simp, by simp⟩
  | none =>
    rw [encodeFrameResult_of_admitted hc hcheck]
    refine ⟨_, State.answer_ok .., by simp, fun _ => ⟨_, rfl, ?_, ?_⟩⟩
    · rw [List.length_append, headerOf_length, frameBody_length]
    · rw [← headerOf_length op.toNat fin rsv1, List.take_left]

end Sys2Proof.Machine
end

section
/-!
SUPPORT. The rows that are header bytes, at the receiver: byte 0 at a frame boundary and the checks it meets, byte 1
with the header bytes behind it; with the proofs of the statements about the rows (spec/30_encoding.md R71, R76;
spec/42_receiver.md R172 to R180).
-/
namespace Sys2Proof.Machine

/-- Settles O37: a row's meaning is the receiver's command on the row's bytes. -/
theorem wireRowsAreFedBytes : Obligations.WireRowsAreFedBytes := by
  refine ⟨fun s i op fin rsv1 rsv2 rsv3 h => exec_frameRow h s, fun s i y n key h hw => ?_⟩
  obtain ⟨ext, hlength, -, hvalue, -, -, hexec⟩ := exec_headerRow h hw
  refine ⟨ext, by rw [hlength, extOf_eq], by rwa [extOf_eq], ?_⟩
  rw [hexec]
  cases key <;> rfl

/-- Settles O35: the row's bytes are those of a header whose checks pass (`feed_header`). -/
theorem headerFormatRowsReachThePayload : Obligations.HeaderFormatRowsReachThePayload := by
  intro s c i x y n key hc hawaits hw hrow hcheck1 hlen hsize
  obtain ⟨ext, hext, hmask, hvalue, hshort, -, hexec⟩ := exec_headerRow hrow hw
  rw [extOf_eq] at hlen ⊢
  obtain ⟨p, rfl, hloop⟩ := feed_header hc hawaits hext hmask hvalue hshort hcheck1 hlen hsize
  have hnot_failed : s.block.rxState ≠ .failed := by simp [hawaits.1]
  rw [hexec, exec_feed_of_loop hc.1 hnot_failed hloop, hext]

/-! Byte 0 by arithmetic has the fields it is made of (R54). -/

section
variable {op : Nat} (h : op < 16) (fin rsv1 rsv2 rsv3 : Bool)
include h

/-- `byte0Of_eq` for an opcode given as a number. -/
theorem byte0Of_eq_make : Spec.byte0Of op fin rsv1 rsv2 rsv3 = Byte0.make fin rsv1 rsv2 rsv3 (BitVec.ofNat 4 op) := by
  rw [← byte0Of_eq, BitVec.toNat_ofNat, Nat.mod_eq_of_lt h]

theorem opcodeOf_byte0Of : Spec.opcodeOf (Spec.byte0Of op fin rsv1 rsv2 rsv3) = op := by
  rw [byte0Of_eq_make h, opcodeOf_eq, Byte0.opcode_make, BitVec.toNat_ofNat, Nat.mod_eq_of_lt h]

theorem bitOf_byte0Of : Spec.bitOf (Spec.byte0Of op fin rsv1 rsv2 rsv3) 7 = fin
    ∧ Spec.bitOf (Spec.byte0Of op fin rsv1 rsv2 rsv3) 6 = rsv1
    ∧ Spec.bitOf (Spec.byte0Of op fin rsv1 rsv2 rsv3) 5 = rsv2
    ∧ Spec.bitOf (Spec.byte0Of op fin rsv1 rsv2 rsv3) 4 = rsv3 := by
  simp only [byte0Of_eq_make h, bitOf_fin, bitOf_rsv1, bitOf_rsv2, bitOf_rsv3, Byte0.fin_make, Byte0.rsv1_make,
    Byte0.rsv2_make, Byte0.rsv3_make, and_self]

end

/-! Byte 0 at a frame boundary (R172, R173). -/

section
variable {s : State} {c : Config} {x : Byte}

/-- FEED_BYTE at a frame boundary, where a check of byte 0 fails. -/
theorem exec_feedByte_boundary_fails {r : Reason} (hc : s.block.ConfiguredAs c) (hb : Spec.AtBoundary s.block)
    (h : (Spec.check0 c.rsv1Allowed x).or (Spec.checkSeq s.block.rxFragOpen x) = some r) :
    exec (.feedByte x) s = .next (Spec.byteTaken s (Spec.failed r { s.block with rxB0 := some x })) := by
  refine exec_feedByte_eq hc.1 (boundary_not_failed hb) ?_ rfl
  rw [receiveByte_byte0 x hb.1 hb.2, byte0_eq hc, hdrCheck0_eq, seqCheck_eq, h, failed_eq]

/-- FEED_BYTE at a frame boundary, where byte 0 passes its checks. -/
theorem exec_feedByte_boundary_passes (hc : s.block.ConfiguredAs c) (hb : Spec.AtBoundary s.block)
    (h : (Spec.check0 c.rsv1Allowed x).or (Spec.checkSeq s.block.rxFragOpen x) = none) :
    exec (.feedByte x) s = .next (Spec.byteTaken s ({ s.block with rxB0 := some x, rxCnt := 1 }, [])) := by
  refine exec_feedByte_eq hc.1 (boundary_not_failed hb) ?_ rfl
  rw [receiveByte_byte0 x hb.1 hb.2, byte0_eq hc, hdrCheck0_eq, seqCheck_eq, h]

end

/-- The control opcodes among the frame types (R76, R77). -/
theorem isControl_iff_of_mem_frameTypes {op : Nat} (h : op ∈ Spec.frameTypes) :
    Spec.isControl op = true ↔ op ∈ [0x8, 0x9, 0xA] := by
  revert op; decide

/-- HdrCheck0 (R103) of a byte 0 made of a frame type and flags, by its fields. -/
theorem check0_byte0Of {op : Nat} (h : op ∈ Spec.frameTypes) (allowed fin rsv1 rsv2 rsv3 : Bool) :
    Spec.check0 allowed (Spec.byte0Of op fin rsv1 rsv2 rsv3)
      = if rsv2 = true ∨ rsv3 = true then some .rsv23Set
        else if rsv1 = true ∧ allowed = false then some .rsv1NotNegotiated
        else if rsv1 = true ∧ op ∉ [0x1, 0x2] then some .rsv1Misplaced
        else if op ∈ [0x8, 0x9, 0xA] ∧ fin = false then some .fragmentedControl
        else none := by
  have hlt : op < 16 := by revert op; decide
  obtain ⟨h7, h6, h5, h4⟩ := bitOf_byte0Of hlt fin rsv1 rsv2 rsv3
  simp only [Spec.check0, opcodeOf_byte0Of hlt, h7, h6, h5, h4, isControl_iff_of_mem_frameTypes h, h,
    not_true_eq_false, if_false]

/-- SeqCheck (R173) of such a byte. -/
theorem checkSeq_byte0Of {op : Nat} (h : op < 16) (fragOpen fin rsv1 rsv2 rsv3 : Bool) :
    Spec.checkSeq fragOpen (Spec.byte0Of op fin rsv1 rsv2 rsv3)
      = if op = 0x0 ∧ fragOpen = false then some .unexpectedContinuation
        else if op ∈ [0x1, 0x2] ∧ fragOpen = true then some .messageInProgress
        else none := by
  simp only [Spec.checkSeq, opcodeOf_byte0Of h]

/-- Settles O33: the row is FEED_BYTE of its byte, and the row's fields decide the checks one after the other. -/
theorem frameTypeRowsStartAFrame : Obligations.FrameTypeRowsStartAFrame := by
  intro s c i op fin rsv1 rsv2 rsv3 hc hb hrow htype
  have hfails := fun r => exec_feedByte_boundary_fails (r := r) (x := Spec.byte0Of op fin rsv1 rsv2 rsv3) hc hb
  have hpasses := exec_feedByte_boundary_passes (x := Spec.byte0Of op fin rsv1 rsv2 rsv3) hc hb
  rw [check0_byte0Of htype, checkSeq_byte0Of (frameRow_lt hrow)] at hfails hpasses
  dsimp only
  rw [exec_frameRow hrow]
  refine ⟨fun h => hfails _ (by rw [if_pos h]; rfl), ?_⟩
  rintro rfl rfl
  refine ⟨fun h1 ha => hfails _ ?_, fun h1 ha hop => hfails _ ?_, fun h1 hop hfin => hfails _ ?_,
    fun h1 hop hopen => hfails _ ?_, fun h1 hop hopen => hfails _ ?_, fun h1 hfin hopen hclosed => hpasses ?_⟩
  · simp [h1, ha]
  · rw [if_neg (by simp), if_neg (by simp [ha]), if_pos ⟨h1, hop⟩]; rfl
  · rw [if_neg (by simp), if_neg (by simp [h1]), if_neg (by simp [h1]), if_pos ⟨hop, hfin⟩]; rfl
  · simp [h1, hop, hopen]
  · have hdata : op ≠ 0x0 ∧ op ∉ [0x8, 0x9, 0xA] := by simp at hop ⊢; omega
    rw [if_neg (by simp), if_neg (by simpa using h1), if_neg fun h => h.2 hop, if_neg fun h => hdata.2 h.1,
      Option.none_or, if_neg fun h => hdata.1 h.1, if_pos ⟨hop, hopen⟩]
  · rw [if_neg (by simp), if_neg (by simpa using fun h => (h1 h).1), if_neg fun h => h.2 (h1 h.1).2,
      if_neg (by simpa using hfin), if_neg (by simpa using hopen), if_neg (by simpa using hclosed)]
    rfl

end Sys2Proof.Machine
end

section
/-!
SUPPORT. A frame that ENCODE_FRAME returns in one role, fed to a receiver of the opposite role, comes out whole; and the
pseudo-command FEED FRAME, which feeds such a frame; with the proof of the statement about it (spec/30_encoding.md R85,
spec/42_receiver.md R190).
-/
namespace Sys2Proof.Machine

/-! What is masked on the wire is demasked by the receiver (R151, R181). -/

theorem mask_mask (data : Bytes) (k : Key) (phase : Nat) : mask (mask data k phase) k phase = data := by
  induction data generalizing phase with
  | nil => rfl
  | cons x data ih => simp only [mask, maskByteAt, ih, BitVec.xor_assoc, BitVec.xor_self, BitVec.xor_zero]

theorem unmask_frameBody (key : Option Key) (payload : Bytes) : unmask key (frameBody key payload) 0 = payload := by
  cases key with
  | none => rfl
  | some k => exact mask_mask payload k 0

/-! Header and payload as two chunks. -/

theorem keyField_length (key : Option Key) : (keyField key).length = 4 * key.isSome.toNat := by
  cases key <;> rfl

theorem enterPayload_not_failed (x y : Byte) (l : U64) (key : Option Key) (b : Block) :
    (Spec.enterPayload x y l key b).1.rxState ≠ .failed := by
  obtain ⟨⟨-, hstate, -⟩ | ⟨-, hstate, -⟩, -⟩ := enterPayload_row x y l key b <;> simp [hstate]

/-- The payload behind a header: the header's last byte dispatches an empty frame, the payload's last byte any other
(R180, R181), so the two chunks together give one `FrameOut`. -/
theorem feed_body {x y : Byte} {l : U64} {key : Option Key} {b : Block} {body : Bytes} (o : U64)
    (h0 : b.rxB0 = some x) (h1 : b.rxB1 = some y) (hl : b.rxLen = some l) (hm : Byte1.mask y = key.isSome)
    (hkey : ∀ k, key = some k → b.rxKey = ⟨some k.k0, some k.k1, some k.k2, some k.k3⟩)
    (hbody : body.length = l.toNat) :
    ∃ b' ev, feedLoop body { (Spec.enterPayload x y l key b).1 with rxOffset := o } = .ok (b', body.length, ev)
      ∧ (Spec.enterPayload x y l key b).2 ++ ev = [.frameOut (makeHeader x y l key) (unmask key body 0)] := by
  by_cases hz : l = 0
  · obtain rfl : body = [] := List.eq_nil_of_length_eq_zero (by simp [hbody, hz])
    have hempty : unmask key [] 0 = [] := by cases key <;> rfl
    exact ⟨_, [], rfl, by rw [Spec.enterPayload, if_pos hz, dispatched_eq, hempty]; rfl⟩
  · have hcase : Spec.bitOf y 7 = false ∧ key = none ∨ Spec.bitOf y 7 = true
        ∧ ∃ k, key = some k ∧ b.rxKey = ⟨some k.k0, some k.k1, some k.k2, some k.k3⟩ := by
      rw [bitOf_mask, hm]
      cases key with
      | none => exact Or.inl ⟨rfl, rfl⟩
      | some k => exact Or.inr ⟨rfl, k, rfl, hkey k rfl⟩
    have hpos : 0 < body.length := hbody ▸ Nat.pos_of_ne_zero fun h => hz (BitVec.eq_of_toNat_eq h)
    obtain ⟨p, rfl, hloop⟩ := feed_payload (x := x) (y := y) (l := l) (key := key) body
      { b with rxState := .readingPayload, rxCnt := 0, rxPayload := [], rxOffset := o } rfl h0 h1 hl hcase
      (by simpa using hbody) hpos
    rw [dispatched_eq] at hloop
    rw [Spec.enterPayload, if_neg hz]
    exact ⟨_, _, hloop, rfl⟩

/-- A whole frame from a frame boundary, where every check passes: all of it is consumed and one `FrameOut` comes
out. -/
theorem feed_frame {c : Config} {x y : Byte} {ext body : Bytes} {n : Nat} {key : Option Key} {b : Block}
    (hc : b.ConfiguredAs c) (hb : Spec.AtBoundary b)
    (h0 : (Spec.check0 c.rsv1Allowed x).or (Spec.checkSeq b.rxFragOpen x) = none)
    (hel : ext.length = extBytes (Byte1.len7 y)) (hm : Byte1.mask y = key.isSome)
    (hn : 0 < extBytes (Byte1.len7 y) → beNat ext = n) (hn0 : extBytes (Byte1.len7 y) = 0 → (Byte1.len7 y).toNat = n)
    (h1 : Spec.check1 c.role x y = none)
    (hlen : 0 < extBytes (Byte1.len7 y) → Spec.checkLen c.strictMinlen (extBytes (Byte1.len7 y)) n = none)
    (hsz : Spec.checkSize c.maxPayload x b.rxMsgTotal.toNat n = none)
    (hbody : body.length = n) (hlt : n < 2 ^ 64) :
    ∃ b', feedLoop (x :: y :: (ext ++ keyField key) ++ body) b
      = .ok (b', (x :: y :: (ext ++ keyField key) ++ body).length,
          [.frameOut (makeHeader x y (BitVec.ofNat 64 n) key) (unmask key body 0)]) := by
  obtain ⟨p, hp, hheader⟩ := feed_whole_header hc hb h0 hel hm hn hn0 h1 hlen hsz
  obtain ⟨b', ev, hloop, hev⟩ := feed_body (x := x) (y := y) (l := BitVec.ofNat 64 n) (key := key) (body := body)
    (b := { b with
      rxCnt := 1
      rxB0 := some x
      rxB1 := some y
      rxLen := some (BitVec.ofNat 64 n)
      rxKey := Spec.latchedKey key b.rxKey
      rxOffset := b.rxOffset + 1 })
    (b.rxOffset + BitVec.ofNat 64 (2 + ext.length + 4 * key.isSome.toNat)) rfl rfl rfl hm
    (by rintro k rfl; rfl) (by rw [hbody, BitVec.toNat_ofNat, Nat.mod_eq_of_lt hlt])
  rw [← hp] at hloop hev
  have hgoes : p.1.rxState ≠ .failed := hp ▸ enterPayload_not_failed x y _ key _
  obtain ⟨-, hwhole⟩ := (feedLoop_append (c := body) (boundary_not_failed hb) hheader).2 hgoes
  refine ⟨b', ?_⟩
  rw [hwhole, hloop, except_map_ok, hev]
  simp only [List.length_cons, List.length_append, keyField_length]
  congr 3
  omega

/-! The encoder's frame at the peer (R190). -/

/-- The frame the encoder of `cA` makes, fed to a receiver of `cB`, of the opposite role, at a frame boundary where
SeqCheck and SizeCheck pass. -/
theorem exec_feed_encoded_frame {cA cB : Config} {s : State} {op : BitVec 4} {fin rsv1 : Bool} {key : Option Key}
    {payload : Bytes} (hc : s.block.ConfiguredAs cB) (hrole : cA.role ≠ cB.role)
    (hrsv1 : cA.rsv1Allowed = cB.rsv1Allowed)
    (hadmitted : encodeCheck cA.role cA.rsv1Allowed op fin rsv1 key payload.length = none)
    (hb : Spec.AtBoundary s.block) (hopen : op.toNat = 0x0 → s.block.rxFragOpen = true)
    (hclosed : op.toNat ∈ [0x1, 0x2] → s.block.rxFragOpen = false) (hmax : payload.length ≤ cB.maxPayload.toNat)
    (htotal : Spec.isControl op.toNat = false → s.block.rxMsgTotal.toNat + payload.length ≤ cB.maxPayload.toNat) :
    ∃ t h, exec (.feed (headerBytes op fin rsv1 key payload.length ++ frameBody key payload)) s = .next t
      ∧ t.result = some (.fed (headerBytes op fin rsv1 key payload.length ++ frameBody key payload).length
          [.frameOut h payload])
      ∧ h.opcode = op ∧ h.fin = fin ∧ h.rsv1 = rsv1 ∧ h.masked = key.isSome ∧ h.maskKey = key
      ∧ h.payloadLength.toNat = payload.length := by
  obtain ⟨y, ext, hbytes, hel, hm, hlen, hassembled, h1, -⟩ :=
    decode_encoded (rB := cB.role) (st := cB.strictMinlen) (body := []) hrole hadmitted
  obtain ⟨-, -, hlimit⟩ := encodeCheck_none hadmitted
  have hlt : payload.length < 2 ^ 64 := by omega
  have hopcode : Spec.opcodeOf (Byte0.make fin rsv1 false false op) = op.toNat := by
    rw [opcodeOf_eq, Byte0.opcode_make]
  -- the value the length bytes hold is the payload's length
  have hvalue := hassembled []
  rw [List.append_nil, assembledLength, ← hel, List.take_length, hel] at hvalue
  have hcheck0 : (Spec.check0 cB.rsv1Allowed (Byte0.make fin rsv1 false false op)).or
      (Spec.checkSeq s.block.rxFragOpen (Byte0.make fin rsv1 false false op)) = none := by
    rw [← hdrCheck0_eq, ← hrsv1, check0_make hadmitted, Option.none_or]
    exact seq_ok (by rwa [hopcode]) (by rwa [hopcode])
  obtain ⟨b', hloop⟩ := feed_frame hc hb hcheck0 hel hm (fun h => by rwa [if_neg (by omega)] at hvalue)
    (fun h => by rwa [if_pos h] at hvalue) (hdrCheck1_eq .. ▸ h1) (fun h => lenCheck_eq .. ▸ hlen h _)
    (size_ok hmax (by rwa [hopcode])) (frameBody_length key payload) hlt
  rw [← hbytes, unmask_frameBody] at hloop
  refine ⟨_, _, exec_feed_of_loop hc.1 (boundary_not_failed hb) hloop, rfl, ?_⟩
  simp [makeHeader, hm]
  omega

/-! FEED FRAME (R85). -/

theorem oppositeRole_ne (r : Role) : oppositeRole r ≠ r := by
  cases r <;> simp [oppositeRole]

theorem peer_configuredAs {b : Block} {c : Config} (hc : b.ConfiguredAs c) :
    b.peer.ConfiguredAs ⟨oppositeRole c.role, c.rsv1Allowed, c.maxPayload, c.strictMinlen⟩ := by
  obtain ⟨hvalid, hrole, hrsv1, hmax, hstrict⟩ := hc
  exact ⟨hvalid, by simp [Block.peer, hrole], hrsv1, hmax, hstrict⟩

/-- FEED FRAME is FEED of the bytes the peer's ENCODE_FRAME returns, or no command. -/
theorem feedFrame_eq_some {b : Block} {op : BitVec 4} {fin rsv1 : Bool} {key : Option Key} {payload : Bytes}
    {i : Instr} :
    feedFrame b op fin rsv1 key payload = some i ↔
      ∃ f, encodeFrameResult b.peer op fin rsv1 key payload = .ok (.bytes f) ∧ i = .feed f := by
  unfold feedFrame
  split
  · rename_i f hf
    simp [hf, eq_comm]
  · rename_i hno
    simp only [reduceCtorEq, false_iff, not_exists, not_and]
    exact fun f hf => absurd hf (hno f)

/-- ENCODE_FRAME executed returns bytes exactly when its result is those bytes. -/
theorem exec_encodeFrame_returns_bytes {s : State} {op : BitVec 4} {fin rsv1 : Bool} {key : Option Key}
    {payload f : Bytes} :
    (∃ t, exec (.encodeFrame op fin rsv1 key payload) s = .next t ∧ t.result = some (.bytes f)) ↔
      encodeFrameResult s.block op fin rsv1 key payload = .ok (.bytes f) := by
  constructor
  · rintro ⟨t, h, hresult⟩
    obtain ⟨r, hr, rfl⟩ := State.answer_eq_next.mp h
    rw [hr, Option.some.inj hresult]
  · intro h
    exact ⟨_, State.answer_eq_next.mpr ⟨_, h, rfl⟩, rfl⟩

/-- Settles O47: the expansion is ENCODE_FRAME's answer on the peer, and the peer's frame comes out of the receiver
(`exec_feed_encoded_frame`). -/
theorem feedFrameDeliversThePayload : Obligations.FeedFrameDeliversThePayload := by
  intro s op fin rsv1 key payload
  refine ⟨fun c hc => ⟨_, oppositeRole_ne c.role, peer_configuredAs hc⟩, fun u f hu => ?_, fun i hi => ?_,
    fun c f hc hexpands hb hopen hclosed hmax htotal => ?_⟩
  · rw [exec_encodeFrame_returns_bytes, hu, feedFrame_eq_some]
    simp
  · obtain ⟨f, -, hf⟩ := feedFrame_eq_some.mp hi
    exact ⟨f, hf⟩
  · have hresult : encodeFrameResult s.block.peer op fin rsv1 key payload = .ok (.bytes f) := by
      simpa using feedFrame_eq_some.mp hexpands
    obtain ⟨t, hexec, hbytes⟩ :=
      exec_encodeFrame_returns_bytes (s := { s with block := s.block.peer }).mpr hresult
    obtain ⟨hadmitted, rfl⟩ := exec_encodeFrame_bytes (peer_configuredAs hc) hexec hbytes
    exact exec_feed_encoded_frame (cA := ⟨oppositeRole c.role, c.rsv1Allowed, c.maxPayload, c.strictMinlen⟩) hc
      (oppositeRole_ne c.role) rfl hadmitted hb hopen hclosed hmax htotal

end Sys2Proof.Machine
end

section
/-!
SUPPORT. ENCODE_HEADER and ENCODE_FRAME: the header where the checks pass, the frame by the header's result, and the
length field at the boundary lengths; with the proofs of the statements about them (spec/40_frame_codec.md R100, R101,
R115).
-/
namespace Sys2Proof.Machine

theorem exec_encodeHeader (op : BitVec 4) (fin rsv1 : Bool) (key : Option Key) (n : Nat) (s : State) :
    exec (.encodeHeader op fin rsv1 key n) s = s.answer (encodeHeaderResult s.block op fin rsv1 key n) := rfl

theorem encodeHeaderResult_of_unconfigured {b : Block} (h : b.cfgValid = false) (op : BitVec 4) (fin rsv1 : Bool)
    (key : Option Key) (n : Nat) : encodeHeaderResult b op fin rsv1 key n = .ok (.cmdError .notConfigured) := by
  simp [encodeHeaderResult, h]

theorem exec_encodeHeader_configured {s : State} {c : Config} (hc : s.block.ConfiguredAs c) (op : BitVec 4)
    (fin rsv1 : Bool) (key : Option Key) (n : Nat) :
    exec (.encodeHeader op fin rsv1 key n) s
      = .next { s with result := some (Spec.encodeHeader c op.toNat fin rsv1 key n) } := by
  rw [exec_encodeHeader, encodeHeaderResult_eq hc, State.answer_ok]

/-- Settles O14: the model's checks and header bytes are those of the arithmetic (`encodeHeaderResult_eq`). -/
theorem encodeHeaderFollowsItsRule : Obligations.EncodeHeaderFollowsItsRule := by
  refine fun s op fin rsv1 key n => ⟨fun h => ?_, fun c hc => exec_encodeHeader_configured hc op fin rsv1 key n⟩
  rw [exec_encodeHeader, encodeHeaderResult_of_unconfigured h, State.answer_ok]

/-! The frame by the header's result (R101). -/

section
variable {b : Block} {op : BitVec 4} {fin rsv1 : Bool} {key : Option Key} {payload : Bytes}

theorem encodeFrameResult_of_header {h : Bytes}
    (hh : encodeHeaderResult b op fin rsv1 key payload.length = .ok (.bytes h)) :
    encodeFrameResult b op fin rsv1 key payload = .ok (.bytes (h ++ frameBody key payload)) := by
  simp only [encodeFrameResult, hh, except_ok_bind]

theorem encodeFrameResult_of_no_header {r : Result}
    (hr : encodeHeaderResult b op fin rsv1 key payload.length = .ok r) (hno : ∀ h, r ≠ .bytes h) :
    encodeFrameResult b op fin rsv1 key payload = .ok r := by
  cases r
  case bytes h => exact absurd rfl (hno h)
  all_goals simp only [encodeFrameResult, hr, except_ok_bind]

end

/-- Settles O15: ENCODE_FRAME puts the body behind the header's bytes and passes on any other result. -/
theorem encodeFrameIsHeaderAndMaskedPayload : Obligations.EncodeFrameIsHeaderAndMaskedPayload := by
  intro s t op fin rsv1 key payload hexec
  obtain ⟨r, hr, rfl⟩ := State.answer_eq_next.mp hexec
  refine ⟨fun h hh => ?_, fun hno => ?_⟩
  · obtain rfl : r = .bytes h := Option.some.inj hh
    rw [exec_encodeFrame, encodeFrameResult_of_header hr, State.answer_ok]
    exact congrArg (fun body => Host.Outcome.next { s with result := some (.bytes (h ++ body)) })
      (frameBody_eq key payload)
  · rw [exec_encodeFrame, encodeFrameResult_of_no_header hr (by simpa using hno), State.answer_ok]

/-! The length field (R74, R115). -/

/-- What the encoder admits (R100, R245): none of its checks applies. -/
theorem encodeCheck_admits {c : Config} {op n : Nat} {fin rsv1 : Bool} {key : Option Key}
    (htype : op ∈ Spec.frameTypes) (hrsv1 : rsv1 = true → c.rsv1Allowed = true ∧ op ∈ [0x1, 0x2])
    (hcontrol : Spec.isControl op = true → fin = true ∧ n ≤ 125) (hkey : key = none ↔ c.role = .server)
    (hlimit : n < 2 ^ 63) : Spec.encodeCheck c op fin rsv1 key n = none := by
  unfold Spec.encodeCheck
  rw [if_neg (not_not_intro htype), if_neg, if_neg, if_neg, if_neg, if_neg, if_neg, if_neg (Nat.not_le.mpr hlimit)]
  · rintro ⟨hc, hlong⟩
    exact Nat.not_lt.mpr (hcontrol hc).2 hlong
  · rintro ⟨hserver, hsome⟩
    exact hsome (hkey.mpr hserver)
  · rintro ⟨hclient, hnone⟩
    simp [hkey.mp hnone] at hclient
  · rintro ⟨hc, hfin⟩
    simp [(hcontrol hc).1] at hfin
  · rintro ⟨h1, hmisplaced⟩
    exact hmisplaced (hrsv1 h1).2
  · rintro ⟨h1, hforbidden⟩
    simp [(hrsv1 h1).1] at hforbidden

/-- LEN7 of an encoded header (R74): the length itself, or the mark of the shortest field that holds it. -/
theorem len7Of_headerOf (op : Nat) (fin rsv1 : Bool) (key : Option Key) (n : Nat) :
    Spec.len7Of ((Spec.headerOf op fin rsv1 key n).getD 1 0)
      = if n ≤ 125 then n else if n ≤ 65535 then 126 else 127 := by
  have hlow : ∀ m l : Nat, l ≤ 127 → Spec.len7Of (BitVec.ofNat 8 (m * 2 ^ 7 + l)) = l := by
    intro m l hl
    rw [Spec.len7Of, BitVec.toNat_ofNat]
    omega
  simp only [Spec.headerOf]
  by_cases hshort : n ≤ 125
  · rw [if_pos hshort, if_pos hshort]
    exact hlow _ n (by omega)
  · rw [if_neg hshort, if_neg hshort]
    by_cases hmiddle : n ≤ 65535
    · rw [if_pos hmiddle, if_pos hmiddle]
      exact hlow _ 126 (by omega)
    · rw [if_neg hmiddle, if_neg hmiddle]
      exact hlow _ 127 (by omega)

/-- Settles O17: an admitted header has the LEN7 of `len7Of_headerOf` and the length of `headerOf_length`, whatever the
opcode, the flags and the key are. -/
theorem lengthBoundariesTakeTheNextField : Obligations.LengthBoundariesTakeTheNextField := by
  intro s c op fin rsv1 key n len7 size hc htype hrsv1 hcontrol hkey hboundary
  have hcases : n < 2 ^ 63 ∧ (if n ≤ 125 then n else if n ≤ 65535 then 126 else 127) = len7
      ∧ (if n ≤ 125 then 2 else if n ≤ 65535 then 4 else 10) = size := by
    simp only [List.mem_cons, List.not_mem_nil, or_false, Prod.mk.injEq] at hboundary
    rcases hboundary with ⟨rfl, rfl, rfl⟩ | ⟨rfl, rfl, rfl⟩ | ⟨rfl, rfl, rfl⟩ | ⟨rfl, rfl, rfl⟩ <;> decide
  obtain ⟨hlimit, hlen7, hsize⟩ := hcases
  refine ⟨Spec.headerOf op.toNat fin rsv1 key n, ?_, ?_, ?_⟩
  · rw [exec_encodeHeader_configured hc, Spec.encodeHeader, encodeCheck_admits htype hrsv1 hcontrol hkey hlimit]
  · rw [len7Of_headerOf, hlen7]
  · rw [headerOf_length, Spec.headerLengthFor, hsize]

end Sys2Proof.Machine
end

section
/-!
SUPPORT. The stateless decoder: it reads back what the encoder of the opposite role writes, it answers by the arithmetic
of R102 to R105, and a result it gave stays with more bytes; with the proofs of the statements about it
(spec/40_frame_codec.md R102 to R105, R114, R116).
-/
namespace Sys2Proof.Machine

theorem exec_decodeHeader (buf : Bytes) (s : State) :
    exec (.decodeHeader buf) s = s.answer (decodeHeaderResult s.block buf) := rfl

theorem decodeHeaderResult_of_unconfigured {b : Block} (h : b.cfgValid = false) (buf : Bytes) :
    decodeHeaderResult b buf = .ok (.cmdError .notConfigured) := by
  simp [decodeHeaderResult, h]

theorem exec_decodeHeader_configured {s : State} {c : Config} (hc : s.block.ConfiguredAs c) (buf : Bytes) :
    exec (.decodeHeader buf) s
      = .next { s with result := some (decodeHeaderWith c.role c.rsv1Allowed c.strictMinlen buf) } := by
  rw [exec_decodeHeader, decodeHeaderResult_eq hc, State.answer_ok]

/-! The round trip (R114). -/

/-- Settles O26: the encoder's checks passing make the decoder's checks pass (`decode_encoded`), and the bytes behind
the header are the payload under the mask. -/
theorem encodedFrameDecodesToItsArguments : Obligations.EncodedFrameDecodesToItsArguments := by
  intro sA tA sB cA cB op fin rsv1 key payload f hA hB hrole hrsv1 hexec hf
  obtain ⟨hadmitted, rfl⟩ := exec_encodeFrame_bytes hA hexec hf
  obtain ⟨y, ext, hbytes, hext, hmask, -, -, -, hdecode⟩ :=
    decode_encoded (rB := cB.role) (st := cB.strictMinlen) (body := frameBody key payload) hrole hadmitted
  obtain ⟨-, -, hlimit⟩ := encodeCheck_none hadmitted
  have hlength := headerLength_eq_length op fin rsv1 key payload.length y ext hbytes hext hmask
  have hexecB := exec_decodeHeader_configured hB (headerBytes op fin rsv1 key payload.length ++ frameBody key payload)
  rw [← hrsv1, hdecode] at hexecB
  refine ⟨_, _, hexecB, rfl, ?_, ?_⟩
  · rw [hlength, List.length_append]
    omega
  · have hbody : unmask key
        ((headerBytes op fin rsv1 key payload.length ++ frameBody key payload).drop (headerLength y)) 0 = payload := by
      rw [hlength, List.drop_left, unmask_frameBody]
    have hsize : payload.length % 2 ^ 64 = payload.length := Nat.mod_eq_of_lt (by omega)
    refine ⟨Byte0.opcode_make .., Byte0.fin_make .., Byte0.rsv1_make .., hmask, rfl, ?_, hbody⟩
    rw [makeHeader, BitVec.toNat_ofNat, hsize]

/-! The decoder by arithmetic (R102 to R105). -/

/-- The key behind `e` bytes, where four bytes are there (R75). -/
theorem key_ofBytes_drop {more : Bytes} {e : Nat} (h : e + 4 ≤ more.length) :
    Key.ofBytes (more.drop e)
      = some ⟨more.getD e 0, more.getD (1 + e) 0, more.getD (2 + e) 0, more.getD (3 + e) 0⟩ := by
  have hget : ∀ i, more.getD (i + e) 0 = (more.drop e).getD i 0 := by
    intro i
    rw [List.getD_eq_getElem?_getD, List.getD_eq_getElem?_getD, List.getElem?_drop, Nat.add_comm]
  have hlength : 4 ≤ (more.drop e).length := by rw [List.length_drop]; omega
  rw [hget 1, hget 2, hget 3, show more.getD e 0 = (more.drop e).getD 0 0 by simp]
  match more.drop e, hlength with
  | _ :: _ :: _ :: _ :: _, _ => rfl

/-- The key a header carries, by index: `keyBytes` of them, behind the extended length. -/
theorem decodedKey_eq {x y : Byte} {more : Bytes} (h : extBytes (Byte1.len7 y) + keyBytes y ≤ more.length) :
    (if Byte1.mask y = true then Key.ofBytes (more.drop (extBytes (Byte1.len7 y))) else none)
      = if keyBytes y = 4 then
          some ⟨(x :: y :: more).getD (2 + extBytes (Byte1.len7 y)) 0,
            (x :: y :: more).getD (3 + extBytes (Byte1.len7 y)) 0,
            (x :: y :: more).getD (4 + extBytes (Byte1.len7 y)) 0,
            (x :: y :: more).getD (5 + extBytes (Byte1.len7 y)) 0⟩
        else none := by
  cases hmask : Byte1.mask y
  · simp [keyBytes, hmask]
  · have hkey : keyBytes y = 4 := by simp [keyBytes, hmask]
    have hget : ∀ i j, j = i + 2 → (x :: y :: more).getD j 0 = more.getD i 0 := by
      rintro i j rfl
      rfl
    rw [if_pos rfl, if_pos hkey, key_ofBytes_drop (hkey ▸ h), hget (extBytes (Byte1.len7 y)) _ (by omega),
      hget (1 + extBytes (Byte1.len7 y)) _ (by omega), hget (2 + extBytes (Byte1.len7 y)) _ (by omega),
      hget (3 + extBytes (Byte1.len7 y)) _ (by omega)]

/-- Behind byte 1, where the checks of bytes 0 and 1 pass. -/
theorem decodeAfterByte1_eq {c : Config} {x y : Byte} (more : Bytes) (h0 : Spec.check0 c.rsv1Allowed x = none)
    (h1 : Spec.check1 c.role x y = none) :
    decodeAfterByte1 c.strictMinlen x y more = Spec.decodeHeader c (x :: y :: more) := by
  have hlen : (x :: y :: more).length = 2 + more.length := by
    simp only [List.length_cons]
    omega
  simp only [decodeAfterByte1, Spec.decodeHeader, List.getD_cons_zero, List.getD_cons_succ, h0, h1, extOf_eq,
    ← keyBytes_eq, lenCheck_eq, hlen, headerLength, Nat.add_assoc, Nat.add_lt_add_iff_left]
  rw [if_neg (show ¬ 2 + more.length < 1 by omega), if_neg (show ¬ 2 + more.length < 2 by omega)]
  by_cases hext : more.length < extBytes (Byte1.len7 y)
  · rw [if_pos hext, if_pos hext]
  rw [if_neg hext, if_neg hext, assembledLength_eq x y more (Nat.le_of_not_lt hext)]
  cases (if 0 < extBytes (Byte1.len7 y) then
      Spec.checkLen c.strictMinlen (extBytes (Byte1.len7 y))
        (Spec.lengthAt (x :: y :: more) (extBytes (Byte1.len7 y))) else none) with
  | some r => rfl
  | none =>
    dsimp only
    by_cases hkey : more.length < extBytes (Byte1.len7 y) + keyBytes y
    · rw [if_pos hkey, if_pos hkey]
    · rw [if_neg hkey, if_neg hkey, makeHeader_eq, decodedKey_eq (x := x) (Nat.le_of_not_lt hkey),
        BitVec.toNat_ofNat, Nat.mod_eq_of_lt (lengthAt_lt _ _)]

theorem decodeHeaderWith_eq (c : Config) (buf : Bytes) :
    decodeHeaderWith c.role c.rsv1Allowed c.strictMinlen buf = Spec.decodeHeader c buf := by
  match buf with
  | [] => rfl
  | [x] =>
    simp only [decodeHeaderWith, hdrCheck0_eq]
    cases h0 : Spec.check0 c.rsv1Allowed x <;> simp [Spec.decodeHeader, h0]
  | x :: y :: more =>
    simp only [decodeHeaderWith, hdrCheck0_eq, hdrCheck1_eq]
    cases h0 : Spec.check0 c.rsv1Allowed x with
    | some r => simp [Spec.decodeHeader, h0]
    | none =>
      cases h1 : Spec.check1 c.role x y with
      | some r => simp [Spec.decodeHeader, h0, h1]
      | none => exact decodeAfterByte1_eq more h0 h1

/-- Settles O24: the decoder's own checks are those of the arithmetic (`decodeHeaderWith_eq`). -/
theorem decodeHeaderFollowsItsRule : Obligations.DecodeHeaderFollowsItsRule := by
  refine fun s buf => ⟨fun h => ?_, fun c hc => ?_⟩
  · rw [exec_decodeHeader, decodeHeaderResult_of_unconfigured h, State.answer_ok]
  · rw [exec_decodeHeader_configured hc, decodeHeaderWith_eq]

/-! Prefix stability (R116). -/

/-- Where DECODE_HEADER completes on one buffer, it completes on every one, and by the same function. -/
theorem decodeHeaderResult_eq_ok {b : Block} {buf : Bytes} {r : Result} (h : decodeHeaderResult b buf = .ok r) :
    (∀ buf', decodeHeaderResult b buf' = .ok (.cmdError .notConfigured))
      ∨ ∃ role allowed strict, ∀ buf',
          decodeHeaderResult b buf' = .ok (decodeHeaderWith role allowed strict buf') := by
  cases hvalid : b.cfgValid
  · exact Or.inl (decodeHeaderResult_of_unconfigured hvalid)
  · simp only [decodeHeaderResult, hvalid, Bool.not_true, Bool.false_eq_true, if_false, except_bind_eq_ok] at h
    obtain ⟨role, hrole, allowed, hallowed, strict, hstrict, -⟩ := h
    exact Or.inr ⟨role, allowed, strict, fun buf' => by simp [decodeHeaderResult, hvalid, hrole, hallowed, hstrict]⟩

section
variable {role : Role} {allowed strict : Bool} {buf : Bytes}

theorem decodeHeaderWith_append (more : Bytes)
    (h : decodeHeaderWith role allowed strict buf ≠ .needMoreData) :
    decodeHeaderWith role allowed strict (buf ++ more) = decodeHeaderWith role allowed strict buf := by
  match buf with
  | [] => exact absurd rfl h
  | [x] =>
    simp only [decodeHeaderWith, List.cons_append] at h ⊢
    cases h0 : hdrCheck0 allowed x with
    | some r => rfl
    | none => simp [h0] at h
  | x :: y :: rest =>
    simp only [decodeHeaderWith, List.cons_append] at h ⊢
    cases h0 : hdrCheck0 allowed x with
    | some r => rfl
    | none =>
      cases h1 : hdrCheck1 role x y with
      | some r => rfl
      | none => exact decodeAfterByte1_append more (by simpa [h0, h1] using h)

/-- A buffer that is too short ends before byte 1, or inside the header that byte 1 announces. -/
theorem length_lt_of_needMoreData (h : decodeHeaderWith role allowed strict buf = .needMoreData) :
    buf.length < 2 ∨ ∃ x y rest, buf = x :: y :: rest ∧ buf.length < headerLength y := by
  match buf with
  | [] | [_] => exact Or.inl (by simp)
  | x :: y :: rest =>
    refine Or.inr ⟨x, y, rest, rfl, ?_⟩
    simp only [decodeHeaderWith] at h
    split at h
    · cases h
    · split at h
      · cases h
      · have := decodeAfterByte1_need h
        simp only [List.length_cons, headerLength]
        omega

/-- A header that is decoded has the length its byte 1 announces (R72). -/
theorem headerLength_of_decoded {h : Header} {n : Nat}
    (hh : decodeHeaderWith role allowed strict buf = .header h n) :
    ∃ x y rest, buf = x :: y :: rest ∧ h.headerLength = headerLength y := by
  match buf with
  | [] => cases hh
  | [x] =>
    simp only [decodeHeaderWith] at hh
    split at hh <;> cases hh
  | x :: y :: rest =>
    refine ⟨x, y, rest, rfl, ?_⟩
    simp only [decodeHeaderWith] at hh
    split at hh
    · cases hh
    · split at hh
      · cases hh
      · exact (decodeAfterByte1_header hh).1

/-- Too short for a header is shorter than the header of every extension. -/
theorem length_lt_headerLength {more : Bytes} {h : Header} {n : Nat}
    (hneed : decodeHeaderWith role allowed strict buf = .needMoreData)
    (hh : decodeHeaderWith role allowed strict (buf ++ more) = .header h n) : buf.length < h.headerLength := by
  obtain ⟨x, y, rest, hbuf, hlength⟩ := headerLength_of_decoded hh
  rw [hlength]
  rcases length_lt_of_needMoreData hneed with hshort | ⟨x', y', rest', rfl, hlt⟩
  · simp only [headerLength]
    omega
  · obtain ⟨-, rfl, -⟩ : x' = x ∧ y' = y ∧ _ := by simpa using hbuf
    exact hlt

end

theorem headerLength_le (y : Byte) : headerLength y ≤ 14 := by
  have := extBytes_le (Byte1.len7 y)
  have := keyBytes_le y
  simp only [headerLength]
  omega

/-- Settles O25: the decoder looks at no byte behind those its answer rests on (`decodeHeaderWith_append`), and it
asks for more data only inside the header. -/
theorem decodeHeaderIsPrefixStable : Obligations.DecodeHeaderIsPrefixStable := by
  intro s t buf hexec
  obtain ⟨r, hr, rfl⟩ := State.answer_eq_next.mp hexec
  obtain hrefused | ⟨role, allowed, strict, hdecode⟩ := decodeHeaderResult_eq_ok hr
  · obtain rfl : r = .cmdError .notConfigured := Except.ok.inj (hr.symm.trans (hrefused buf))
    simp
  · obtain rfl : r = decodeHeaderWith role allowed strict buf := Except.ok.inj (hr.symm.trans (hdecode buf))
    have hstays : ∀ more, decodeHeaderWith role allowed strict buf ≠ .needMoreData →
        exec (.decodeHeader (buf ++ more)) s
          = .next { s with result := some (decodeHeaderWith role allowed strict buf) } := by
      intro more h
      rw [exec_decodeHeader, hdecode, State.answer_ok, decodeHeaderWith_append more h]
    simp only [Option.some.injEq]
    refine ⟨fun more h n hh => hstays more (by simp [hh]), fun more r i hh => hstays more (by simp [hh]),
      fun hneed => ⟨?_, fun more t' h n hexec' hh => ?_⟩⟩
    · rcases length_lt_of_needMoreData hneed with hshort | ⟨x, y, rest, -, hlt⟩
      · omega
      · exact lt_of_lt_of_le hlt (headerLength_le y)
    · rw [exec_decodeHeader, hdecode, State.answer_ok] at hexec'
      cases hexec'
      exact length_lt_headerLength hneed (by simpa using hh)

end Sys2Proof.Machine
end

section
/-!
SUPPORT. The receiver where a header byte decides a check: the bytes of an extended length, byte 0 with a reserved
opcode, and the header-format rows with a check failing; with the proofs of the statements about them
(spec/40_frame_codec.md R103 to R105, R109, R113; spec/42_receiver.md R174 to R178; spec/60_exceptions.md R244, R246).
-/
namespace Sys2Proof.Machine

/-! The extended length (R176, R177). -/

/-- One more byte makes a length of `k` bytes one of `k + 1` bytes. -/
theorem accumulated_lt {n k : Nat} (h : n < 2 ^ (8 * k)) (z : Byte) : n * 256 + z.toNat < 2 ^ (8 * (k + 1)) := by
  have hz := z.isLt
  have hpow : 2 ^ (8 * (k + 1)) = 2 ^ (8 * k) * 2 ^ 8 := by rw [Nat.mul_succ, pow_add]
  omega

/-- Settles O29: the receiver's answer is that of `extLen_step`, and no bit of the length is lost
(`accumulated_lt`). -/
theorem extendedLengthAccumulatesBigEndian : Obligations.ExtendedLengthAccumulatesBigEndian := by
  intro s c e x y z l hc hstate hcnt h0 h1 hl hlt
  have hnot_failed : s.block.rxState ≠ .failed := by rcases hstate with h | h <;> simp [h.1]
  have hstep := extLen_step (z := z) hc hstate hcnt h0 h1 hl (by rwa [pow_mul] at hlt)
  refine ⟨accumulated_lt hlt z, ?_⟩
  rw [exec_feedByte_eq hc.1 hnot_failed hstep]
  · -- `lengthDone` is the statement's case distinction, with the model's `fail`
    simp only [failed_eq]
    rfl
  · split
    · exact lengthDone_offset ..
    · rfl

/-! Reserved opcodes (R109, R113). -/

/-- HdrCheck0 (R103) of a byte 0 with a reserved opcode: only RSV2 and RSV3 come before the opcode. -/
theorem check0_byte0Of_reserved {op : Nat} (hlt : op < 16) (h : op ∉ Spec.frameTypes)
    (allowed fin rsv1 rsv2 rsv3 : Bool) :
    Spec.check0 allowed (Spec.byte0Of op fin rsv1 rsv2 rsv3)
      = some (if rsv2 = true ∨ rsv3 = true then .rsv23Set else .badOpcode) := by
  obtain ⟨-, -, h5, h4⟩ := bitOf_byte0Of hlt fin rsv1 rsv2 rsv3
  rw [Spec.check0, h5, h4, opcodeOf_byte0Of hlt, if_pos h, apply_ite some]

theorem encodeCheck_reserved (c : Config) {op : Nat} (h : op ∉ Spec.frameTypes) (fin rsv1 : Bool) (key : Option Key)
    (n : Nat) : Spec.encodeCheck c op fin rsv1 key n = some .badOpcode :=
  if_pos h

theorem decodeHeader_of_check0 {c : Config} {x : Byte} {r : Reason} (h : Spec.check0 c.rsv1Allowed x = some r)
    (more : Bytes) : Spec.decodeHeader c (x :: more) = .protocolError r 0 := by
  simp [Spec.decodeHeader, h]

/-- Settles O34: the first check that applies to a reserved opcode, at the encoder, the decoder and the receiver. -/
theorem reservedOpcodesAreBadOpcodes : Obligations.ReservedOpcodesAreBadOpcodes := by
  intro s c i op fin rsv1 rsv2 rsv3 key n payload more hc hrow hreserved byte reason
  have hcheck : Spec.check0 c.rsv1Allowed byte = some reason :=
    check0_byte0Of_reserved op.isLt hreserved c.rsv1Allowed fin rsv1 rsv2 rsv3
  have hkind : reason.kind = .protocolError := by
    simp only [reason]
    split <;> rfl
  refine ⟨?_, ?_, ?_, fun hb => ?_⟩
  · rw [exec_encodeHeader_configured hc, Spec.encodeHeader, encodeCheck_reserved c hreserved]
  · rw [exec_encodeFrame, encodeFrameResult_of_invalid hc (encodeCheck_reserved c hreserved ..), State.answer_ok]
  · rw [exec_decodeHeader_configured hc, decodeHeaderWith_eq, decodeHeader_of_check0 hcheck]
  · have hfails := exec_feedByte_boundary_fails (x := byte) (r := reason) hc hb (by rw [hcheck]; rfl)
    rw [failed_eq] at hfails
    refine ⟨_, errorRecord reason s.block.rxOffset, (exec_frameRow hrow s).trans hfails, rfl, ?_, ?_⟩
    · rw [errorRecord, hkind]
      rfl
    · simp [Spec.byteTaken, fail, ofNat_succ]

/-! Header-format rows with a check failing (R104, R105, R175, R246). -/

/-- Byte 1 at the receiver, where HdrCheck1 fails: the bytes behind it are not looked at. -/
theorem feed_byte1_fail {c : Config} {x y : Byte} {r : Reason} {b : Block} (hc : b.ConfiguredAs c)
    (hb : Spec.AwaitsByte1 b x) (h1 : Spec.check1 c.role x y = some r) (rest : Bytes) :
    feedLoop (y :: rest) b = .ok ({ (fail r { b with rxB1 := some y }).1 with rxOffset := b.rxOffset + 1 }, 1,
      [.error (errorRecord r b.rxOffset)]) := by
  obtain ⟨hstate, hcnt, h0⟩ := hb
  have hr : receiveByte y b = .ok (fail r { b with rxB1 := some y }) := by
    rw [receiveByte_byte1 y hstate hcnt, byte1_eq hc h0, hdrCheck1_eq, h1]
  exact (feedLoop_cons (feedByteStep_eq hr)).trans (if_pos rfl)

/-- Settles O36: `feed_byte1_fail` at byte 1 and `feed_length` at the byte that completes the length; behind the byte
that fails, the loop stops (`feedLoop_append`). -/
theorem headerFormatRowsFailAtTheDecidingByte : Obligations.HeaderFormatRowsFailAtTheDecidingByte := by
  intro s c i x y n key hc hawaits hw hrow
  obtain ⟨ext, hext, -, hvalue, hshort, -, hexec⟩ := exec_headerRow hrow hw
  have hnot_failed : s.block.rxState ≠ .failed := by simp [hawaits.1]
  dsimp only
  rw [hexec, extOf_eq]
  refine ⟨fun r h1 => ?_, fun h1 r hr => ?_⟩
  · have hloop := feed_byte1_fail hc hawaits h1 (ext ++ keyField key)
    exact ⟨_, _, exec_feed_of_loop hc.1 hnot_failed hloop, rfl, rfl, rfl, rfl, by simp, rfl⟩
  · obtain ⟨b', ev, hloop, hfails, -⟩ := feed_length hc hawaits hext hvalue hshort h1
    obtain ⟨hfailed, rfl, herr, hoffset⟩ := hfails r hr
    obtain ⟨-, -, hwhole, -⟩ := (feedLoop_append (c := keyField key) hnot_failed hloop).1 hfailed
    rw [hext] at hwhole hoffset herr
    exact ⟨_, _, exec_feed_of_loop hc.1 hnot_failed hwhole, rfl, hfailed, herr, rfl, by simp, hoffset⟩

end Sys2Proof.Machine
end

section
/-!
SUPPORT. The payload masker: APPLY_MASK by index, masking twice, in pieces, with degenerate keys and by words; with the
proofs of the statements about it (spec/41_masking.md R150 to R153, R156).
-/
namespace Sys2Proof.Machine

theorem exec_applyMask (data : Bytes) (key : Key) (phase : BitVec 2) (s : State) :
    exec (.applyMask data key phase) s = .next { s with result := some (.bytes (mask data key phase.toNat)) } := rfl

/-- Settles O19: the answer is the model's mask, whose bytes by index are those of `mask_getElem?`. -/
theorem applyMaskXorsEachByte : Obligations.ApplyMaskXorsEachByte := by
  intro s data key phase
  refine ⟨_, exec_applyMask .., mask_length .., fun i hi => ?_⟩
  rw [List.getD_eq_getElem?_getD, List.getD_eq_getElem?_getD, mask_getElem?, keyAt_eq, List.getElem?_eq_getElem hi]
  rfl

/-- Settles O20: the two XORs with one key byte cancel (`mask_mask`). -/
theorem maskingTwiceRestores : Obligations.MaskingTwiceRestores := mask_mask

/-! The split law (R152). -/

theorem mask_append (a b : Bytes) (k : Key) (phase : Nat) :
    mask (a ++ b) k phase = mask a k phase ++ mask b k (phase + a.length) := by
  induction a generalizing phase with
  | nil => rfl
  | cons x a ih =>
    rw [List.cons_append, mask, mask, ih, List.cons_append, List.length_cons, Nat.add_right_comm, Nat.add_assoc]

/-- Settles O21: the second piece starts at the phase behind the first (`mask_append`), of which only the value modulo 4
matters (`mask_phase`). -/
theorem maskingInPiecesIsMaskingWhole : Obligations.MaskingInPiecesIsMaskingWhole := by
  intro a b key phase
  rw [mask_append, mask_phase (d := b) (Nat.mod_mod ..)]

/-! Keys of equal bytes, and the zero key on the wire (R153). -/

theorem byteAt_equal_bytes (x : Byte) (i : Nat) : Key.byteAt ⟨x, x, x, x⟩ i = x := by
  unfold Key.byteAt
  split <;> rfl

theorem mask_equal_bytes (data : Bytes) (x : Byte) (phase : Nat) :
    mask data ⟨x, x, x, x⟩ phase = data.map (· ^^^ x) := by
  apply List.ext_getElem?
  intro i
  rw [mask_getElem?, byteAt_equal_bytes, List.getElem?_map]

theorem mask_zero_key (data : Bytes) (phase : Nat) : mask data ⟨0, 0, 0, 0⟩ phase = data := by
  rw [mask_equal_bytes]
  exact (List.map_congr_left fun _ _ => BitVec.xor_zero).trans (List.map_id' data)

section
variable {b : Block} {op : BitVec 4} {fin rsv1 : Bool} {key : Option Key}

/-- Header bytes are answered only where the encoder's checks pass, whatever the registers are. -/
theorem encodeHeaderResult_eq_bytes {n : Nat} {h : Bytes}
    (hr : encodeHeaderResult b op fin rsv1 key n = .ok (.bytes h)) :
    h = headerBytes op fin rsv1 key n ∧ ∃ role allowed, encodeCheck role allowed op fin rsv1 key n = none := by
  cases hvalid : b.cfgValid with
  | false => simp [encodeHeaderResult_of_unconfigured hvalid] at hr
  | true =>
    simp only [encodeHeaderResult, hvalid, Bool.not_true, Bool.false_eq_true, if_false, except_bind_eq_ok] at hr
    obtain ⟨role, -, allowed, -, hr⟩ := hr
    cases hcheck : encodeCheck role allowed op fin rsv1 key n with
    | some r => simp [hcheck] at hr
    | none =>
      simp only [hcheck, Except.ok.injEq, Result.bytes.injEq] at hr
      exact ⟨hr.symm, role, allowed, hcheck⟩

/-- Frame bytes are a header that was answered, with the body behind it (R101). -/
theorem encodeFrameResult_eq_bytes {payload f : Bytes}
    (hf : encodeFrameResult b op fin rsv1 key payload = .ok (.bytes f)) :
    ∃ h, encodeHeaderResult b op fin rsv1 key payload.length = .ok (.bytes h) ∧ f = h ++ frameBody key payload := by
  obtain ⟨r, hr, -⟩ := except_bind_eq_ok.mp hf
  by_cases hbytes : ∃ h, r = .bytes h
  · obtain ⟨h, rfl⟩ := hbytes
    rw [encodeFrameResult_of_header hr] at hf
    simp only [Except.ok.injEq, Result.bytes.injEq] at hf
    exact ⟨h, hr, hf.symm⟩
  · have hno := not_exists.mp hbytes
    rw [encodeFrameResult_of_no_header hr hno] at hf
    exact absurd (Except.ok.inj hf) (hno f)

end

/-- Settles O22: a key of equal bytes has that byte at every index, and the header of a frame with a key does not look
at the key's bytes. -/
theorem degenerateKeysAreOrdinary : Obligations.DegenerateKeysAreOrdinary := by
  refine ⟨mask_zero_key, mask_equal_bytes, fun s t op fin rsv1 payload f hexec hresult => ?_⟩
  obtain ⟨h, hh, rfl⟩ := encodeFrameResult_eq_bytes (exec_encodeFrame_returns_bytes.mp ⟨t, hexec, hresult⟩)
  obtain ⟨rfl, role, allowed, hcheck⟩ := encodeHeaderResult_eq_bytes hh
  obtain ⟨y, ext, hfield, hmask, hext, -⟩ := lengthField_eq true payload.length (encodeCheck_none hcheck).2.2
  have hframe : headerBytes op fin rsv1 (some ⟨0, 0, 0, 0⟩) payload.length
      ++ frameBody (some ⟨0, 0, 0, 0⟩) payload
      = Byte0.make fin rsv1 false false op :: y :: ext ++ [0, 0, 0, 0] ++ payload := by
    simp only [headerBytes, Option.isSome_some, hfield, frameBody, mask_zero_key, keyField, Key.bytes,
      List.cons_append, List.append_assoc]
  rw [hframe]
  refine ⟨(bitOf_mask y).trans hmask, _, rfl, ?_⟩
  change _ = 2 + Spec.extOf (Spec.len7Of y)
  rw [extOf_eq, ← hext, List.length_cons, List.length_cons]
  omega

/-! Four bytes at a time (R156). -/

/-- The bytes of a word of four bytes, from the leading one on. -/
theorem bytes_of_word (a b c d : Byte) :
    (a ++ b ++ c ++ d).extractLsb' 24 8 = a ∧ (a ++ b ++ c ++ d).extractLsb' 16 8 = b
      ∧ (a ++ b ++ c ++ d).extractLsb' 8 8 = c ∧ (a ++ b ++ c ++ d).extractLsb' 0 8 = d := by
  refine ⟨?_, ?_, ?_, BitVec.extractLsb'_append_eq_right⟩
  · rw [BitVec.extractLsb'_append_eq_of_le (by decide), BitVec.extractLsb'_append_eq_of_le (by decide)]
    exact BitVec.extractLsb'_append_eq_left
  · rw [BitVec.extractLsb'_append_eq_of_le (by decide), BitVec.extractLsb'_append_eq_of_le (by decide)]
    exact BitVec.extractLsb'_append_eq_right
  · rw [BitVec.extractLsb'_append_eq_of_le (by decide)]
    exact BitVec.extractLsb'_append_eq_right

/-- A word meets the key as a word, and behind it the key starts over. -/
theorem maskByWords_eq_mask (k : Key) (data : Bytes) : Spec.maskByWords k data = mask data k 0 := by
  match data with
  | [] | [_] | [_, _] | [_, _, _] => rfl
  | a :: b :: c :: d :: rest =>
    obtain ⟨h0, h1, h2, h3⟩ := bytes_of_word (a ^^^ k.k0) (b ^^^ k.k1) (c ^^^ k.k2) (d ^^^ k.k3)
    have hrest : Spec.maskByWords k rest = mask rest k 4 :=
      (maskByWords_eq_mask k rest).trans (mask_phase rfl)
    simp only [Spec.maskByWords, BitVec.xor_append, h0, h1, h2, h3, hrest]
    rfl

/-- Settles O23: a masker that starts at a payload index 4q starts at phase 0 (`mask_phase`). -/
theorem wordWideMaskerGivesTheSameBytes : Obligations.WordWideMaskerGivesTheSameBytes := by
  intro data key q
  rw [maskByWords_eq_mask, mask_phase (Nat.mul_mod_right 4 q).symm]

end Sys2Proof.Machine
end

section
/-!
SUPPORT. FEED_BYTE in each place of a frame, as the exact next state; with the proofs of the statements about byte 0,
byte 1, the mask key, the payload and a whole frame (spec/42_receiver.md R172 to R183, R190).
-/
namespace Sys2Proof.Machine

/-- Settles O46: bytes were answered, so the encoder's checks passed, and the peer's receiver delivers the frame
(`exec_feed_encoded_frame`). -/
theorem encodedFrameComesOutOfTheReceiver : Obligations.EncodedFrameComesOutOfTheReceiver := by
  intro sA tA sB cA cB op fin rsv1 key payload f hA hB hrole hrsv1 hexec hf hb hopen hclosed hmax htotal
  obtain ⟨hadmitted, rfl⟩ := exec_encodeFrame_bytes hA hexec hf
  exact exec_feed_encoded_frame hB hrole hrsv1 hadmitted hb hopen hclosed hmax htotal

/-- Settles O27: a check of byte 0 fails or none does. -/
theorem byte0IsCheckedAtTheBoundary : Obligations.Byte0IsCheckedAtTheBoundary := by
  intro s c x hc hb
  cases h : (Spec.check0 c.rsv1Allowed x).or (Spec.checkSeq s.block.rxFragOpen x) with
  | some r => exact exec_feedByte_boundary_fails hc hb h
  | none => exact exec_feedByte_boundary_passes hc hb h

/-! Byte 1 (R174). -/

/-- What byte 1 does behind a byte 0 `x`: HdrCheck1, then the length it holds, or the start of an extended length. -/
def byte1Done (c : Config) (x y : Byte) (b : Block) : Block × List Event :=
  match Spec.check1 c.role x y with
  | some r => fail r { b with rxB1 := some y }
  | none =>
    let len := BitVec.ofNat 64 (Spec.len7Of y)
    if Spec.len7Of y ≤ 125 then
      match Spec.checkSize c.maxPayload x b.rxMsgTotal.toNat (Spec.len7Of y) with
      | some r => fail r { b with rxB1 := some y, rxLen := some len }
      | none => Spec.afterLength x y len { b with rxB1 := some y, rxLen := some len }
    else
      ({ b with
          rxB1 := some y
          rxState := if Spec.len7Of y = 126 then .readingExtendedLength16 else .readingExtendedLength64
          rxCnt := 0
          rxLen := some 0 }, [])

theorem byte1_step {c : Config} {x y : Byte} {b : Block} (hc : b.ConfiguredAs c) (hb : Spec.AwaitsByte1 b x) :
    receiveByte y b = .ok (byte1Done c x y b) := by
  obtain ⟨hstate, hcnt, h0⟩ := hb
  rw [receiveByte_byte1 y hstate hcnt, byte1_eq hc h0, hdrCheck1_eq, sizeCheck_eq, len7_ofNat, len7_toNat, byte1Done]
  cases Spec.check1 c.role x y with
  | some r => rfl
  | none =>
    simp only [← len7Of_eq]
    split
    · cases Spec.checkSize c.maxPayload x b.rxMsgTotal.toNat (Spec.len7Of y) with
      | some r => rfl
      | none => exact afterLength_eq h0 rfl rfl
    · rfl

theorem byte1Done_offset (c : Config) (x y : Byte) (b : Block) : (byte1Done c x y b).1.rxOffset = b.rxOffset := by
  unfold byte1Done
  split
  · rfl
  · dsimp only
    split
    · split
      · rfl
      · exact afterLength_offset ..
    · rfl

/-- Settles O28: the receiver's answer is that of `byte1_step`. -/
theorem byte1SelectsTheHeaderFormat : Obligations.Byte1SelectsTheHeaderFormat := by
  intro s c x y hc hawaits
  have hnot_failed : s.block.rxState ≠ .failed := by simp [hawaits.1]
  rw [exec_feedByte_eq hc.1 hnot_failed (byte1_step hc hawaits) (byte1Done_offset ..)]
  -- `byte1Done` is the statement's case distinction, with the model's `fail`
  simp only [failed_eq]
  rfl

/-! The mask key (R179). -/

section
variable {b : Block} {z : Byte}

/-- A byte of the mask key that is not the fourth. -/
theorem maskByte_step {keyRegs : KeyRegs} (hstate : b.rxState = .readingMask)
    (hwrite : b.rxKey.write b.rxCnt.toNat z = .ok keyRegs) (hmore : b.rxCnt + 1 ≠ 4) :
    receiveByte z b = .ok ({ b with rxKey := keyRegs, rxCnt := b.rxCnt + 1 }, []) := by
  rw [receiveByte_mask z hstate, maskByte_eq hwrite, if_neg hmore]

/-- The fourth byte of the mask key. -/
theorem maskByte_last_step {x y : Byte} {l : U64} {key : Key} (hstate : b.rxState = .readingMask)
    (h0 : b.rxB0 = some x) (h1 : b.rxB1 = some y) (hm : Byte1.mask y = true) (hl : b.rxLen = some l)
    (hcnt : b.rxCnt = 3) (hk0 : b.rxKey.k0 = some key.k0) (hk1 : b.rxKey.k1 = some key.k1)
    (hk2 : b.rxKey.k2 = some key.k2) (hz : z = key.k3) :
    receiveByte z b = .ok (Spec.enterPayload x y l (some key)
      { b with rxKey := ⟨some key.k0, some key.k1, some key.k2, some key.k3⟩, rxCnt := 4 }) := by
  have hwrite : b.rxKey.write b.rxCnt.toNat z = .ok ⟨some key.k0, some key.k1, some key.k2, some key.k3⟩ := by
    rw [hcnt, hz, ← hk0, ← hk1, ← hk2]
    rfl
  rw [receiveByte_mask z hstate, maskByte_eq hwrite, if_pos (by rw [hcnt]; rfl), hcnt]
  refine enterPayload_eq h0 h1 hl ?_
  rw [if_pos hm]
  exact ⟨rfl, rfl⟩

end

/-- Settles O30: the first three bytes are written to their places (`maskByte_step`), and the fourth makes the key whole
(`maskByte_last_step`). -/
theorem maskKeyIsCollectedInWireOrder : Obligations.MaskKeyIsCollectedInWireOrder := by
  intro s x y z l hv hstate h0 h1 hmask hl
  have hnot_failed : s.block.rxState ≠ .failed := by simp [hstate]
  have hwrites : ∀ (n : U64) (keyRegs : KeyRegs), s.block.rxKey.write n.toNat z = .ok keyRegs → n + 1 ≠ 4 →
      s.block.rxCnt = n → exec (.feedByte z) s
        = .next (Spec.byteTaken s ({ s.block with rxKey := keyRegs, rxCnt := n + 1 }, [])) := by
    rintro n keyRegs hwrite hmore rfl
    exact exec_feedByte_eq hv hnot_failed (maskByte_step hstate hwrite hmore) rfl
  refine ⟨hwrites 0 _ rfl (by decide), hwrites 1 _ rfl (by decide), hwrites 2 _ rfl (by decide),
    fun a b d hcnt hk0 hk1 hk2 => ?_⟩
  exact exec_feedByte_eq hv hnot_failed
    (maskByte_last_step (key := ⟨a, b, d, z⟩) hstate h0 h1 (by rwa [← bitOf_mask]) hl hcnt hk0 hk1 hk2 rfl)
    (enterPayload_offset ..)

/-! The payload (R181 to R183). -/

/-- One payload byte behind `i` others, demasked. -/
theorem unmask_singleton (key : Option Key) (z : Byte) (i : Nat) :
    unmask key [z] i = [match key with | none => z | some k => z ^^^ Spec.keyAt k i] := by
  cases key with
  | none => rfl
  | some k => exact congrArg (fun keyByte => [z ^^^ keyByte]) (keyAt_eq k i).symm

/-- Settles O31: the receiver's answer is that of `payload_step`. -/
theorem payloadIsDemaskedAndDispatched : Obligations.PayloadIsDemaskedAndDispatched := by
  intro s x y z l key hv hstate h0 h1 hl hlt hkey
  have hstep := payload_step (z := z) hstate h0 h1 hl hlt hkey
  rw [unmask_singleton] at hstep
  refine exec_feedByte_eq hv (by simp [hstate]) hstep ?_
  split <;> rfl

end Sys2Proof.Machine
end

section
/-!
SUPPORT. FEED and FEED_BYTE as commands: their refusals, FEED byte by byte and in chunks, and what a failing byte leaves;
with the proofs of the statements about them (spec/42_receiver.md R184 to R188, spec/60_exceptions.md R242 to R247).
-/
namespace Sys2Proof.Machine

/-! Refusals (R185, R192). -/

section
variable {s : State}

theorem exec_feed_of_unconfigured (hv : s.block.cfgValid = false) (data : Bytes) :
    exec (.feed data) s = .next { s with result := some (.cmdError .notConfigured) } := by
  simp [exec, execFeed, feedCommand, hv]

theorem exec_feed_of_failed (hv : s.block.cfgValid = true) (hs : s.block.rxState = .failed) (data : Bytes) :
    exec (.feed data) s = .next { s with result := some (.cmdError .rxFailed) } := by
  simp [exec, execFeed, feedCommand, hv, hs]

theorem exec_feedByte_of_failed (hv : s.block.cfgValid = true) (hs : s.block.rxState = .failed) (x : Byte) :
    exec (.feedByte x) s = .next { s with result := some (.cmdError .rxFailed) } := by
  simp [exec, execFeedByte, feedByteCommand, hv, hs]

end

/-- No instruction but RESET has an effect on the registers of a failed receiver. -/
theorem Effect.eq_of_failed {i : Instr} {b b' : Block} {r : Result} (h : Effect i b b' r) (hi : i ≠ .reset)
    (hv : b.cfgValid = true) (hs : b.rxState = .failed) : b' = b := by
  cases h with
  | unchanged _ h => exact h
  | reset hreset _ => exact absurd hreset hi
  | configured _ _ hunconfigured _ => simp [hv] at hunconfigured
  | fed _ _ _ _ _ hnot_failed _ => exact absurd hs hnot_failed

/-- Settles O39: the two refusals, and the effects an instruction can have on a failed receiver
(`Effect.eq_of_failed`). -/
theorem failedReceiverRefusesUntilReset : Obligations.FailedReceiverRefusesUntilReset := by
  intro s hv hs
  refine ⟨fun x data => ⟨exec_feedByte_of_failed hv hs x, exec_feed_of_failed hv hs data⟩, fun i t hi h => ?_,
    _, rfl, rfl, rfl⟩
  obtain ⟨-, r, -, heffect⟩ := exec_effect h
  exact heffect.eq_of_failed hi hv hs

/-- Settles O38: the refusals, and the loop of FEED on one byte and more (`feedLoop_cons`). -/
theorem feedIsByteByByte : Obligations.FeedIsByteByByte := by
  refine fun s => ⟨exec_feed_of_unconfigured, exec_feed_of_failed, fun hv hs => ⟨exec_feed_of_loop hv hs rfl, ?_⟩⟩
  intro x data s₁ events hbyte hresult
  obtain ⟨-, -, -, b, hstep, rfl⟩ := exec_feedByte_eq_fed hbyte hresult
  have hloop := feedLoop_cons (data := data) hstep
  refine ⟨fun hfailed => ?_, fun hgoes s₂ n more hrest hresult₂ => ?_⟩
  · rw [if_pos hfailed] at hloop
    exact exec_feed_of_loop hv hs hloop
  · obtain ⟨-, -, b₂, hloop₂, rfl⟩ := exec_feed_eq_fed hrest hresult₂
    rw [if_neg hgoes, hloop₂] at hloop
    exact exec_feed_of_loop hv hs hloop

/-! One byte's error (R186, R246). -/

section
variable {c : Config} {b b' : Block} {ev : List Event}

/-- A byte that emits `Error` failed a check: going on emits nothing and a frame's end emits `FrameOut`. -/
theorem ByteOutcome.fails_of_error {e : ErrorRecord} (ho : ByteOutcome c b b' ev) (he : .error e ∈ ev) :
    Fails b b' ev := by
  obtain ⟨-, -, -, hgoes | hfails | hdispatches⟩ := ho
  · simp [hgoes.1] at he
  · exact hfails
  · obtain ⟨x, y, l, key, payload, rfl, -⟩ := hdispatches
    simp at he

theorem ByteOutcome.fails_of_failed (ho : ByteOutcome c b b' ev) (hs : b'.rxState = .failed) : Fails b b' ev := by
  obtain ⟨-, -, -, ⟨-, hgoes, -⟩ | hfails | hdispatches⟩ := ho
  · exact absurd hs hgoes
  · exact hfails
  · obtain ⟨x, y, l, key, payload, -, -, -, -, hstate, -⟩ := hdispatches
    simp [hs] at hstate

/-- A byte that does not make the receiver fail leaves no record and emits no `Error`. -/
theorem ByteOutcome.no_error (ho : ByteOutcome c b b' ev) (hs : b'.rxState ≠ .failed) :
    b'.rxErr = none ∧ ∀ e, .error e ∉ ev := by
  refine ⟨?_, fun e he => ?_⟩
  · obtain ⟨-, ⟨-, ⟨herr, -⟩, -⟩, -, -⟩ := ho
    exact herr.mpr hs
  · obtain ⟨r, -, -, hfailed, -⟩ := ho.fails_of_error he
    exact hs hfailed

/-- The one `Error` of a failing byte carries the byte's own offset. -/
theorem Fails.error_offset {e : ErrorRecord} (h : Fails b b' ev) (he : .error e ∈ ev) : e.offset = b.rxOffset := by
  obtain ⟨r, -, rfl, -⟩ := h
  obtain rfl : e = errorRecord r b.rxOffset := by simpa using he
  rfl

end

/-- Settles O40: `feedByteStep_outcome` advances the offset, and an `Error` is a failing byte's. -/
theorem offsetCountsEveryTakenByte : Obligations.OffsetCountsEveryTakenByte := by
  intro s x hinv hv hs
  obtain ⟨c, hc, hi⟩ := inv_configured hinv hv
  obtain ⟨b', ev, -, houtcome, hstep⟩ := feedByteStep_outcome (x := x) hc hi hs
  exact ⟨_, ev, exec_feedByte_of_step hv hs hstep, rfl, BitVec.toNat_add ..,
    fun e he => (houtcome.fails_of_error he).error_offset he⟩

/-- Settles O41: the outcome of a byte that fails (`ByteOutcome.fails_of_failed`) and of one that does not
(`ByteOutcome.no_error`); no byte writes a configuration register. -/
theorem failureIsRecorded : Obligations.FailureIsRecorded := by
  intro s x hinv hv hs
  obtain ⟨c, hc, hi⟩ := inv_configured hinv hv
  obtain ⟨b', ev, hreceive, houtcome, hstep⟩ := feedByteStep_outcome (x := x) hc hi hs
  refine ⟨_, ev, exec_feedByte_of_step hv hs hstep, rfl, fun hfailed => ?_, houtcome.no_error⟩
  obtain ⟨r, hr, hev, -, herr, hopen, htotal⟩ := houtcome.fails_of_failed hfailed
  obtain ⟨hcode, htooLarge, hprotocol⟩ := reason_facts hr
  have hconfig : b'.SameConfig s.block := receiveByte_sameConfig hreceive
  exact ⟨_, hev, herr, hcode, rfl, htooLarge, hprotocol, hconfig, hopen, htotal⟩

/-! Chunks (R187, R188, R246). -/

/-- Settles O42: `feedLoop_outcome` says what a chunk leaves, `feedLoop_append` that a failing one is not read past the
failing byte. -/
theorem failureIsPreciseInAChunk : Obligations.FailureIsPreciseInAChunk := by
  intro s data hinv hv hs
  obtain ⟨c, hc, hi⟩ := inv_configured hinv hv
  obtain ⟨b', n, ev, hloop, -, -, hoffset, hno_error, hfails⟩ := feedLoop_outcome (data := data) hc hi hs
  obtain ⟨hstops, hgoes⟩ := feedLoop_append (c := []) hs hloop
  refine ⟨_, n, ev, exec_feed_of_loop hv hs hloop, rfl, hoffset,
    fun hnot_failed => ⟨(hgoes hnot_failed).1, hno_error hnot_failed⟩, fun hfailed => ?_⟩
  obtain ⟨hpos, hle, -, hprefix⟩ := hstops hfailed
  exact ⟨hpos, hle, exec_feed_of_loop hv hs hprefix, hfails hfailed⟩

/-- Settles O44: a chunk in two pieces is what `feedLoop_append` says; FEED of the second piece was answered `Fed`, so
the first had not made the receiver fail. -/
theorem feedDoesNotDependOnChunking : Obligations.FeedDoesNotDependOnChunking := by
  intro s t₁ a b n e₁ hv hs hfirst hresult
  obtain ⟨-, -, b₁, hloop, rfl⟩ := exec_feed_eq_fed hfirst hresult
  obtain ⟨hstops, hgoes⟩ := feedLoop_append (c := b) hs hloop
  refine ⟨fun hn t₂ n₂ e₂ hsecond hresult₂ => ?_, fun hn => ?_⟩
  · obtain ⟨-, hnot_failed, b₂, hloop₂, rfl⟩ := exec_feed_eq_fed hsecond hresult₂
    obtain ⟨-, hwhole⟩ := hgoes hnot_failed
    rw [hloop₂, hn] at hwhole
    exact exec_feed_of_loop hv hs hwhole
  · have hfailed : b₁.rxState = .failed := by
      by_contra hnot_failed
      exact absurd (hgoes hnot_failed).1 (by omega)
    obtain ⟨-, -, hwhole, -⟩ := hstops hfailed
    exact ⟨hfailed, exec_feed_of_loop hv hs hwhole⟩

end Sys2Proof.Machine
end

section
/-!
SUPPORT. The transition table of R170: in each receiver state, when a check fails and what the byte does; with the proof
of the statement about the table (spec/42_receiver.md R170 to R181).
-/
namespace Sys2Proof.Machine

/-! When a check fails (R244). -/

section
variable {c : Config} {x y z : Byte} {b : Block}

theorem checkFails_byte0 (hb : Spec.AtBoundary b) :
    Spec.CheckFails c x b ↔ (Spec.check0 c.rsv1Allowed x).or (Spec.checkSeq b.rxFragOpen x) ≠ none := by
  obtain ⟨hstate, hcnt⟩ := hb
  rw [or_ne_none]
  simp [Spec.CheckFails, hstate, hcnt]

theorem checkFails_byte1 (hb : Spec.AwaitsByte1 b x) :
    Spec.CheckFails c y b ↔ Spec.check1 c.role x y ≠ none
      ∨ (Spec.len7Of y ≤ 125 ∧ Spec.checkSize c.maxPayload x b.rxMsgTotal.toNat (Spec.len7Of y) ≠ none) := by
  obtain ⟨hstate, hcnt, h0⟩ := hb
  simp [Spec.CheckFails, hstate, hcnt, h0]

theorem checkFails_extLen {e : Nat} {l : U64}
    (hst : b.rxState = .readingExtendedLength16 ∧ e = 2 ∨ b.rxState = .readingExtendedLength64 ∧ e = 8)
    (h0 : b.rxB0 = some x) (hl : b.rxLen = some l) :
    Spec.CheckFails c z b ↔ b.rxCnt.toNat + 1 = e
      ∧ (Spec.checkLen c.strictMinlen e (l.toNat * 256 + z.toNat)).or
          (Spec.checkSize c.maxPayload x b.rxMsgTotal.toNat (l.toNat * 256 + z.toNat)) ≠ none := by
  rw [or_ne_none]
  rcases hst with ⟨hstate, rfl⟩ | ⟨hstate, rfl⟩ <;> simp [Spec.CheckFails, hstate, h0, hl]

theorem passingRow_extLen {e : Nat} {b' : Block}
    (hst : b.rxState = .readingExtendedLength16 ∧ e = 2 ∨ b.rxState = .readingExtendedLength64 ∧ e = 8) :
    Spec.PassingRow z b b' ↔ (b.rxCnt.toNat + 1 < e ∧ b'.rxState = b.rxState ∧ b'.rxCnt = b.rxCnt + 1)
      ∨ (b.rxCnt.toNat + 1 = e ∧ ∃ y l, b.rxB1 = some y ∧ b'.rxLen = some l ∧ Spec.AfterLengthRow y l b') := by
  rcases hst with ⟨hstate, rfl⟩ | ⟨hstate, rfl⟩ <;> simp only [Spec.PassingRow, hstate]

/-! What the byte does in each state. -/

theorem byte0_transition (hc : b.ConfiguredAs c) (hb : Spec.AtBoundary b) :
    ∃ p, receiveByte x b = .ok p ∧ Spec.TransitionRow c x b p.1 := by
  refine ⟨_, (receiveByte_byte0 x hb.1 hb.2).trans (byte0_eq hc), ?_⟩
  rw [hdrCheck0_eq, seqCheck_eq, Spec.TransitionRow, checkFails_byte0 hb]
  cases (Spec.check0 c.rsv1Allowed x).or (Spec.checkSeq b.rxFragOpen x) with
  | some r => exact Or.inl ⟨by simp, rfl⟩
  | none =>
    refine Or.inr ⟨by simp, ?_⟩
    simp [Spec.PassingRow, hb.1, hb.2]

theorem byte1_transition (hc : b.ConfiguredAs c) (hb : Spec.AwaitsByte1 b x) :
    ∃ p, receiveByte y b = .ok p ∧ Spec.TransitionRow c y b p.1 := by
  refine ⟨_, byte1_step hc hb, ?_⟩
  obtain ⟨hstate, hcnt, -⟩ := id hb
  have hlt : Spec.len7Of y < 128 := Nat.mod_lt _ (by omega)
  rw [byte1Done, Spec.TransitionRow, checkFails_byte1 hb]
  simp only [Spec.PassingRow, hstate, hcnt]
  cases Spec.check1 c.role x y with
  | some r => exact Or.inl ⟨by simp, rfl⟩
  | none =>
    by_cases hshort : Spec.len7Of y ≤ 125
    · simp only [if_pos hshort]
      cases Spec.checkSize c.maxPayload x b.rxMsgTotal.toNat (Spec.len7Of y) with
      | some r => exact Or.inl ⟨by simp [hshort], rfl⟩
      | none =>
        obtain ⟨hrow, hlen⟩ := afterLength_row x y (BitVec.ofNat 64 (Spec.len7Of y))
          { b with rxB1 := some y, rxLen := some (BitVec.ofNat 64 (Spec.len7Of y)) }
        exact Or.inr ⟨by simp, Or.inr (Or.inl ⟨trivial, hshort, _, hlen, len7_toNat y, hrow⟩)⟩
    · simp only [if_neg hshort]
      refine Or.inr ⟨by simp [hshort], Or.inr (Or.inr ?_)⟩
      by_cases h126 : Spec.len7Of y = 126
      · exact Or.inl ⟨trivial, h126, if_pos h126, trivial⟩
      · exact Or.inr ⟨trivial, by omega, if_neg h126, trivial⟩

theorem extLen_transition {e : Nat} (hc : b.ConfiguredAs c)
    (hst : b.rxState = .readingExtendedLength16 ∧ e = 2 ∨ b.rxState = .readingExtendedLength64 ∧ e = 8)
    (hpartial : b.LengthPartial c e) : ∃ p, receiveByte z b = .ok p ∧ Spec.TransitionRow c z b p.1 := by
  obtain ⟨x, y, l, ⟨h0, -⟩, ⟨h1, -⟩, -, hl, hcnt, hlt⟩ := hpartial
  refine ⟨_, extLen_step hc hst hcnt h0 h1 hl hlt, ?_⟩
  rw [Spec.TransitionRow, checkFails_extLen hst h0 hl, passingRow_extLen hst]
  by_cases hlast : b.rxCnt.toNat + 1 = e
  · rw [if_pos hlast, lengthDone]
    cases (Spec.checkLen c.strictMinlen e (l.toNat * 256 + z.toNat)).or
        (Spec.checkSize c.maxPayload x b.rxMsgTotal.toNat (l.toNat * 256 + z.toNat)) with
    | some r => exact Or.inl ⟨⟨hlast, by simp⟩, rfl⟩
    | none =>
      obtain ⟨hrow, hlen⟩ := afterLength_row x y (BitVec.ofNat 64 (l.toNat * 256 + z.toNat))
        { b with rxLen := some (BitVec.ofNat 64 (l.toNat * 256 + z.toNat)), rxCnt := b.rxCnt + 1 }
      exact Or.inr ⟨by simp, Or.inr ⟨hlast, y, _, h1, hlen, hrow⟩⟩
  · rw [if_neg hlast]
    exact Or.inr ⟨fun h => hlast h.1, Or.inl ⟨by omega, rfl, rfl⟩⟩

/-- A byte of the mask key decides no check (R179). -/
theorem maskByte_transition (hi : b.PhaseInv c) (hstate : b.rxState = .readingMask) :
    ∃ p, receiveByte z b = .ok p ∧ Spec.TransitionRow c z b p.1 := by
  simp only [Block.PhaseInv, hstate] at hi
  obtain ⟨-, x, y, l, ⟨h0, -⟩, ⟨h1, -⟩, ⟨hl, -⟩, hm, hcnt, hwritten⟩ := hi
  simp only [Spec.TransitionRow, Spec.CheckFails, Spec.PassingRow, hstate, false_and, false_or, not_false_eq_true,
    true_and]
  by_cases hlast : b.rxCnt.toNat + 1 = 4
  · have h3 : b.rxCnt = 3 := BitVec.eq_of_toNat_eq (by simp; omega)
    obtain ⟨k0, hk0⟩ := Option.isSome_iff_exists.mp (hwritten 0 (by omega))
    obtain ⟨k1, hk1⟩ := Option.isSome_iff_exists.mp (hwritten 1 (by omega))
    obtain ⟨k2, hk2⟩ := Option.isSome_iff_exists.mp (hwritten 2 (by omega))
    refine ⟨_, maskByte_last_step (key := ⟨k0, k1, k2, z⟩) hstate h0 h1 hm hl h3 hk0 hk1 hk2 rfl, Or.inr ?_⟩
    exact ⟨hlast, l, hl, (enterPayload_row ..).1⟩
  · obtain ⟨keyRegs, hwrite⟩ := KeyRegs.write_ok hcnt b.rxKey z
    have hmore : b.rxCnt + 1 ≠ 4 := by bv_omega
    exact ⟨_, maskByte_step hstate hwrite hmore, Or.inl ⟨by omega, hstate, rfl⟩⟩

/-- A payload byte decides no check (R181). -/
theorem payloadByte_transition (hi : b.PhaseInv c) (hstate : b.rxState = .readingPayload) :
    ∃ p, receiveByte z b = .ok p ∧ Spec.TransitionRow c z b p.1 := by
  simp only [Block.PhaseInv, hstate] at hi
  obtain ⟨x, y, l, ⟨h0, -⟩, ⟨h1, -⟩, ⟨hl, -⟩, hcnt, -, hkey⟩ := hi
  obtain ⟨key, hcase⟩ : ∃ key : Option Key, Spec.bitOf y 7 = false ∧ key = none ∨ Spec.bitOf y 7 = true
      ∧ ∃ k, key = some k ∧ b.rxKey = ⟨some k.k0, some k.k1, some k.k2, some k.k3⟩ := by
    rw [bitOf_mask]
    cases hm : Byte1.mask y with
    | false => exact ⟨none, Or.inl ⟨rfl, rfl⟩⟩
    | true =>
      obtain ⟨k, hk⟩ := hkey hm
      exact ⟨some k, Or.inr ⟨rfl, k, rfl, KeyRegs.whole_eq_some.mp hk⟩⟩
  refine ⟨_, payload_step hstate h0 h1 hl hcnt hcase, ?_⟩
  simp only [Spec.TransitionRow, Spec.CheckFails, Spec.PassingRow, hstate, false_and, false_or, not_false_eq_true,
    true_and]
  refine ⟨l, hl, ?_⟩
  by_cases hlast : b.rxCnt.toNat + 1 = l.toNat
  · rw [if_pos hlast]
    exact Or.inr ⟨hlast, rfl, rfl⟩
  · rw [if_neg hlast]
    exact Or.inl ⟨by omega, rfl, rfl⟩

/-- Every byte makes a transition of the table, by the receiver's state. -/
theorem receiveByte_transition (hc : b.ConfiguredAs c) (hi : b.PhaseInv c) (hs : b.rxState ≠ .failed) :
    ∃ p, receiveByte x b = .ok p ∧ Spec.TransitionRow c x b p.1 := by
  have hphase := hi
  cases hstate : b.rxState <;> simp only [Block.PhaseInv, hstate] at hphase
  case readingHeader =>
    obtain ⟨-, hcnt | ⟨hcnt, y, h0, -⟩⟩ := hphase
    · exact byte0_transition hc ⟨hstate, hcnt⟩
    · exact byte1_transition hc ⟨hstate, hcnt, h0⟩
  case readingExtendedLength16 => exact extLen_transition hc (Or.inl ⟨hstate, rfl⟩) hphase.2
  case readingExtendedLength64 => exact extLen_transition hc (Or.inr ⟨hstate, rfl⟩) hphase.2
  case readingMask => exact maskByte_transition hi hstate
  case readingPayload => exact payloadByte_transition hi hstate
  case failed => exact absurd hstate hs

end

/-- Settles O32: the table's rows by the receiver's state (`receiveByte_transition`), and FEED_BYTE's refusal in
`Failed`. -/
theorem everyByteMakesATableTransition : Obligations.EveryByteMakesATableTransition := by
  intro s c x hinv hc
  by_cases hs : s.block.rxState = .failed
  · exact ⟨_, exec_feedByte_of_failed hc.1 hs x, fun h => absurd hs h, fun _ => rfl⟩
  · obtain ⟨c', hc', hphase, -⟩ := inv_configured hinv hc.1
    obtain rfl := configuredAs_unique hc hc'
    obtain ⟨p, hreceive, hrow⟩ := receiveByte_transition (x := x) hc hphase hs
    -- the registers differ from `p.1` in `rx_offset` alone, which no row mentions
    exact ⟨_, exec_feedByte_of_step hc.1 hs (feedByteStep_eq hreceive), fun _ => hrow, fun h => absurd h hs⟩

end Sys2Proof.Machine
end

section
/-!
SUPPORT. DECODE_HEADER and the receiver on one buffer: where the decoder stops, and what the receiver does there; with
the proof of the statement that they agree (spec/40_frame_codec.md R102 to R105, spec/42_receiver.md R172 to R180, R189).
-/
namespace Sys2Proof.Machine

/-! Where the decoder stops. -/

/-- Byte 1 `y` and the length bytes `ext` behind it give the payload length `n` (R71 to R73). -/
structure LengthField (y : Byte) (ext : Bytes) (n : Nat) : Prop where
  size : ext.length = extBytes (Byte1.len7 y)
  extended : 0 < extBytes (Byte1.len7 y) → beNat ext = n
  short : extBytes (Byte1.len7 y) = 0 → (Byte1.len7 y).toNat = n

theorem LengthField.of_assembledLength {y : Byte} {ext : Bytes} (rest : Bytes)
    (h : ext.length = extBytes (Byte1.len7 y)) : LengthField y ext (assembledLength y (ext ++ rest)) where
  size := h
  extended hpos := by rw [assembledLength, if_neg (by omega), ← h, List.take_left]
  short hz := by rw [assembledLength, if_pos hz]

section
variable {y : Byte} {ext : Bytes} {n : Nat}

theorem LengthField.lengthAt_eq (h : LengthField y ext n) (x : Byte) (rest : Bytes) :
    Spec.lengthAt (x :: y :: (ext ++ rest)) (extBytes (Byte1.len7 y)) = n := by
  have hle : extBytes (Byte1.len7 y) ≤ (ext ++ rest).length := by rw [List.length_append, h.size]; omega
  rw [← assembledLength_eq x y _ hle, assembledLength]
  split
  · exact h.short ‹_›
  · rw [← h.size, List.take_left]
    exact h.extended (by omega)

theorem LengthField.toNat_ofNat (h : LengthField y ext n) : (BitVec.ofNat 64 n).toNat = n := by
  rw [BitVec.toNat_ofNat, Nat.mod_eq_of_lt]
  exact h.lengthAt_eq 0 [] ▸ lengthAt_lt _ _

/-- Where LenCheck passes, SizeCheck decides (R174, R176). -/
theorem lengthChecks_eq {c : Config}
    (hlen : 0 < extBytes (Byte1.len7 y) → Spec.checkLen c.strictMinlen (extBytes (Byte1.len7 y)) n = none)
    (q : Option Reason) :
    (if 0 < extBytes (Byte1.len7 y) then Spec.checkLen c.strictMinlen (extBytes (Byte1.len7 y)) n else none).or q
      = q := by
  split
  · rw [hlen ‹_›, Option.none_or]
  · exact Option.none_or

end

/-- The places where DECODE_HEADER stops, with its answer there (R102). -/
inductive DecoderStops (c : Config) : Bytes → Result → Prop
  | empty : DecoderStops c [] .needMoreData
  | byte0Fails {x : Byte} {r : Reason} (rest : Bytes) (h0 : Spec.check0 c.rsv1Allowed x = some r) :
      DecoderStops c (x :: rest) (.protocolError r 0)
  | afterByte0 {x : Byte} (h0 : Spec.check0 c.rsv1Allowed x = none) : DecoderStops c [x] .needMoreData
  | byte1Fails {x y : Byte} {r : Reason} (more : Bytes) (h0 : Spec.check0 c.rsv1Allowed x = none)
      (h1 : Spec.check1 c.role x y = some r) : DecoderStops c (x :: y :: more) (.protocolError r 1)
  | insideLength {x y : Byte} {part : Bytes} (h0 : Spec.check0 c.rsv1Allowed x = none)
      (h1 : Spec.check1 c.role x y = none) (hpart : part.length < extBytes (Byte1.len7 y)) :
      DecoderStops c (x :: y :: part) .needMoreData
  | lengthFails {x y : Byte} {ext : Bytes} {n : Nat} {r : Reason} (rest : Bytes)
      (h0 : Spec.check0 c.rsv1Allowed x = none) (h1 : Spec.check1 c.role x y = none) (hfield : LengthField y ext n)
      (hpos : 0 < extBytes (Byte1.len7 y))
      (hlen : Spec.checkLen c.strictMinlen (extBytes (Byte1.len7 y)) n = some r) :
      DecoderStops c (x :: y :: (ext ++ rest)) (.protocolError r (1 + extBytes (Byte1.len7 y)))
  | insideKey {x y : Byte} {ext part : Bytes} {n : Nat} (h0 : Spec.check0 c.rsv1Allowed x = none)
      (h1 : Spec.check1 c.role x y = none) (hfield : LengthField y ext n)
      (hlen : 0 < extBytes (Byte1.len7 y) → Spec.checkLen c.strictMinlen (extBytes (Byte1.len7 y)) n = none)
      (hmask : Byte1.mask y = true) (hpart : part.length < 4) :
      DecoderStops c (x :: y :: (ext ++ part)) .needMoreData
  | whole {x y : Byte} {ext : Bytes} {key : Option Key} {n : Nat} (rest : Bytes)
      (h0 : Spec.check0 c.rsv1Allowed x = none) (h1 : Spec.check1 c.role x y = none) (hfield : LengthField y ext n)
      (hlen : 0 < extBytes (Byte1.len7 y) → Spec.checkLen c.strictMinlen (extBytes (Byte1.len7 y)) n = none)
      (hmask : Byte1.mask y = key.isSome) :
      DecoderStops c (x :: y :: (ext ++ (keyField key ++ rest)))
        (.header (makeHeader x y (BitVec.ofNat 64 n) key) (2 + ext.length + 4 * key.isSome.toNat))

section
variable {c : Config} {x y : Byte}

theorem decoderStops_afterByte1 (more : Bytes) (h0 : Spec.check0 c.rsv1Allowed x = none)
    (h1 : Spec.check1 c.role x y = none) :
    DecoderStops c (x :: y :: more) (decodeAfterByte1 c.strictMinlen x y more) := by
  by_cases hext : more.length < extBytes (Byte1.len7 y)
  · rw [decodeAfterByte1, if_pos hext]
    exact .insideLength h0 h1 hext
  have hle : extBytes (Byte1.len7 y) ≤ more.length := Nat.le_of_not_lt hext
  obtain ⟨ext, rest, rfl, hsize⟩ : ∃ ext rest, more = ext ++ rest ∧ ext.length = extBytes (Byte1.len7 y) :=
    ⟨_, _, (List.take_append_drop (extBytes (Byte1.len7 y)) more).symm, List.length_take_of_le hle⟩
  have hfield := LengthField.of_assembledLength rest hsize
  cases hcheck : (if 0 < extBytes (Byte1.len7 y) then
      lenCheck c.strictMinlen (extBytes (Byte1.len7 y)) (assembledLength y (ext ++ rest)) else none) with
  | some r =>
    simp only [decodeAfterByte1, if_neg hext, hcheck]
    split at hcheck
    · exact .lengthFails rest h0 h1 hfield ‹_› hcheck
    · cases hcheck
  | none =>
    have hlen : 0 < extBytes (Byte1.len7 y) → Spec.checkLen c.strictMinlen (extBytes (Byte1.len7 y))
        (assembledLength y (ext ++ rest)) = none := fun hpos => by rwa [if_pos hpos] at hcheck
    by_cases hkey : (ext ++ rest).length < extBytes (Byte1.len7 y) + keyBytes y
    · simp only [decodeAfterByte1, if_neg hext, hcheck, if_pos hkey]
      rw [List.length_append, hsize, Nat.add_lt_add_iff_left, keyBytes] at hkey
      split at hkey
      · exact .insideKey h0 h1 hfield hlen ‹_› hkey
      · omega
    · obtain ⟨h, n, hheader⟩ : ∃ h n, decodeAfterByte1 c.strictMinlen x y (ext ++ rest) = .header h n := by
        simp only [decodeAfterByte1, if_neg hext, hcheck, if_neg hkey]
        exact ⟨_, _, rfl⟩
      obtain ⟨ext', key, rest', hmore, hsize', hmask, hextended, hshort, -, rfl, rfl⟩ := decodeAfterByte1_key hheader
      rw [hheader]
      generalize assembledLength y (ext ++ rest) = n at *
      rw [hmore]
      exact .whole rest' h0 h1 ⟨hsize', hextended, hshort⟩ hlen hmask

/-- DECODE_HEADER stops at the first of these places. -/
theorem decodeHeader_stops (c : Config) (buf : Bytes) : DecoderStops c buf (Spec.decodeHeader c buf) := by
  match buf with
  | [] => exact .empty
  | x :: rest =>
    cases h0 : Spec.check0 c.rsv1Allowed x with
    | some r =>
      rw [decodeHeader_of_check0 h0]
      exact .byte0Fails rest h0
    | none =>
      match rest with
      | [] =>
        have hneed : Spec.decodeHeader c [x] = .needMoreData := by simp [Spec.decodeHeader, h0]
        rw [hneed]
        exact .afterByte0 h0
      | y :: more =>
        cases h1 : Spec.check1 c.role x y with
        | some r =>
          have hfails : Spec.decodeHeader c (x :: y :: more) = .protocolError r 1 := by
            simp [Spec.decodeHeader, h0, h1]
          rw [hfails]
          exact .byte1Fails more h0 h1
        | none =>
          rw [← decodeAfterByte1_eq more h0 h1]
          exact decoderStops_afterByte1 more h0 h1

end

/-! The receiver where a header byte fails. -/

/-- FEED of `data` ends behind its byte `i`, which makes the receiver fail with the reason `r`. -/
def FailsAt (b : Block) (data : Bytes) (r : Reason) (i : Nat) : Prop :=
  ∃ b', feedLoop data b = .ok (b', i + 1, [.error (errorRecord r (b.rxOffset + BitVec.ofNat 64 i))])
    ∧ b'.rxState = .failed

theorem failsAt_zero {b b' : Block} {data : Bytes} {r : Reason}
    (h : feedLoop data b = .ok (b', 1, [.error (errorRecord r b.rxOffset)])) (hfailed : b'.rxState = .failed) :
    FailsAt b data r 0 :=
  ⟨b', by rw [h, BitVec.add_zero], hfailed⟩

/-- The bytes behind the failing one are not looked at. -/
theorem FailsAt.append {b : Block} {data : Bytes} {r : Reason} {i : Nat} (h : FailsAt b data r i)
    (hs : b.rxState ≠ .failed) (rest : Bytes) : FailsAt b (data ++ rest) r i := by
  obtain ⟨b', hloop, hfailed⟩ := h
  obtain ⟨-, -, hwhole, -⟩ := (feedLoop_append (c := rest) hs hloop).1 hfailed
  exact ⟨b', hwhole, hfailed⟩

theorem FailsAt.exec {s : State} {data : Bytes} {r : Reason} {i : Nat} (h : FailsAt s.block data r i)
    (hv : s.block.cfgValid = true) (hs : s.block.rxState ≠ .failed) :
    ∃ t e, exec (.feed data) s = .next t ∧ t.result = some (.fed (i + 1) [.error e]) ∧ t.block.rxState = .failed
      ∧ e.reason = r ∧ e.offset = s.block.rxOffset + BitVec.ofNat 64 i := by
  obtain ⟨b', hloop, hfailed⟩ := h
  exact ⟨_, _, exec_feed_of_loop hv hs hloop, rfl, hfailed, rfl, rfl⟩

/-- The registers behind a byte 0 that passed its checks (R172). -/
def byte0Taken (x : Byte) (b : Block) : Block := { b with rxB0 := some x, rxCnt := 1, rxOffset := b.rxOffset + 1 }

theorem byte0Taken_awaits {b : Block} (hb : Spec.AtBoundary b) (x : Byte) :
    Spec.AwaitsByte1 (byte0Taken x b) x := ⟨hb.1, rfl, rfl⟩

theorem awaitsByte1_not_failed {b : Block} {x : Byte} (h : Spec.AwaitsByte1 b x) : b.rxState ≠ .failed := by
  simp [h.1]

section
variable {c : Config} {b : Block} {x y : Byte} {ext : Bytes} {n : Nat} (hc : b.ConfiguredAs c)
  (hb : Spec.AtBoundary b)
include hc hb

theorem failsAt_byte0 {r : Reason} (h : (Spec.check0 c.rsv1Allowed x).or (Spec.checkSeq b.rxFragOpen x) = some r)
    (rest : Bytes) : FailsAt b (x :: rest) r 0 :=
  (failsAt_zero (feed_byte0_fail hc hb h) rfl).append (boundary_not_failed hb) rest

variable (h0 : (Spec.check0 c.rsv1Allowed x).or (Spec.checkSeq b.rxFragOpen x) = none)
include h0

theorem feedLoop_behind_byte0 (rest : Bytes) : feedLoop (x :: rest) b
    = (feedLoop rest (byte0Taken x b)).map fun p => (p.1, 1 + p.2.1, p.2.2) := by
  obtain ⟨-, hgoes⟩ := feedLoop_append (c := rest) (boundary_not_failed hb) (feed_byte0 hc hb h0)
  exact (hgoes (awaitsByte1_not_failed (byte0Taken_awaits hb x))).2

theorem FailsAt.behind_byte0 {data : Bytes} {r : Reason} {i : Nat} (h : FailsAt (byte0Taken x b) data r i) :
    FailsAt b (x :: data) r (1 + i) := by
  obtain ⟨b', hloop, hfailed⟩ := h
  refine ⟨b', ?_, hfailed⟩
  rw [feedLoop_behind_byte0 hc hb h0, hloop, except_map_ok, ← offset_one, Nat.add_assoc]
  rfl

theorem failsAt_byte1 {r : Reason} (h1 : Spec.check1 c.role x y = some r) (more : Bytes) :
    FailsAt b (x :: y :: more) r 1 := by
  have hloop := feed_byte1_fail (b := byte0Taken x b) hc (byte0Taken_awaits hb x) h1 more
  exact (failsAt_zero hloop rfl).behind_byte0 hc hb h0

variable (h1 : Spec.check1 c.role x y = none) (hfield : LengthField y ext n)
include h1 hfield

/-- A length whose checks fail, at its last byte. -/
theorem failsAt_length {r : Reason}
    (h : ((if 0 < extBytes (Byte1.len7 y) then Spec.checkLen c.strictMinlen (extBytes (Byte1.len7 y)) n else none).or
      (Spec.checkSize c.maxPayload x b.rxMsgTotal.toNat n)) = some r) (rest : Bytes) :
    FailsAt b (x :: y :: (ext ++ rest)) r (1 + extBytes (Byte1.len7 y)) := by
  obtain ⟨b', ev, hloop, hfails, -⟩ := feed_length (b := byte0Taken x b) hc (byte0Taken_awaits hb x) hfield.size
    hfield.extended hfield.short h1
  obtain ⟨hfailed, rfl, -, -⟩ := hfails r h
  rw [hfield.size, Nat.add_comm 1] at hloop
  have hlength : FailsAt (byte0Taken x b) (y :: ext) r (extBytes (Byte1.len7 y)) := ⟨b', hloop, hfailed⟩
  exact (hlength.append (awaitsByte1_not_failed (byte0Taken_awaits hb x)) rest).behind_byte0 hc hb h0

end

/-! The receiver inside a header. -/

/-- The states in which a header is not complete. -/
def headerStates : List RxState := [.readingHeader, .readingExtendedLength16, .readingExtendedLength64, .readingMask]

section
variable {c : Config} {b : Block} {x y : Byte}

/-- Byte 1 where it starts an extended length (R174). -/
theorem byte1Done_extended (h1 : Spec.check1 c.role x y = none) (hpos : 0 < extBytes (Byte1.len7 y)) :
    byte1Done c x y b = ({ b with
      rxB1 := some y
      rxState := if Spec.len7Of y = 126 then .readingExtendedLength16 else .readingExtendedLength64
      rxCnt := 0
      rxLen := some 0 }, []) := by
  have hlong : ¬ Spec.len7Of y ≤ 125 := by
    rw [len7Of_eq]
    exact fun h => hpos.ne' (extBytes_eq_zero.mpr h)
  simp only [byte1Done, h1, if_neg hlong]

/-- The state an extended length is read in, by the size of the length (R174, R176, R177). -/
theorem extendedState_size (hpos : 0 < extBytes (Byte1.len7 y)) {st : RxState}
    (hst : (if Spec.len7Of y = 126 then .readingExtendedLength16 else .readingExtendedLength64) = st) :
    st = .readingExtendedLength16 ∧ extBytes (Byte1.len7 y) = 2
      ∨ st = .readingExtendedLength64 ∧ extBytes (Byte1.len7 y) = 8 := by
  rw [len7Of_eq] at hst
  by_cases h126 : (Byte1.len7 y).toNat = 126
  · rw [if_pos h126] at hst
    exact Or.inl ⟨hst.symm, extBytes_eq_two.mpr h126⟩
  · rw [if_neg h126] at hst
    have htwo : extBytes (Byte1.len7 y) ≠ 2 := fun h => h126 (extBytes_eq_two.mp h)
    have := extBytes_cases (Byte1.len7 y)
    exact Or.inr ⟨hst.symm, by omega⟩

/-- Byte 1 and a part of the extended length it announces. -/
theorem feed_length_part {part : Bytes} (hc : b.ConfiguredAs c) (hb : Spec.AwaitsByte1 b x)
    (h1 : Spec.check1 c.role x y = none) (hpart : part.length < extBytes (Byte1.len7 y)) :
    ∃ b', feedLoop (y :: part) b = .ok (b', part.length + 1, []) ∧ b'.rxState ∈ headerStates := by
  have hstep := byte1_step (y := y) hc hb
  rw [byte1Done_extended h1 (by omega)] at hstep
  have hstate := extendedState_size (y := y) (by omega) rfl
  obtain ⟨b', hloop, hsame⟩ := ext_partial (x := x) (y := y) part
    { b with
      rxB1 := some y
      rxState := if Spec.len7Of y = 126 then .readingExtendedLength16 else .readingExtendedLength64
      rxCnt := 0
      rxLen := some 0
      rxOffset := b.rxOffset + 1 } 0 hc hstate (by simpa using hpart) hb.2.2 rfl rfl (by simp)
  refine ⟨b', ?_, ?_⟩
  · rw [feedLoop_cons (feedByteStep_eq hstep), if_neg, hloop]
    · rfl
    · rcases hstate with ⟨h, -⟩ | ⟨h, -⟩ <;> simp [h]
  · rw [hsame]
    rcases hstate with ⟨h, -⟩ | ⟨h, -⟩ <;> simp [h, headerStates]

/-- Byte 1, the length it announces, and a part of the mask key. -/
theorem feed_key_part {ext part : Bytes} {n : Nat} (hc : b.ConfiguredAs c) (hb : Spec.AwaitsByte1 b x)
    (h1 : Spec.check1 c.role x y = none) (hfield : LengthField y ext n)
    (hlen : 0 < extBytes (Byte1.len7 y) → Spec.checkLen c.strictMinlen (extBytes (Byte1.len7 y)) n = none)
    (hsize : Spec.checkSize c.maxPayload x b.rxMsgTotal.toNat n = none) (hmask : Byte1.mask y = true)
    (hpart : part.length < 4) :
    ∃ b', feedLoop (y :: (ext ++ part)) b = .ok (b', (ext ++ part).length + 1, []) ∧ b'.rxState ∈ headerStates := by
  obtain ⟨b₁, ev, hloop, -, hpasses⟩ := feed_length hc hb hfield.size hfield.extended hfield.short h1
  obtain ⟨p, hp, rfl, rfl⟩ := hpasses ((lengthChecks_eq hlen _).trans hsize)
  rw [Spec.afterLength, bitOf_mask, if_pos hmask] at hp
  subst hp
  obtain ⟨b', hkey, hstate⟩ := key_partial part
    { b with
      rxB1 := some y
      rxLen := some (BitVec.ofNat 64 n)
      rxState := .readingMask
      rxCnt := 0
      rxOffset := b.rxOffset + BitVec.ofNat 64 (1 + ext.length) } rfl (by simpa using hpart)
  obtain ⟨-, hgoes⟩ := feedLoop_append (c := part) (awaitsByte1_not_failed hb) hloop
  obtain ⟨-, hwhole⟩ := hgoes (by simp)
  refine ⟨b', ?_, by simp [hstate, headerStates]⟩
  rw [List.cons_append] at hwhole
  rw [hwhole, hkey, except_map_ok, List.length_append, Nat.add_assoc, Nat.add_comm 1]
  rfl

end

/-! The receiver behind a header. -/

section
variable (x y : Byte) {l : U64} (key : Option Key) (b : Block)

theorem enterPayload_latched (l : U64) :
    (Spec.enterPayload x y l key b).1.rxB0 = b.rxB0 ∧ (Spec.enterPayload x y l key b).1.rxB1 = b.rxB1
      ∧ (Spec.enterPayload x y l key b).1.rxLen = b.rxLen ∧ (Spec.enterPayload x y l key b).1.rxKey = b.rxKey := by
  unfold Spec.enterPayload
  split <;> exact ⟨rfl, rfl, rfl, rfl⟩

theorem enterPayload_of_nonempty (h : l ≠ 0) : (Spec.enterPayload x y l key b).2 = []
    ∧ (Spec.enterPayload x y l key b).1.rxState = .readingPayload := by
  rw [Spec.enterPayload, if_neg h]
  exact ⟨rfl, rfl⟩

theorem enterPayload_of_empty (h : l = 0) :
    (Spec.enterPayload x y l key b).2 = [.frameOut (makeHeader x y l key) []]
      ∧ Spec.AtBoundary (Spec.enterPayload x y l key b).1 := by
  rw [Spec.enterPayload, if_pos h, dispatched_eq]
  exact ⟨rfl, rfl, rfl⟩

end

/-- The header bytes at the front of a buffer. -/
theorem take_header (x y : Byte) (ext rest : Bytes) (key : Option Key) :
    (x :: y :: (ext ++ (keyField key ++ rest))).take (2 + ext.length + 4 * key.isSome.toNat)
      = x :: y :: (ext ++ keyField key) := by
  have hlength : 2 + ext.length + 4 * key.isSome.toNat = (x :: y :: (ext ++ keyField key)).length := by
    simp only [List.length_cons, List.length_append, keyField_length]
    omega
  rw [hlength, ← List.append_assoc]
  exact List.take_left (l₁ := x :: y :: (ext ++ keyField key))

/-! The agreement (R189). -/

section
variable {c : Config} {b : Block} {buf : Bytes} (hc : b.ConfiguredAs c) (hb : Spec.AtBoundary b)
include hc hb

/-- Item 1 of R189: the decoder's error is the receiver's, unless SeqCheck fails at byte 0. -/
theorem receiver_fails_with_decoder {r : Reason} {i : Nat} (h : DecoderStops c buf (.protocolError r i)) :
    (0 < i → ∀ q, Spec.checkSeq b.rxFragOpen (buf.getD 0 0) = some q → FailsAt b buf q 0)
      ∧ (i = 0 ∨ Spec.checkSeq b.rxFragOpen (buf.getD 0 0) = none → FailsAt b buf r i) := by
  cases h with
  | byte0Fails rest h0 =>
    exact ⟨fun hpos => absurd hpos (by omega), fun _ => failsAt_byte0 hc hb (by rw [h0]; rfl) rest⟩
  | byte1Fails more h0 h1 =>
    refine ⟨fun _ q hq => failsAt_byte0 hc hb (by rw [h0]; exact hq) _, fun hseq => ?_⟩
    exact failsAt_byte1 hc hb (by rw [h0]; exact hseq.resolve_left (by omega)) h1 more
  | lengthFails rest h0 h1 hfield hpos hlen =>
    refine ⟨fun _ q hq => failsAt_byte0 hc hb (by rw [h0]; exact hq) _, fun hseq => ?_⟩
    exact failsAt_length hc hb (by rw [h0]; exact hseq.resolve_left (by omega)) h1 hfield
      (by rw [if_pos hpos, hlen]; rfl) rest

/-- Item 2 of R189: SeqCheck fails at byte 0, or SizeCheck where the length is complete, or the decoded header is
latched. -/
theorem receiver_latches_decoded_header {h : Header} {n : Nat} (hstops : DecoderStops c buf (.header h n)) :
    (∀ q, Spec.checkSeq b.rxFragOpen (buf.getD 0 0) = some q → FailsAt b (buf.take n) q 0)
      ∧ (Spec.checkSeq b.rxFragOpen (buf.getD 0 0) = none → ∀ q,
          Spec.checkSize c.maxPayload (buf.getD 0 0) b.rxMsgTotal.toNat h.payloadLength.toNat = some q →
            FailsAt b (buf.take n) q (1 + extBytes (Byte1.len7 (buf.getD 1 0))))
      ∧ (Spec.checkSeq b.rxFragOpen (buf.getD 0 0) = none →
          Spec.checkSize c.maxPayload (buf.getD 0 0) b.rxMsgTotal.toNat h.payloadLength.toNat = none →
            ∃ b' ev, feedLoop (buf.take n) b = .ok (b', n, ev)
              ∧ b'.rxB0 = some (buf.getD 0 0) ∧ b'.rxB1 = some (buf.getD 1 0) ∧ b'.rxLen = some h.payloadLength
              ∧ (∀ k, h.maskKey = some k → b'.rxKey = ⟨some k.k0, some k.k1, some k.k2, some k.k3⟩)
              ∧ (h.payloadLength ≠ 0 → ev = [] ∧ b'.rxState = .readingPayload)
              ∧ (h.payloadLength = 0 → ev = [.frameOut h []] ∧ Spec.AtBoundary b')) := by
  cases hstops with
  | @whole x y ext key n rest h0 h1 hfield hlen hmask =>
    rw [take_header, show (makeHeader x y (BitVec.ofNat 64 n) key).payloadLength = BitVec.ofNat 64 n from rfl,
      hfield.toNat_ofNat]
    have hseq : ∀ {q}, Spec.checkSeq b.rxFragOpen x = q →
        (Spec.check0 c.rsv1Allowed x).or (Spec.checkSeq b.rxFragOpen x) = q := fun h => by rw [h0, h]; rfl
    refine ⟨fun q hq => failsAt_byte0 hc hb (hseq hq) _, fun hnone q hq => ?_, fun hnone hsize => ?_⟩
    · exact failsAt_length hc hb (hseq hnone) h1 hfield ((lengthChecks_eq hlen _).trans hq) (keyField key)
    · obtain ⟨p, rfl, hloop⟩ := feed_whole_header hc hb (hseq hnone) hfield.size hmask hfield.extended hfield.short
        h1 hlen hsize
      obtain ⟨hb0, hb1, hl, hkey⟩ := enterPayload_latched x y key
        { b with
          rxCnt := 1
          rxB0 := some x
          rxB1 := some y
          rxLen := some (BitVec.ofNat 64 n)
          rxKey := Spec.latchedKey key b.rxKey
          rxOffset := b.rxOffset + 1 } (BitVec.ofNat 64 n)
      refine ⟨_, _, hloop, hb0, hb1, hl, ?_, enterPayload_of_nonempty x y key _, enterPayload_of_empty x y key _⟩
      intro k hk
      obtain rfl : key = some k := hk
      exact hkey

/-- Item 3 of R189, with the exceptions of items 1 and 2 (notes/assumptions/8.md). -/
theorem receiver_waits_with_decoder (hstops : DecoderStops c buf .needMoreData)
    (hseq : buf ≠ [] → Spec.checkSeq b.rxFragOpen (buf.getD 0 0) = none)
    (hsize : 2 + extBytes (Byte1.len7 (buf.getD 1 0)) ≤ buf.length →
      Spec.checkSize c.maxPayload (buf.getD 0 0) b.rxMsgTotal.toNat
        (Spec.lengthAt buf (extBytes (Byte1.len7 (buf.getD 1 0)))) = none) :
    ∃ b', feedLoop buf b = .ok (b', buf.length, []) ∧ b'.rxState ∈ headerStates := by
  have hstart : b.rxState ∈ headerStates := by simp [hb.1, headerStates]
  have hpasses : ∀ {x}, Spec.check0 c.rsv1Allowed x = none → Spec.checkSeq b.rxFragOpen x = none →
      (Spec.check0 c.rsv1Allowed x).or (Spec.checkSeq b.rxFragOpen x) = none := fun h h' => by rw [h, h']; rfl
  cases hstops with
  | empty => exact ⟨b, rfl, hstart⟩
  | afterByte0 h0 => exact ⟨_, feed_byte0 hc hb (hpasses h0 (hseq (by simp))), hstart⟩
  | @insideLength x y part h0 h1 hpart =>
    obtain ⟨b', hloop, hstate⟩ := feed_length_part (b := byte0Taken x b) hc (byte0Taken_awaits hb x) h1 hpart
    refine ⟨b', ?_, hstate⟩
    rw [feedLoop_behind_byte0 hc hb (hpasses h0 (hseq (by simp))), hloop, except_map_ok, Nat.add_comm 1]
    rfl
  | @insideKey x y ext part n h0 h1 hfield hlen hmask hpart =>
    have hsize' := hsize (by
      simp only [List.length_cons, List.length_append, hfield.size, List.getD_cons_succ, List.getD_cons_zero]
      omega)
    simp only [List.getD_cons_succ, List.getD_cons_zero, hfield.lengthAt_eq] at hsize'
    obtain ⟨b', hloop, hstate⟩ :=
      feed_key_part (b := byte0Taken x b) hc (byte0Taken_awaits hb x) h1 hfield hlen hsize' hmask hpart
    refine ⟨b', ?_, hstate⟩
    rw [feedLoop_behind_byte0 hc hb (hpasses h0 (hseq (by simp))), hloop, except_map_ok, Nat.add_comm 1]
    rfl

end

/-- Settles O45: for each place where DECODE_HEADER stops (`decodeHeader_stops`), what the receiver does there. -/
theorem receiverAgreesWithDecodeHeader : Obligations.ReceiverAgreesWithDecodeHeader := by
  intro s c buf hc hb failsAt seq e
  have hnot_failed := boundary_not_failed hb
  have hfails : ∀ {data r i}, FailsAt s.block data r i → failsAt data r i := fun h => h.exec hc.1 hnot_failed
  have hext : e = extBytes (Byte1.len7 (buf.getD 1 0)) := extOf_eq _
  have hstops := decodeHeader_stops c buf
  rw [hext]
  refine ⟨fun r i hanswer => ?_, fun h n hanswer => ?_, fun hanswer hseq hsize => ?_⟩ <;> rw [hanswer] at hstops
  · obtain ⟨hfirst, hreason⟩ := receiver_fails_with_decoder hc hb hstops
    exact ⟨fun hpos q hq => hfails (hfirst hpos q hq), fun hcase => hfails (hreason hcase)⟩
  · obtain ⟨hfirst, hsize, hlatched⟩ := receiver_latches_decoded_header hc hb hstops
    refine ⟨fun q hq => hfails (hfirst q hq), fun hseq q hq => hfails (hsize hseq q hq), fun hseq hq => ?_⟩
    obtain ⟨b', ev, hloop, hregisters⟩ := hlatched hseq hq
    exact ⟨_, ev, exec_feed_of_loop hc.1 hnot_failed hloop, rfl, hregisters⟩
  · obtain ⟨b', hloop, hstate⟩ := receiver_waits_with_decoder hc hb hstops hseq hsize
    exact ⟨_, exec_feed_of_loop hc.1 hnot_failed hloop, rfl, hstate⟩

end Sys2Proof.Machine
end

section
/-!
SUPPORT. Block control: what RESET, CONFIGURE, READ_STATUS and the reserved codes answer, the lock of the configuration
and the gate of the commands that need one; with the proofs of the statements about them (spec/43_block_control.md R220
to R225).
-/
namespace Sys2Proof.Machine

/-! The commands (R220 to R222, R225). -/

theorem exec_reset (s : State) : exec .reset s = .next { s with block := Block.reset, result := some .ok } := rfl

theorem exec_readStatus (s : State) :
    exec .readStatus s = .next { s with result := some (.status (statusOf s.block)) } := rfl

section
variable {s : State} (role : Role) (rsv1Allowed : Bool) (maxPayload : U64) (strictMinlen : Bool)

theorem exec_configure_of_configured (hv : s.block.cfgValid = true) :
    exec (.configure role rsv1Allowed maxPayload strictMinlen) s
      = .next { s with result := some (.cmdError .configLocked) } := by
  simp [exec, execConfigure, hv]

theorem exec_configure_of_unconfigured (hv : s.block.cfgValid = false) :
    exec (.configure role rsv1Allowed maxPayload strictMinlen) s
      = .next { s with
          block := attachConfig s.block ⟨role, rsv1Allowed, maxPayload, strictMinlen⟩
          result := some .ok } := by
  simp [exec, execConfigure, hv]

end

theorem attachConfig_configuredAs (b : Block) (c : Config) : (attachConfig b c).ConfiguredAs c :=
  ⟨rfl, rfl, rfl, rfl, rfl⟩

theorem attachConfig_sameReceiver (b : Block) (c : Config) : (attachConfig b c).SameReceiver b := by
  simp [Block.SameReceiver]

/-- Settles O7: RESET leaves the registers of `Block.reset`. -/
theorem resetWritesEveryRegister : Obligations.ResetWritesEveryRegister :=
  fun s => ⟨_, exec_reset s, by simp⟩

/-- Settles O9: CONFIGURE attaches its arguments, or finds the configuration locked. -/
theorem configureAttachesTheParameters : Obligations.ConfigureAttachesTheParameters := by
  refine fun s role rsv1Allowed maxPayload strictMinlen => ⟨fun hv => ?_, exec_configure_of_configured _ _ _ _⟩
  obtain ⟨hvalid, hrole, hrsv1, hmax, hstrict⟩ :=
    attachConfig_configuredAs s.block ⟨role, rsv1Allowed, maxPayload, strictMinlen⟩
  exact ⟨_, exec_configure_of_unconfigured _ _ _ _ hv, rfl, rfl, hvalid, hrole, hrsv1, hmax, hstrict,
    attachConfig_sameReceiver _ _⟩

/-- Settles O11: the record is `statusOf`, which hides the configuration while `cfg_valid = 0`. -/
theorem readStatusReturnsTheRecord : Obligations.ReadStatusReturnsTheRecord := by
  refine fun s => ⟨statusOf s.block, exec_readStatus s, rfl, fun hv => ?_, fun hv => ?_, rfl, rfl, rfl, rfl, rfl, rfl⟩
    <;> simp [statusOf, hv]

/-- Settles O12: each reserved code is `badCommand`. -/
theorem reservedCodesChangeNothing : Obligations.ReservedCodesChangeNothing := by
  intro s i hi
  have hbad : exec i s = badCommand s := by
    simp only [List.mem_cons, List.not_mem_nil, or_false] at hi
    rcases hi with rfl | rfl | rfl | rfl | rfl | rfl | rfl <;> rfl
  rw [hbad, badCommand, State.complete_ok]

/-! The lock (R224). -/

/-- No effect but RESET's reaches the configuration of a configured block: CONFIGURE's asks for `cfg_valid = 0`, and
the bytes of the stream write no configuration register. -/
theorem Effect.sameConfig_of_configured {i : Instr} {b b' : Block} {r : Result} (h : Effect i b b' r)
    (hi : i ≠ .reset) (hv : b.cfgValid = true) : b'.SameConfig b := by
  cases h with
  | unchanged _ h => exact h ▸ sameConfig_refl b
  | reset hreset _ => exact absurd hreset hi
  | configured _ _ hunconfigured _ => simp [hv] at hunconfigured
  | fed _ _ _ _ _ _ h => exact feedLoop_sameConfig h

/-- Settles O10, by the effects an instruction can have on a configured block
(`Effect.sameConfig_of_configured`). -/
theorem configurationIsLockedUntilReset : Obligations.ConfigurationIsLockedUntilReset := by
  refine fun s hv => ⟨fun i t hi h => ?_, fun _ _ _ _ => exec_configure_of_configured _ _ _ _ hv⟩
  obtain ⟨-, r, -, heffect⟩ := exec_effect h
  exact heffect.sameConfig_of_configured hi hv

/-! The gate (R223). -/

theorem exec_feedByte_of_unconfigured {s : State} (hv : s.block.cfgValid = false) (x : Byte) :
    exec (.feedByte x) s = .next { s with result := some (.cmdError .notConfigured) } := by
  simp [exec, execFeedByte, feedByteCommand, hv]

theorem encodeFrameResult_of_unconfigured {b : Block} (hv : b.cfgValid = false) (op : BitVec 4) (fin rsv1 : Bool)
    (key : Option Key) (payload : Bytes) :
    encodeFrameResult b op fin rsv1 key payload = .ok (.cmdError .notConfigured) :=
  encodeFrameResult_of_no_header (encodeHeaderResult_of_unconfigured hv ..) (by simp)

/-- Settles O13: each gated command by its own gate, each accepted one by what it answers. -/
theorem commandsAreGatedUntilConfigured : Obligations.CommandsAreGatedUntilConfigured := by
  refine fun s hv => ⟨fun op fin rsv1 key n data x i hi => ?_, fun c data key phase i hi => ?_⟩
    <;> simp only [List.mem_cons, List.not_mem_nil, or_false] at hi
  · rcases hi with rfl | rfl | rfl | rfl | rfl
    · rw [exec_encodeHeader, encodeHeaderResult_of_unconfigured hv, State.answer_ok]
    · rw [exec_encodeFrame, encodeFrameResult_of_unconfigured hv, State.answer_ok]
    · rw [exec_decodeHeader, decodeHeaderResult_of_unconfigured hv, State.answer_ok]
    · exact exec_feedByte_of_unconfigured hv x
    · exact exec_feed_of_unconfigured hv data
  · rcases hi with rfl | rfl | rfl | rfl
    · exact ⟨_, exec_reset s, by simp⟩
    · exact ⟨_, exec_configure_of_unconfigured _ _ _ _ hv, by simp⟩
    · exact ⟨_, exec_readStatus s, by simp⟩
    · exact ⟨_, exec_applyMask data key phase s, by simp⟩

end Sys2Proof.Machine
end

section
/-!
SUPPORT. Power-on: the state an instance is created in is the one RESET leaves, and it meets the machine's invariant;
with the proofs of the statements about them (R270, R42).
-/
namespace Sys2Proof.Machine

/-- Whatever the registers held, RESET leaves those of `Block.reset` (R220). -/
theorem block_eq_of_exec_reset {s t : State} (h : exec .reset s = .next t) : t.block = Block.reset := by
  rw [exec_reset] at h
  cases h
  rfl

/-- The registers of RESET meet the invariant by its clause for a block with no configuration. -/
theorem Block.reset_inv : Block.reset.Inv := Or.inl rfl

/-- Settles O8: power-on and RESET both leave `Block.reset`, whose registers are those of the rule's table. -/
theorem powerOnStateIsWhatResetLeaves : Obligations.PowerOnStateIsWhatResetLeaves :=
  ⟨fun _ _ h => (block_eq_of_exec_reset h).trans State.reset_block.symm, rfl⟩

/-- Settles O49: the registers at power-on are those of `Block.reset`. -/
theorem invariantHoldsAtPowerOn : Obligations.InvariantHoldsAtPowerOn := Block.reset_inv

end Sys2Proof.Machine
end
